-- ==== Sys2Proof/Word.lean ====
section
/-! DEFINITION. The word types of GSIV (00_scope.md R8 to R10).
A byte string of 16 or 32 bytes is a bit vector whose byte `i` is bits `8i+7 : 8i`, so that its value
is `int(B)` of R9 and its bit `k` is bit `k` of R10. -/

namespace Sys2Proof

/-- A byte (R8). -/
abbrev Byte := BitVec 8

/-- A 32-bit host register or bus word (10_state.md R21). -/
abbrev Word := BitVec 32

/-- A 16-byte block, as the little-endian integer of its bytes (R9, R10). -/
abbrev Block := BitVec 128

/-- A 32-byte string (the KEY and DKE groups, ESUB), little-endian like `Block`. -/
abbrev Key := BitVec 256

/-- The low 8 bytes of a block (42_key_derivation.md R133). -/
abbrev Half := BitVec 64

end Sys2Proof
end

