-- ==== Sys2Proof/Syntax.lean ====
section
/-! DEFINITION. The instructions of GSIV: one constructor per row of spec/opcode_table.json.
The six command words of 30_encoding.md R71 and the two host transactions of R75. -/

namespace Sys2Proof

/-- The opcode table. A command is the data of a host write to CMD; a host transaction is one bus
transaction. -/
inductive Instr where
  /-- NOP (45_commands.md R209). -/
  | nop
  /-- ENCRYPT (R200); F: false one-key, true two-key (R72). -/
  | encrypt (twoKey : Bool)
  /-- DECRYPT (R204); F: false one-key, true two-key (R72). -/
  | decrypt (twoKey : Bool)
  /-- DERIVE (42_key_derivation.md R140). -/
  | derive
  /-- PV_HASH (41_polyval.md R120); F is L: true appends the length block (R72). -/
  | pvHash (withLength : Bool)
  /-- CLEAR (45_commands.md R210). -/
  | clear
  /-- RD (40_host_bus.md R90); STRB and DATA are in the word and are ignored (R75). -/
  | rd (addr : BitVec 16) (strb : BitVec 4) (data : Word)
  /-- WR (40_host_bus.md R91). -/
  | wr (addr : BitVec 16) (strb : BitVec 4) (data : Word)
deriving DecidableEq, Repr

/-- The two encoded forms of 30_encoding.md. -/
inductive Format where
  /-- The 32-bit command word (R70). -/
  | command
  /-- The 53-bit host transaction word HT (R75). -/
  | transaction
deriving DecidableEq, Repr

/-- An encoded instruction. -/
inductive Encoded where
  | command (w : BitVec 32)
  | transaction (w : BitVec 53)
deriving DecidableEq, Repr

end Sys2Proof
end

