-- ==== Sys2Proof/Decode.lean ====
section
/-! DEFINITION. Decoding command words (30_encoding.md R70 to R74) and host transaction words (R75, R76),
total on any bits and rejecting by name, and then the encoder from the same tables. -/

namespace Sys2Proof

/-- Why bits are no instruction. -/
inductive DecodeError where
  /-- RSV ≠ 0 in a command word (R73). -/
  | reservedBits
  /-- OP is none of 0x00, 0x01, 0x02, 0x03, 0x04, 0x0F (R73). -/
  | reservedOpcode
  /-- F = 1 with OP 0x00, 0x03 or 0x0F (R73). -/
  | flagNotAllowed
  /-- Fewer bytes than the form has. -/
  | truncated
  /-- Bits above bit 52 of a host transaction word (R75 gives the word 53 bits). -/
  | beyondTransactionWord
deriving DecidableEq, Repr

/-- The OP field of a command word (R70). -/
def cmdOp (w : BitVec 32) : BitVec 8 := w.extractLsb' 0 8

/-- The F field of a command word (R70). -/
def cmdF (w : BitVec 32) : Bool := w.getLsbD 8

/-- The RSV field of a command word (R70). -/
def cmdRsv (w : BitVec 32) : BitVec 23 := w.extractLsb' 9 23

/-- An instruction that allows F = 0 only (R71). -/
def needF0 (f : Bool) (i : Instr) : Except DecodeError Instr :=
  if f then .error .flagNotAllowed else .ok i

/-- The opcode map of R71, with R73's refusals. -/
def decodeCommand (w : BitVec 32) : Except DecodeError Instr :=
  if cmdRsv w ≠ 0 then .error .reservedBits
  else if cmdOp w = 0x00 then needF0 (cmdF w) .nop
  else if cmdOp w = 0x01 then .ok (.encrypt (cmdF w))
  else if cmdOp w = 0x02 then .ok (.decrypt (cmdF w))
  else if cmdOp w = 0x03 then needF0 (cmdF w) .derive
  else if cmdOp w = 0x04 then .ok (.pvHash (cmdF w))
  else if cmdOp w = 0x0F then needF0 (cmdF w) .clear
  else .error .reservedOpcode

/-- A host transaction word (R75): W 52, ADDR 51:36, STRB 35:32, DATA 31:0. Every word is one. -/
def decodeTransaction (w : BitVec 53) : Instr :=
  if w.getLsbD 52 then .wr (w.extractLsb' 36 16) (w.extractLsb' 32 4) (w.extractLsb' 0 32)
  else .rd (w.extractLsb' 36 16) (w.extractLsb' 32 4) (w.extractLsb' 0 32)

/-- Decoding of an encoded instruction. -/
def decode : Encoded → Except DecodeError Instr
  | .command w => decodeCommand w
  | .transaction w => .ok (decodeTransaction w)

/-- Decoding from bytes, least significant byte first (00_scope.md R9): four bytes for a command
word, seven for a host transaction word, whose three bits above bit 52 must be zero (DESIGN CHOICE, log entry 10). The rest
of the bytes is handed back. -/
def decodeBytes : Format → List Byte → Except DecodeError (Instr × List Byte)
  | .command, b0 :: b1 :: b2 :: b3 :: rest =>
    match decodeCommand (b3 ++ b2 ++ b1 ++ b0) with
    | .ok i => .ok (i, rest)
    | .error e => .error e
  | .transaction, b0 :: b1 :: b2 :: b3 :: b4 :: b5 :: b6 :: rest =>
    if b6.extractLsb' 5 3 = 0 then
      .ok (decodeTransaction ((b6.extractLsb' 0 5) ++ b5 ++ b4 ++ b3 ++ b2 ++ b1 ++ b0), rest)
    else .error .beyondTransactionWord
  | _, _ => .error .truncated

/-- The command word of an operation code and a flag (R70: RSV = 0). -/
def commandWord (op : BitVec 8) (f : Bool) : BitVec 32 := 0#23 ++ (BitVec.ofBool f ++ op)

/-- The host transaction word of its fields (R75). -/
def transactionWord (write : Bool) (addr : BitVec 16) (strb : BitVec 4) (data : Word) : BitVec 53 :=
  BitVec.ofBool write ++ (addr ++ (strb ++ data))

/-- The encoder: the words of R71 and R75. -/
def encode : Instr → Encoded
  | .nop => .command (commandWord 0x00 false)
  | .encrypt f => .command (commandWord 0x01 f)
  | .decrypt f => .command (commandWord 0x02 f)
  | .derive => .command (commandWord 0x03 false)
  | .pvHash l => .command (commandWord 0x04 l)
  | .clear => .command (commandWord 0x0F false)
  | .rd addr strb data => .transaction (transactionWord false addr strb data)
  | .wr addr strb data => .transaction (transactionWord true addr strb data)

/-- The format of an encoded instruction. -/
def Encoded.format : Encoded → Format
  | .command _ => .command
  | .transaction _ => .transaction

/-- The bits of an encoded instruction as a number, bit 0 the least significant (R70, R75). -/
def Encoded.toNat : Encoded → Nat
  | .command w => w.toNat
  | .transaction w => w.toNat

/-- The lowest `n` bytes of a number, least significant first (R9). -/
def bytesOfNat : Nat → Nat → List Byte
  | 0, _ => []
  | n + 1, w => BitVec.ofNat 8 w :: bytesOfNat n (w / 256)

/-- How many bytes a form is laid out in. -/
def Format.bytes : Format → Nat
  | .command => 4
  | .transaction => 7

/-- The bytes of an encoded instruction. -/
def Encoded.toBytes (e : Encoded) : List Byte := bytesOfNat e.format.bytes e.toNat

/-- The form of an opcode-table row of `nbits` bits: the command words have 32, the host transaction
words 53 (56 in whole bytes). -/
def formatOfBits (nbits : Nat) : Format := if nbits ≤ 32 then .command else .transaction

/-- The instruction the decoder reads from an opcode-table row's bits. -/
def decodeTableWord (nbits w : Nat) : Option Instr :=
  match decodeBytes (formatOfBits nbits) (bytesOfNat (formatOfBits nbits).bytes w) with
  | .ok (i, _) => if w < 2 ^ (8 * (formatOfBits nbits).bytes) then some i else none
  | .error _ => none

end Sys2Proof
end

