-- ==== Sys2Proof/Config.lean ====
section
/-! DEFINITION. What one GSIV instance fixes (00_scope.md R6) and the free values the spec leaves open.
Params is plain data held in State and changed by no step, so that a statement about every state is a
statement about every BUF_BYTES and every CTR_MSB. The opaque constants have no body: nothing can be
proved about their values (log entries 2, 3, 6, 13). -/

namespace Sys2Proof

/-- The parameters of one instance that the machine's registers show (R6, 10_state.md R25). -/
structure Params where
  /-- `BUF_BYTES / 16`, the value of CAP[15:0]. -/
  bufBlocks : Nat
  /-- `CTR_MSB`, the value forced into bit 127 of the initial counter block. -/
  ctrMsb : Bool
deriving DecidableEq, Repr

/-- `BUF_BYTES` (R6: a multiple of 16). -/
def Params.bufBytes (p : Params) : Nat := 16 * p.bufBlocks

/-- R6: 16 ≤ BUF_BYTES ≤ 32768. -/
def Params.wf (p : Params) : Bool := decide (1 ≤ p.bufBlocks ∧ p.bufBlocks ≤ 2048)

/-- The reference values of R6: BUF_BYTES = 32768, CTR_MSB = 1. -/
def Params.reference : Params := { bufBlocks := 2048, ctrMsb := true }

/-- BASE of R6: the host address of offset 0. No rule depends on it. -/
opaque Config.base : Nat

/-- BlockEncrypt of R6 (U7): key size (false: 16 bytes, true: 32 bytes), key, block. A 16-byte key
stands in the low half of the key argument, the high half being zero (40_host_bus.md R97, bc_key). -/
opaque Config.blockEncrypt : Bool → Key → Block → Block

/-- BlockFail of R6 (U4): whether the `n`-th block-cipher call fails, where no draw is made yet. -/
opaque Config.blockFail : Nat → Bool

/-- The content of BUF after a reset (10_state.md R41, U1): reset number, byte offset. -/
opaque Config.bufDraw : Nat → Nat → Byte

end Sys2Proof
end

