-- ==== Sys2Proof/Machine/State.lean ====
section
/-! DEFINITION. The state of GSIV as plain data (10_state.md R20 to R41), the reasons a step can stop,
and the state after reset. INVENTORY.md lists every field with its rule and its reset value. -/

namespace Sys2Proof.Machine

/-- What BUF's unlisted bytes hold: the draw of a reset (R41), or the zeros CLEAR wrote (45_commands.md R210). -/
inductive BufBase where
  /-- The bytes are what the reset of this number left: a free value for each byte (R41). -/
  | drawn (reset : Nat)
  /-- Every byte was zeroized by CLEAR. -/
  | zero
deriving DecidableEq, Repr

/-- The data buffer BUF (R38): its base, and the bytes written since, as cells of strictly rising
byte offset. -/
structure Buffer where
  base : BufBase
  cells : List Host.Cell
deriving DecidableEq, Repr

/-- Micro-steps of the tag generator (43_tag_generator.md R150 to R153). -/
inductive TagStep where
  /-- TG.LEN is next. -/
  | len
  /-- TG.XOR is next, on the hash result S. -/
  | xor (s : Block)
  /-- TG.ENC is next, on the tag input block TIN. -/
  | enc (tin : Block)
deriving DecidableEq, Repr

/-- Position inside a keystream pass (44_ctr_keystream.md R170, R173). -/
inductive CtrStep where
  /-- CTR.INIT is next. -/
  | init
  /-- CTR.BLOCK is next, of index BLK, or the end of the pass. -/
  | block
  /-- DEC_PASS1 only: the candidate chunk, zero-padded, is absorbed next (45_commands.md R204). -/
  | absorb (chunk : Block)
deriving DecidableEq, Repr

/-- PHASE (R37), refined by the position inside the phase. `started` and `keyed` are the model's own
positions (DESIGN CHOICE, log entry 4). -/
inductive Phase where
  /-- IDLE. -/
  | idle
  /-- Accepted; the command's checks and key set-up come next. -/
  | started
  /-- DERIVING: KD.STEP(i) is next; the halves `Y_j[0..7]` so far (42_key_derivation.md R132, R133). -/
  | derivingKeys (i : Nat) (ys : List Half)
  /-- The subkeys are in place; PV.INIT (or DERIVE's outputs) comes next. -/
  | keyed
  /-- HASHING_AAD: chunk `i` is next. -/
  | hashingAad (i : Nat)
  /-- HASHING_MSG: chunk `i` is next. -/
  | hashingMsg (i : Nat)
  /-- HASHING_MSG, everything absorbed: PV_HASH writes RESULT next (41_polyval.md R120). -/
  | hashed
  /-- DEC_PASS1. -/
  | decPass1 (c : CtrStep)
  /-- TAGGING. -/
  | tagging (t : TagStep)
  /-- COMPARING. -/
  | comparing
  /-- KEYSTREAM. -/
  | keystream (c : CtrStep)
  /-- CLEARING. -/
  | clearing
deriving DecidableEq, Repr

/-- PHASE as R37 names it. -/
inductive PhaseName where
  | idle | derivingKeys | hashingAad | hashingMsg | decPass1 | tagging | comparing | keystream | clearing
deriving DecidableEq, Repr

/-- R37's name of a position; `none` for the two positions R37 gives no name. -/
def Phase.spec : Phase → Option PhaseName
  | .idle => some .idle
  | .started => none
  | .derivingKeys _ _ => some .derivingKeys
  | .keyed => none
  | .hashingAad _ => some .hashingAad
  | .hashingMsg _ => some .hashingMsg
  | .hashed => some .hashingMsg
  | .decPass1 _ => some .decPass1
  | .tagging _ => some .tagging
  | .comparing => some .comparing
  | .keystream _ => some .keystream
  | .clearing => some .clearing

/-- A presented block-cipher request (20_memory.md R58, 40_host_bus.md R97): bc_ksz, bc_key, bc_block. -/
structure BcRequest where
  ksz : Bool
  key : Key
  block : Block
deriving DecidableEq, Repr

/-- How a command ends (45_commands.md R192). -/
inductive CmdOutcome where
  | ok | verified | authenticationFailure | invalidInputLength | primitiveFailure | illegalCommand
deriving DecidableEq, Repr

/-- What the last host transaction returned (40_host_bus.md R90, R91). -/
inductive Response where
  /-- No transaction since reset. -/
  | none
  /-- A read: prdata and pslverr. -/
  | read (data : Word) (err : Bool)
  /-- A write: pslverr. -/
  | write (err : Bool)
deriving DecidableEq, Repr

/-- One turn of the agenda: who moves next (DESIGN CHOICE, log entry 1). -/
inductive Turn where
  /-- The host issues the bus transaction of this HT word (30_encoding.md R75). -/
  | host (ht : BitVec 53)
  /-- The sequencer, or the block-cipher port when a request is outstanding (R99). -/
  | engine
  /-- `rst_n` falls (70_reset_and_hazards.md R260). -/
  | resetLow
  /-- `rst_n` is back at 1 and GSIV leaves reset (R260). -/
  | resetHigh
deriving DecidableEq, Repr

/-- The state of GSIV. -/
structure State where
  /-- The instance's parameters (00_scope.md R6); no step changes them. -/
  params : Params
  /-- The reset input `rst_n` (R260). -/
  rstN : Bool
  /-- CTRL[2:0]: KSZ, NPROF, IE (R26). -/
  ctrl : BitVec 3
  /-- STATUS[7:0] (R28). -/
  status : BitVec 8
  /-- AAD_OFF (R29). -/
  aadOff : Word
  /-- AAD_LEN (R29). -/
  aadLen : Word
  /-- MSG_OFF (R29). -/
  msgOff : Word
  /-- MSG_LEN (R29). -/
  msgLen : Word
  /-- OUT_OFF (R29). -/
  outOff : Word
  /-- NONCE0 to NONCE3 (R30). -/
  nonce : Block
  /-- KEY0 to KEY7 (R31). -/
  key : Key
  /-- HKEY0 to HKEY3 (R32). -/
  hkey : Block
  /-- TAG0 to TAG3 (R33). -/
  tag : Block
  /-- RESULT0 to RESULT3 (R34). -/
  result : Block
  /-- DKH0 to DKH3 (R35). -/
  dkh : Block
  /-- DKE0 to DKE7 (R35). -/
  dke : Key
  /-- BUF (R38). -/
  buf : Buffer
  /-- ACC, the hash accumulator (R36). -/
  acc : Block
  /-- HSUB, the hash subkey in use (R36). -/
  hsub : Block
  /-- ESUB, the encryption subkey in use (R36). -/
  esub : Key
  /-- CB0, the initial counter block (R36). -/
  cb0 : Block
  /-- BLK, the index of the next keystream block (R36). -/
  blk : BitVec 32
  /-- TCALC, the computed tag (R36). -/
  tcalc : Block
  /-- OPC: the operation code of the command in progress (R36). -/
  opc : BitVec 8
  /-- OPC: the F bit of the command in progress (R36). -/
  opF : Bool
  /-- OPT: CTRL.KSZ latched at acceptance (R36). -/
  optKsz : Bool
  /-- OPT: CTRL.NPROF latched at acceptance (R36). -/
  optNprof : Bool
  /-- PHASE (R37). -/
  phase : Phase
  /-- RT of R204's pseudocode: the received tag, read once (R205; DESIGN CHOICE, log entry 7). -/
  rt : Block
  /-- The outstanding block-cipher request, if any (20_memory.md R58). -/
  bcReq : Option BcRequest
  /-- What the last host transaction returned (DESIGN CHOICE, log entry 5). -/
  resp : Response
  /-- The model's own: the turns to come (DESIGN CHOICE, log entry 1). -/
  turns : List Turn
  /-- The model's own: BlockFail draws already made for the next calls (DESIGN CHOICE, log entry 6). -/
  answers : List Bool
  /-- The model's own: block-cipher calls answered so far (DESIGN CHOICE, log entry 6). -/
  calls : Nat
  /-- The model's own: resets after the first (DESIGN CHOICE, log entry 3). -/
  resets : Nat
deriving DecidableEq, Repr

/-- The machine right after reset (10_state.md R40, R41; 70_reset_and_hazards.md R262), with the
reference parameters and nothing on the agenda (log entries 1, 2, 12). -/
def State.reset : State where
  params := Params.reference
  rstN := true
  ctrl := 0
  status := 0
  aadOff := 0
  aadLen := 0
  msgOff := 0
  msgLen := 0
  outOff := 0
  nonce := 0
  key := 0
  hkey := 0
  tag := 0
  result := 0
  dkh := 0
  dke := 0
  buf := { base := .drawn 0, cells := [] }
  acc := 0
  hsub := 0
  esub := 0
  cb0 := 0
  blk := 0
  tcalc := 0
  opc := 0
  opF := false
  optKsz := false
  optNprof := false
  phase := .idle
  rt := 0
  bcReq := none
  resp := .none
  turns := []
  answers := []
  calls := 0
  resets := 0

/-- Why the machine stops with a fault. -/
inductive Fault where
  /-- The sequencer would read or write `n` bytes of BUF from offset `a` although `a + n > BUF_BYTES`,
  for which 20_memory.md R52 defines nothing. Raised by the sequencer's MemRead and MemWrite only, in
  states that no accepted command reaches (45_commands.md R194). Safe: the machine stops. -/
  | bufferOutOfRange (a n : Nat)
deriving DecidableEq, Repr

/-- Why the model gives no next state. -/
inductive Refusal where
  /-- An instruction without a meaning. Raised by exec's arms only. Safe. -/
  | notModelled (mnemonic : String)
  /-- A host transaction while `rst_n = 0`, which "has no defined result" (70_reset_and_hazards.md
  R260; 93_implementation_defined.md U2, `refuse`; DEDUCED, log entry 9). Raised by the host's turn. Safe. -/
  | transactionInReset
deriving DecidableEq, Repr

end Sys2Proof.Machine
end

