-- ==== Sys2Proof/Machine/Flags.lean ====
section
/-! DEFINITION. STATUS (10_state.md R28) and the options of CTRL (R26): the bits, who sets and who clears
them, the outcome codes (60_exceptions.md R237) and the interrupt output (R39). -/

namespace Sys2Proof.Machine

/-- STATUS.BUSY, bit 0. -/
def State.busy (s : State) : Bool := s.status.getLsbD 0

/-- STATUS.DONE, bit 1. -/
def State.done (s : State) : Bool := s.status.getLsbD 1

/-- STATUS.AUTH_OK, bit 2. -/
def State.authOk (s : State) : Bool := s.status.getLsbD 2

/-- STATUS.AUTH_FAIL, bit 3. -/
def State.authFail (s : State) : Bool := s.status.getLsbD 3

/-- STATUS.ERR_LEN, bit 4. -/
def State.errLen (s : State) : Bool := s.status.getLsbD 4

/-- STATUS.ERR_PRIM, bit 5. -/
def State.errPrim (s : State) : Bool := s.status.getLsbD 5

/-- STATUS.ERR_CMD, bit 6. -/
def State.errCmd (s : State) : Bool := s.status.getLsbD 6

/-- STATUS.ERR_BUSY, bit 7. -/
def State.errBusy (s : State) : Bool := s.status.getLsbD 7

/-- The outcome bits 6:2, of which a completed command sets at most one (45_commands.md R192). -/
def State.outcomeBits (s : State) : BitVec 5 := s.status.extractLsb' 2 5

/-- CTRL.KSZ, bit 0. -/
def State.ksz (s : State) : Bool := s.ctrl.getLsbD 0

/-- CTRL.NPROF, bit 1. -/
def State.nprof (s : State) : Bool := s.ctrl.getLsbD 1

/-- CTRL.IE, bit 2. -/
def State.ie (s : State) : Bool := s.ctrl.getLsbD 2

/-- The interrupt output: `irq = CTRL.IE AND STATUS.DONE` at every instant (R39, 60_exceptions.md R240), of CTRL as it
stands: IE is not latched at acceptance as 92_eei_decisions.md D29 says of all three options (DEDUCED, log entry 14). -/
def State.irq (s : State) : Bool := s.ie && s.done

/-- The outcome's STATUS bit (45_commands.md R192, 60_exceptions.md R237); none for OK. -/
def outcomeBit : CmdOutcome → BitVec 8
  | .ok => 0x00
  | .verified => 0x04
  | .authenticationFailure => 0x08
  | .invalidInputLength => 0x10
  | .primitiveFailure => 0x20
  | .illegalCommand => 0x40

/-- STATUS after acceptance: bits 6:1 cleared, ERR_BUSY and BUSY kept (45_commands.md R191). -/
def statusAccepted (st : BitVec 8) : BitVec 8 := st &&& 0x81

/-- STATUS.BUSY ← 1 (R190). -/
def statusBusy (st : BitVec 8) : BitVec 8 := st ||| 0x01

/-- STATUS after completion: the outcome bit and DONE set, BUSY cleared (R192). -/
def statusCompleted (o : CmdOutcome) (st : BitVec 8) : BitVec 8 :=
  (st ||| outcomeBit o ||| 0x02) &&& 0xFE

/-- STATUS.ERR_BUSY ← 1 (40_host_bus.md R95). -/
def statusBusyWrite (st : BitVec 8) : BitVec 8 := st ||| 0x80

/-- A W1C write of `d` to STATUS: bits 7:1 with `d[b] = 1` are cleared, bit 0 is not (R28, R92). -/
def statusW1C (st : BitVec 8) (d : Word) : BitVec 8 := st &&& ~~~(d.extractLsb' 0 8 &&& 0xFE)

end Sys2Proof.Machine
end

