-- ==== Sys2Proof/Machine/Operands.lean ====
section
/-! DEFINITION. Operand forms: bytes and words of a byte string (10_state.md R22), the register map (R21)
and the targets of host transactions (20_memory.md R51, R55, R56), the regions of a command
(R53, 45_commands.md R194), and the keys, nonce bytes and length block a command uses. -/

namespace Sys2Proof.Machine

/-! ### Byte strings -/

/-- Byte `i` of a byte string (00_scope.md R9, R10). -/
def byteAt {n : Nat} (x : BitVec n) (i : Nat) : Byte := x.extractLsb' (8 * i) 8

/-- The first `n` bytes of a block. -/
def blockBytes (x : Block) (n : Nat) : List Byte := (List.range n).map (byteAt x)

/-- The block of at most 16 bytes, right-filled with zero bytes (R15). -/
def packBlock (bs : List Byte) : Block :=
  bs.foldr (fun b x => (x <<< 8) ||| b.setWidth 128) 0

/-- Word `j` of a register group (10_state.md R22). -/
def wordAt {n : Nat} (g : BitVec n) (j : Nat) : Word := g.extractLsb' (32 * j) 32

/-- The group with word `j` replaced (R22). -/
def setWordAt {n : Nat} (g : BitVec n) (j : Nat) (v : Word) : BitVec n :=
  (g &&& ~~~((0xFFFFFFFF#32).setWidth n <<< (32 * j))) ||| (v.setWidth n <<< (32 * j))

/-! ### The register map -/

/-- The host registers (R21). -/
inductive Reg where
  | id | cap | ctrl | cmd | status | aadOff | aadLen | msgOff | msgLen | outOff
  | nonce (j : Fin 4) | key (j : Fin 8) | hkey (j : Fin 4) | tag (j : Fin 4)
  | result (j : Fin 4) | dkh (j : Fin 4) | dke (j : Fin 8)
deriving DecidableEq, Repr

/-- The map of R21: every mapped offset of the register block. -/
def regMap : List (Nat × Reg) :=
  [(0x000, .id), (0x004, .cap), (0x008, .ctrl), (0x00C, .cmd), (0x010, .status),
   (0x018, .aadOff), (0x01C, .aadLen), (0x020, .msgOff), (0x024, .msgLen), (0x028, .outOff)] ++
  [(0x030, .nonce 0), (0x034, .nonce 1), (0x038, .nonce 2), (0x03C, .nonce 3)] ++
  [(0x040, .key 0), (0x044, .key 1), (0x048, .key 2), (0x04C, .key 3),
   (0x050, .key 4), (0x054, .key 5), (0x058, .key 6), (0x05C, .key 7)] ++
  [(0x060, .hkey 0), (0x064, .hkey 1), (0x068, .hkey 2), (0x06C, .hkey 3)] ++
  [(0x070, .tag 0), (0x074, .tag 1), (0x078, .tag 2), (0x07C, .tag 3)] ++
  [(0x080, .result 0), (0x084, .result 1), (0x088, .result 2), (0x08C, .result 3)] ++
  [(0x090, .dkh 0), (0x094, .dkh 1), (0x098, .dkh 2), (0x09C, .dkh 3)] ++
  [(0x0A0, .dke 0), (0x0A4, .dke 1), (0x0A8, .dke 2), (0x0AC, .dke 3),
   (0x0B0, .dke 4), (0x0B4, .dke 5), (0x0B8, .dke 6), (0x0BC, .dke 7)]

/-- The first register a map gives an offset. -/
def regLookup (a : Nat) : List (Nat × Reg) → Option Reg
  | [] => none
  | (o, r) :: rest => if o = a then some r else regLookup a rest

/-- The register at an offset of the register block. -/
def regAt (a : Nat) : Option Reg := regLookup a regMap

/-- What a host transaction addresses. -/
inductive Target where
  /-- A register (R21). -/
  | reg (r : Reg)
  /-- The word of BUF at this byte offset (20_memory.md R51). -/
  | buf (o : Nat)
  /-- No mapped word: `paddr[1:0] ≠ 00` (R55) or an unmapped offset (R56). -/
  | error
deriving DecidableEq, Repr

/-- Where the buffer window begins (20_memory.md R51). -/
def windowBase : Nat := 0x8000

/-- The target of an offset: alignment first, then the map (R51, R55, R56, 60_exceptions.md R239). -/
def targetOf (p : Params) (a : BitVec 16) : Target :=
  if a.extractLsb' 0 2 ≠ 0 then .error
  else if a.toNat < windowBase then
    match regAt a.toNat with
    | some r => .reg r
    | none => .error
  else if a.toNat - windowBase < p.bufBytes then .buf (a.toNat - windowBase)
  else .error

/-- The registers a read returns while BUSY = 1 (40_host_bus.md R96). -/
def Reg.readableWhileBusy : Reg → Bool
  | .id => true
  | .cap => true
  | .ctrl => true
  | .status => true
  | _ => false

/-! ### Regions -/

/-- A region is valid when it lies in BUF, without wrap-around (R53). -/
def regionValid (p : Params) (off len : Word) : Bool := decide (off.toNat + len.toNat ≤ p.bufBytes)

/-- OUT equals MSG, or is empty, or shares no byte with it (R67; condition 4 of 45_commands.md R194). -/
def outPlacementOk (msgOff outOff len : Word) : Bool :=
  decide (outOff = msgOff ∨ len.toNat = 0 ∨ outOff.toNat + len.toNat ≤ msgOff.toNat ∨
    msgOff.toNat + len.toNat ≤ outOff.toNat)

/-- The region check of ENCRYPT and DECRYPT (R194). -/
def regionCheckAead (s : State) : Bool :=
  regionValid s.params s.aadOff s.aadLen && regionValid s.params s.msgOff s.msgLen &&
    regionValid s.params s.outOff s.msgLen && outPlacementOk s.msgOff s.outOff s.msgLen

/-- The region check of PV_HASH (R194: conditions 1 and 2 only). -/
def regionCheckHash (s : State) : Bool :=
  regionValid s.params s.aadOff s.aadLen && regionValid s.params s.msgOff s.msgLen

/-- The bytes in chunk `i` of a region of `len` bytes (20_memory.md R66). -/
def chunkLen (len i : Nat) : Nat := min 16 (len - 16 * i)

/-- The number of chunks of a region of `len` bytes (00_scope.md R15). -/
def chunkCount (len : Nat) : Nat := (len + 15) / 16

/-! ### Keys, nonce bytes, length block -/

/-- The key in use: the low 16 bytes when KSZ = 0, all 32 when KSZ = 1 (10_state.md R31, 40_host_bus.md R97). -/
def keyInUse (ksz : Bool) (k : Key) : Key := if ksz then k else (k.setWidth 128).setWidth 256

/-- `Nsel` (42_key_derivation.md R131): bytes 0 to 11 under N12, bytes 4 to 15 under N16. -/
def nonceSel (nprof : Bool) (n : Block) : BitVec 96 :=
  if nprof then n.extractLsb' 32 96 else n.extractLsb' 0 96

/-- `KDB(i) = LE32(i) ‖ Nsel` (R131). -/
def kdb (nprof : Bool) (n : Block) (i : Nat) : Block := nonceSel nprof n ++ BitVec.ofNat 32 i

/-- The number of derivation calls: 4 when KSZ = 0, 6 when KSZ = 1 (R132). -/
def kdCalls (ksz : Bool) : Nat := if ksz then 6 else 4

/-- The low 8 bytes `Y[0..7]` of a block (R133). -/
def lowHalf (y : Block) : Half := y.extractLsb' 0 64

/-- HSUB of the halves `Y_0, Y_1, …` (R133). -/
def hsubOf (ys : List Half) : Block := ys.getD 1 0 ++ ys.getD 0 0

/-- ESUB of the halves `Y_0, Y_1, …`, bytes 16 to 31 zero when KSZ = 0 (R133). -/
def esubOf (ksz : Bool) (ys : List Half) : Key :=
  if ksz then (ys.getD 5 0 ++ ys.getD 4 0) ++ (ys.getD 3 0 ++ ys.getD 2 0)
  else (ys.getD 3 0 ++ ys.getD 2 0 : Block).setWidth 256

/-- The nonce bytes XORed into the tag input: 12 under N12, 16 under N16 (43_tag_generator.md R151). -/
def nonceMask (nprof : Bool) (n : Block) : Block :=
  if nprof then n else (n.extractLsb' 0 96).setWidth 128

/-- `LB(a, m) = LE64(8·a) ‖ LE64(8·m)` (41_polyval.md R117). -/
def lengthBlock (a m : Nat) : Block := BitVec.ofNat 64 (8 * m) ++ BitVec.ofNat 64 (8 * a)

end Sys2Proof.Machine
end

