-- ==== Sys2Proof/Machine/Ops.lean ====
section
/-! DEFINITION. The named operations over memory and registers: BUF (20_memory.md R52, R54), register
reads (40_host_bus.md R93), acceptance and completion of a command (45_commands.md R191, R192). GSIV
has no trap (60_exceptions.md R230): completion with an outcome is the one operation every error of a
command goes through. -/

namespace Sys2Proof.Machine

/-- How a step of the machine ends. -/
abbrev Result := Host.Outcome State Fault Refusal

/-! ### The data buffer -/

/-- What an unlisted byte of BUF reads as (log entry 3): the draw of the last reset (10_state.md R41),
or zero after CLEAR (45_commands.md R210). -/
def baseByte : BufBase → Nat → Byte
  | .drawn n, a => Config.bufDraw n a
  | .zero, _ => 0

/-- The listed byte at an offset. -/
def cellsGet : List Host.Cell → Nat → Option Byte
  | [], _ => none
  | (b, v) :: t, a => if b = a then some v else cellsGet t a

/-- The cells with the byte at `a` listed as `v`, offsets strictly rising. -/
def cellsSet : List Host.Cell → Nat → Byte → List Host.Cell
  | [], a, v => [(a, v)]
  | (b, w) :: t, a, v =>
    if a < b then (a, v) :: (b, w) :: t
    else if a = b then (a, v) :: t
    else (b, w) :: cellsSet t a v

/-- The cells without those at `a`. -/
def cellsErase : List Host.Cell → Nat → List Host.Cell
  | [], _ => []
  | (b, w) :: t, a => if b = a then cellsErase t a else (b, w) :: cellsErase t a

/-- `BUF[a]`. -/
def bufGet (m : Buffer) (a : Nat) : Byte :=
  match cellsGet m.cells a with
  | some v => v
  | none => baseByte m.base a

/-- `BUF[a] ← v`. Over a zeroized base a zero byte is not listed; over a drawn base every written byte
is, since no numeral is known to equal the draw (log entry 3). -/
def bufSet (m : Buffer) (a : Nat) (v : Byte) : Buffer :=
  if m.base = .zero ∧ v = 0 then { m with cells := cellsErase m.cells a }
  else { m with cells := cellsSet m.cells a v }

/-- Whether a byte may be listed over a base: a zero byte may not over a zeroized base. -/
def listable (base : BufBase) (v : Byte) : Bool := !(base = .zero && v = 0)

/-- Cells of strictly rising offset, from `lo` up and below `hi`, each listable. -/
def cellsWf (base : BufBase) (lo hi : Nat) : List Host.Cell → Bool
  | [] => true
  | (b, v) :: t => decide (lo ≤ b) && decide (b < hi) && listable base v && cellsWf base (b + 1) hi t

/-- The canonical form of BUF in a buffer of `size` bytes. -/
def Memory.wf (size : Nat) (m : Buffer) : Bool := cellsWf m.base 0 size m.cells

/-- Consecutive bytes written from `a` up. -/
def bufSetBytes (m : Buffer) : Nat → List Byte → Buffer
  | _, [] => m
  | a, v :: vs => bufSetBytes (bufSet m a v) (a + 1) vs

/-- Consecutive bytes read from `a` up. -/
def bufGetBytes (m : Buffer) (a n : Nat) : List Byte := (List.range n).map fun k => bufGet m (a + k)

/-- `MemRead(a, n)` (00_scope.md R12), defined exactly when `a + n ≤ BUF_BYTES` (20_memory.md R52). -/
def memRead (s : State) (a n : Nat) : Option (List Byte) :=
  if a + n ≤ s.params.bufBytes then some (bufGetBytes s.buf a n) else none

/-- `MemWrite(a, n, v)` (R12), defined exactly when `a + n ≤ BUF_BYTES` (R52). -/
def memWrite (s : State) (a : Nat) (vs : List Byte) : Option State :=
  if a + vs.length ≤ s.params.bufBytes then some { s with buf := bufSetBytes s.buf a vs } else none

/-- The little-endian word of BUF at a byte offset (R54). -/
def bufWord (m : Buffer) (o : Nat) : Word :=
  bufGet m (o + 3) ++ (bufGet m (o + 2) ++ (bufGet m (o + 1) ++ bufGet m o))

/-- Byte `k` of `d` written to `BUF[o+k]` when its strobe is set (40_host_bus.md R91). -/
def bufStrobe (m : Buffer) (o : Nat) (strb : BitVec 4) (d : Word) (k : Nat) : Buffer :=
  if strb.getLsbD k then bufSet m (o + k) (byteAt d k) else m

/-- A window write under its strobes (R91, R94). -/
def bufSetWord (m : Buffer) (o : Nat) (strb : BitVec 4) (d : Word) : Buffer :=
  bufStrobe (bufStrobe (bufStrobe (bufStrobe m o strb d 0) o strb d 1) o strb d 2) o strb d 3

/-! ### Register reads -/

/-- CAP (10_state.md R25). -/
def capWord (p : Params) : Word :=
  0x01#8 ++ (0#5 ++ (BitVec.ofBool p.ctrMsb ++ (1#1 ++ (1#1 ++ BitVec.ofNat 16 p.bufBlocks))))

/-- `readval` (40_host_bus.md R93). -/
def readReg (s : State) : Reg → Word
  | .id => 0x56495347
  | .cap => capWord s.params
  | .ctrl => s.ctrl.setWidth 32
  | .cmd => 0
  | .status => s.status.setWidth 32
  | .aadOff => s.aadOff
  | .aadLen => s.aadLen
  | .msgOff => s.msgOff
  | .msgLen => s.msgLen
  | .outOff => s.outOff
  | .nonce j => wordAt s.nonce j
  | .key _ => 0
  | .hkey _ => 0
  | .tag j => wordAt s.tag j
  | .result j => wordAt s.result j
  | .dkh j => wordAt s.dkh j
  | .dke j => wordAt s.dke j

/-! ### Responses and dropped writes -/

/-- The transaction ends with this response. -/
def respond (r : Response) (s : State) : State := { s with resp := r }

/-- A well-formed write while BUSY = 1: dropped, ERR_BUSY set, no error response (R95, 60_exceptions.md R235). -/
def dropWrite (s : State) : State :=
  { s with status := statusBusyWrite s.status, resp := .write false }

/-! ### Acceptance and completion -/

/-- The acceptance steps for command word `d` (45_commands.md R191). -/
def accept (d : BitVec 32) (s : State) : State :=
  { s with
    status := statusAccepted s.status
    result := 0
    dkh := 0
    dke := 0
    opc := d.extractLsb' 0 8
    opF := d.getLsbD 8
    optKsz := s.ksz
    optNprof := s.nprof
    acc := 0
    hsub := 0
    esub := 0
    cb0 := 0
    blk := 0
    tcalc := 0 }

/-- Acceptance of a multi-step command: BUSY ← 1, and its work begins with the next engine turn (R190). -/
def startCommand (d : BitVec 32) (s : State) : State :=
  let a := accept d s
  { a with status := statusBusy a.status, phase := .started }

/-- ENCRYPT, DECRYPT, DERIVE and PV_HASH read a key and zeroize it (R193). -/
def readsKey (opc : BitVec 8) : Bool := opc = 0x01 || opc = 0x02 || opc = 0x03 || opc = 0x04

/-- R193: the completion of a key-reading command zeroizes KEY and HKEY whatever its outcome; an illegal
word is no such command even if its OP field spells one (R211; DEDUCED, log entry 8). -/
def zeroizesKeys (o : CmdOutcome) (opc : BitVec 8) : Bool := o ≠ .illegalCommand && readsKey opc

/-- Completion with an outcome, in one step (R192). -/
def complete (o : CmdOutcome) (s : State) : State :=
  { s with
    acc := 0
    hsub := 0
    esub := 0
    cb0 := 0
    blk := 0
    tcalc := 0
    rt := 0
    key := if zeroizesKeys o s.opc then 0 else s.key
    hkey := if zeroizesKeys o s.opc then 0 else s.hkey
    status := statusCompleted o s.status
    bcReq := none
    phase := .idle }

/-- A command word submitted by a host write to CMD: `k` says what its acceptance does; while BUSY = 1
the write is dropped (R190, 40_host_bus.md R95). -/
def submitWith (k : State → State) (s : State) : Result :=
  if s.busy then .next (dropWrite s) else .next (respond (.write false) (k s))

end Sys2Proof.Machine
end

