-- ==== Sys2Proof/Machine/Polyval.lean ====
section
/-! DEFINITION. The polynomial hash accumulator (41_polyval.md): the field of R110, `gfmul` (R111), `dot`
(R112), POLYVAL (R113), and the unit's micro-steps PV.INIT and PV.ABSORB (R115). -/

namespace Sys2Proof.Machine

/-- `x^128 mod p(x)` (R111), also the neutral element R of `dot` (R114). -/
def gfR : Block := 0xC2000000000000000000000000000001

/-- `x^-128 mod p(x)` (R112). -/
def gfXInv : Block := 0x92040000000000000000000000000001

/-- Multiplication by `x` in the field (the update of `a` in R111's procedure). -/
def mulX (a : Block) : Block := if a.getLsbD 127 then (a <<< 1) ^^^ gfR else a <<< 1

/-- One round of R111's procedure on `(r, a)`, for bit `i` of `b`. -/
def gfRound (b : Block) (ra : Block × Block) (i : Nat) : Block × Block :=
  (if b.getLsbD i then ra.1 ^^^ ra.2 else ra.1, mulX ra.2)

/-- `gfmul(a, b)` (R111). -/
@[irreducible] def gfmul (a b : Block) : Block := ((List.range 128).foldl (gfRound b) (0, a)).1

/-- `dot(a, b) = gfmul(gfmul(a, b), XINV)` (R112). -/
@[irreducible] def dot (a b : Block) : Block := gfmul (gfmul a b) gfXInv

/-- `POLYVAL(H, X_1, …, X_s)` from an accumulator value (R113). -/
def polyvalFrom (h : Block) (acc : Block) (xs : List Block) : Block :=
  xs.foldl (fun s x => dot (s ^^^ x) h) acc

/-- `POLYVAL(H, X_1, …, X_s)` (R113): the accumulator starts at zero. -/
def polyval (h : Block) (xs : List Block) : Block := polyvalFrom h 0 xs

/-- PV.INIT (R115). -/
def pvInit (s : State) : State := { s with acc := 0 }

/-- PV.ABSORB(X) (R115). -/
def pvAbsorb (x : Block) (s : State) : State := { s with acc := dot (s.acc ^^^ x) s.hsub }

/-- PV.ABSORB of chunk `i` of the region `(off, len)`, right-zero-padded (R116, 20_memory.md R66), and the
next position; a fault outside BUF (R52). -/
def absorbChunk (off len i : Nat) (next : Phase) (s : State) : Result :=
  match memRead s (off + 16 * i) (chunkLen len i) with
  | some bs => .next { pvAbsorb (packBlock bs) s with phase := next }
  | none => .fault (.bufferOutOfRange (off + 16 * i) (chunkLen len i))

end Sys2Proof.Machine
end

