-- ==== Sys2Proof/Machine/KeyDerivation.lean ====
section
/-! DEFINITION. The key derivation unit (42_key_derivation.md): KD.STEP (R132, R133), KD.LOAD2 (R135), the
hash-subkey load of PV_HASH, and the outputs of DERIVE (R140). A request to the block-cipher port is presented here and answered in
Machine/Sequencer.lean. -/

namespace Sys2Proof.Machine

/-- Presents a request to the block-cipher port (20_memory.md R58, 40_host_bus.md R98): the key size and
the key are those of the latched KSZ, bytes 16 to 31 zero when it is 0 (R97). -/
def present (key : Key) (block : Block) (s : State) : State :=
  { s with bcReq := some { ksz := s.optKsz, key := keyInUse s.optKsz key, block := block } }

/-- The request of KD.STEP(i): `E(MK, KDB(i))` (R131, R132). -/
def kdPresent (i : Nat) (s : State) : State := present s.key (kdb s.optNprof s.nonce i) s

/-- KD.STEP(i) with its answer: the low half is kept; HSUB is written after step 1 and ESUB after the last
step (R132, R133). -/
def kdStep (i : Nat) (ys : List Half) (y : Block) (s : State) : State :=
  let ys' := ys ++ [lowHalf y]
  { s with
    hsub := if i = 1 then hsubOf ys' else s.hsub
    esub := if i + 1 = kdCalls s.optKsz then esubOf s.optKsz ys' else s.esub
    phase := if i + 1 = kdCalls s.optKsz then .keyed else .derivingKeys (i + 1) ys' }

/-- The hash-subkey load of this unit, the first assignment of KD.LOAD2 (R135): `HSUB <- HKEYbytes[0..15]`. PV_HASH
makes the same assignment (41_polyval.md R120) and makes it here, so that HSUB and ESUB are written by no other unit
(R130; DEDUCED, log entry 15). -/
def kdLoadHash (s : State) : State := { s with hsub := s.hkey }

/-- KD.LOAD2 (R135): the subkeys of the two-key variant. -/
def kdLoad2 (s : State) : State := { kdLoadHash s with esub := keyInUse s.optKsz s.key }

/-- DERIVE's outputs (R140). -/
def deriveOutputs (s : State) : State := { s with dkh := s.hsub, dke := s.esub }

end Sys2Proof.Machine
end

