-- ==== Sys2Proof/Machine/TagGenerator.lean ====
section
/-! DEFINITION. The tag generator (43_tag_generator.md): TG.LEN, TG.XOR, TG.ENC (R150 to R153), and the
constant-time comparison of DECRYPT (45_commands.md R206). -/

namespace Sys2Proof.Machine

/-- A block with bit 127 cleared (R152). -/
def clearBit127 (u : Block) : Block := u &&& 0x7FFFFFFFFFFFFFFFFFFFFFFFFFFFFFFF

/-- The tag input block TIN of the hash result (R151, R152). -/
def tagInput (nprof : Bool) (n s : Block) : Block := clearBit127 (s ^^^ nonceMask nprof n)

/-- TG.LEN (R150): the length block is absorbed, and the hash result taken. -/
def tgLen (s : State) : State :=
  let a := pvAbsorb (lengthBlock s.aadLen.toNat s.msgLen.toNat) s
  { a with phase := .tagging (.xor a.acc) }

/-- TG.XOR (R151, R152). -/
def tgXor (h : Block) (s : State) : State :=
  { s with phase := .tagging (.enc (tagInput s.optNprof s.nonce h)) }

/-- The request of TG.ENC: `E(EK, TIN)` (R153). -/
def tgPresent (tin : Block) (s : State) : State := present s.esub tin s

/-- TG.ENC with its answer: TCALC, then COMPARING in DECRYPT and KEYSTREAM in ENCRYPT (R153, R155,
45_commands.md R200, R204). -/
def tgEnc (y : Block) (s : State) : State :=
  { s with tcalc := y, phase := if s.opc = 0x02 then .comparing else .keystream .init }

/-- `ct_equal` (45_commands.md R206): the OR of the differences of all 16 bytes is zero. -/
def ctEqual (x y : Block) : Bool :=
  (List.range 16).foldl (fun d j => d ||| (byteAt x j ^^^ byteAt y j)) 0 = (0 : Byte)

end Sys2Proof.Machine
end

