-- ==== Sys2Proof/Machine/Keystream.lean ====
section
/-! DEFINITION. The counter-mode keystream engine (44_ctr_keystream.md): CTR.INIT (R170), the counter blocks
(R171), the requests (R172) and CTR.BLOCK (R173) in both passes. -/

namespace Sys2Proof.Machine

/-- The initial counter block of a tag: bit 127 replaced by CTR_MSB (R170). -/
def ctrBlock0 (msb : Bool) (t : Block) : Block :=
  clearBit127 t ||| (if msb then 0x80000000000000000000000000000000 else 0)

/-- `CB(i)`: bytes 0 to 3 plus `i` modulo 2^32, bytes 4 to 15 unchanged (R171). -/
def counterBlock (cb0 : Block) (i : Nat) : Block :=
  cb0.extractLsb' 32 96 ++ (cb0.extractLsb' 0 32 + BitVec.ofNat 32 i)

/-- CTR.INIT(T) (R170). -/
def ctrInit (t : Block) (s : State) : State :=
  { s with cb0 := ctrBlock0 s.params.ctrMsb t, blk := 0 }

/-- The request of CTR.BLOCK: `E(EK, CB(BLK))` (R172). -/
def ctrPresent (s : State) : State := present s.esub (counterBlock s.cb0 s.blk.toNat) s

/-- A chunk of data XORed with the first bytes of a keystream block (R173). -/
def xorChunk (d : List Byte) (k : Block) : List Byte := List.zipWith (· ^^^ ·) d (blockBytes k d.length)

/-- CTR.BLOCK in DEC_PASS1 with its answer: the candidate chunk stays in the datapath, to be absorbed next
(R173, 45_commands.md R204). -/
def ctrPass1 (k : Block) (s : State) : Result :=
  match memRead s (s.msgOff.toNat + 16 * s.blk.toNat) (chunkLen s.msgLen.toNat s.blk.toNat) with
  | some d => .next { s with blk := s.blk + 1, phase := .decPass1 (.absorb (packBlock (xorChunk d k))) }
  | none =>
    .fault (.bufferOutOfRange (s.msgOff.toNat + 16 * s.blk.toNat) (chunkLen s.msgLen.toNat s.blk.toNat))

/-- CTR.BLOCK in KEYSTREAM with its answer: MSG chunk BLK is read and OUT chunk BLK written (R173,
20_memory.md R66). -/
def ctrWrite (k : Block) (s : State) : Result :=
  match memRead s (s.msgOff.toNat + 16 * s.blk.toNat) (chunkLen s.msgLen.toNat s.blk.toNat) with
  | some d =>
    match memWrite s (s.outOff.toNat + 16 * s.blk.toNat) (xorChunk d k) with
    | some s' => .next { s' with blk := s.blk + 1 }
    | none => .fault (.bufferOutOfRange (s.outOff.toNat + 16 * s.blk.toNat) d.length)
  | none =>
    .fault (.bufferOutOfRange (s.msgOff.toNat + 16 * s.blk.toNat) (chunkLen s.msgLen.toNat s.blk.toNat))

end Sys2Proof.Machine
end

