-- ==== Sys2Proof/Machine/Sequencer.lean ====
section
/-! DEFINITION. The sequencer (45_commands.md): one micro-step of the command in progress, and the
block-cipher port's answer to its request (40_host_bus.md R98, R99). Which phase follows which is
the pseudocode of ENCRYPT (R200), DECRYPT (R204), DERIVE (42_key_derivation.md R140), PV_HASH
(41_polyval.md R120) and CLEAR (R210). How the work is cut into micro-steps is log entry 11's. -/

namespace Sys2Proof.Machine

/-- The region check and the subkey set-up's choice for ENCRYPT and DECRYPT (R194, R195). -/
def startAead (s : State) : State :=
  if regionCheckAead s then
    if s.opF then { kdLoad2 s with phase := .keyed } else { s with phase := .derivingKeys 0 [] }
  else complete .invalidInputLength s

/-- The region check of PV_HASH, and its key, loaded by the key derivation unit (41_polyval.md R120; log entry 15). -/
def startHash (s : State) : State :=
  if regionCheckHash s then { kdLoadHash s with phase := .keyed }
  else complete .invalidInputLength s

/-- The first micro-step of an accepted command, by its operation code. No other code is ever started
(45_commands.md R190). -/
def startStep (s : State) : State :=
  if s.opc = 0x01 then startAead s
  else if s.opc = 0x02 then startAead s
  else if s.opc = 0x03 then { s with phase := .derivingKeys 0 [] }
  else if s.opc = 0x04 then startHash s
  else if s.opc = 0x0F then { s with phase := .clearing }
  else complete .illegalCommand s

/-- With the subkeys in place: DERIVE hands them out and completes (42_key_derivation.md R140); the others start the
hash, DECRYPT taking the received tag (R204, R205). -/
def keyedStep (s : State) : State :=
  if s.opc = 0x03 then complete .ok (deriveOutputs s)
  else { pvInit s with rt := if s.opc = 0x02 then s.tag else s.rt, phase := .hashingAad 0 }

/-- HASHING_AAD: the next chunk, or the next phase (R200, R204, 41_polyval.md R120). -/
def hashAadStep (i : Nat) (s : State) : Result :=
  if 16 * i < s.aadLen.toNat then
    absorbChunk s.aadOff.toNat s.aadLen.toNat i (.hashingAad (i + 1)) s
  else .next { s with phase := if s.opc = 0x02 then .decPass1 .init else .hashingMsg 0 }

/-- After the message: TAGGING, or in PV_HASH the length block when L = 1 and then the result (41_polyval.md R120). -/
def hashMsgEnd (s : State) : State :=
  if s.opc = 0x04 then
    if s.opF then { pvAbsorb (lengthBlock s.aadLen.toNat s.msgLen.toNat) s with phase := .hashed }
    else { s with phase := .hashed }
  else { s with phase := .tagging .len }

/-- HASHING_MSG: the next chunk, or what follows. -/
def hashMsgStep (i : Nat) (s : State) : Result :=
  if 16 * i < s.msgLen.toNat then
    absorbChunk s.msgOff.toNat s.msgLen.toNat i (.hashingMsg (i + 1)) s
  else .next (hashMsgEnd s)

/-- PV_HASH writes RESULT and completes (41_polyval.md R120). -/
def hashedStep (s : State) : State := complete .ok { s with result := s.acc }

/-- DEC_PASS1 without an answer to take: CTR.INIT with the received tag, the next request, the absorption
of the candidate chunk, or TAGGING (R204). -/
def decPass1Step (c : CtrStep) (s : State) : State :=
  match c with
  | .init => { ctrInit s.rt s with phase := .decPass1 .block }
  | .absorb x => { pvAbsorb x s with phase := .decPass1 .block }
  | .block =>
    if 16 * s.blk.toNat < s.msgLen.toNat then ctrPresent s else { s with phase := .tagging .len }

/-- TAGGING without an answer to take (43_tag_generator.md R150 to R153). -/
def taggingStep (t : TagStep) (s : State) : State :=
  match t with
  | .len => tgLen s
  | .xor h => tgXor h s
  | .enc tin => tgPresent tin s

/-- COMPARING: Verified goes on to KEYSTREAM, a mismatch completes (R204, R206, R208). -/
def compareStep (s : State) : State :=
  if ctEqual s.tcalc s.rt then { s with phase := .keystream .init }
  else complete .authenticationFailure s

/-- The end of KEYSTREAM: DECRYPT completes as Verified (R207); ENCRYPT writes TAG and completes (R201). -/
def keystreamEnd (s : State) : State :=
  if s.opc = 0x02 then complete .verified s else complete .ok { s with tag := s.tcalc }

/-- KEYSTREAM without an answer to take: CTR.INIT with the received tag in DECRYPT and the computed tag in
ENCRYPT (44_ctr_keystream.md R170), the next request, or the end. -/
def keystreamStep (c : CtrStep) (s : State) : State :=
  match c with
  | .init => { ctrInit (if s.opc = 0x02 then s.rt else s.tcalc) s with phase := .keystream .block }
  | .block => if 16 * s.blk.toNat < s.msgLen.toNat then ctrPresent s else keystreamEnd s
  | .absorb _ => { s with phase := .keystream .block }

/-- CLEAR's work (R210): keys, tag, results and every byte of BUF are zeroized. -/
def clearAll (s : State) : State :=
  { s with
    key := 0
    hkey := 0
    tag := 0
    result := 0
    dkh := 0
    dke := 0
    buf := { base := .zero, cells := [] } }

/-- One micro-step of the sequencer, when no request is outstanding (R190, R99). -/
def sequencerStep (s : State) : Result :=
  match s.phase with
  | .idle => .next s
  | .started => .next (startStep s)
  | .derivingKeys i _ => .next (kdPresent i s)
  | .keyed => .next (keyedStep s)
  | .hashingAad i => hashAadStep i s
  | .hashingMsg i => hashMsgStep i s
  | .hashed => .next (hashedStep s)
  | .decPass1 c => .next (decPass1Step c s)
  | .tagging t => .next (taggingStep t s)
  | .comparing => .next (compareStep s)
  | .keystream c => .next (keystreamStep c s)
  | .clearing => .next (complete .ok (clearAll s))

/-- The answer to a request of DEC_PASS1 (R204); none is outstanding at the other positions. -/
def answerPass1 (c : CtrStep) (y : Block) (s : State) : Result :=
  match c with
  | .init => .next s
  | .block => ctrPass1 y s
  | .absorb _ => .next s

/-- The answer to a request of TAGGING (43_tag_generator.md R153); none is outstanding at the other positions. -/
def answerTagging (t : TagStep) (y : Block) (s : State) : Result :=
  match t with
  | .len => .next s
  | .xor _ => .next s
  | .enc _ => .next (tgEnc y s)

/-- The answer to a request of KEYSTREAM (R200, R204); none is outstanding at the other positions. -/
def answerKeystream (c : CtrStep) (y : Block) (s : State) : Result :=
  match c with
  | .init => .next s
  | .block => ctrWrite y s
  | .absorb _ => .next s

/-- The sequencer takes the answer block of its request, by the phase that made it. In a phase that makes no
request none is outstanding (Safety.lean, Inv.request_fits), and nothing would happen. -/
def takeAnswer (y : Block) (s : State) : Result :=
  match s.phase with
  | .idle => .next s
  | .started => .next s
  | .derivingKeys i ys => .next (kdStep i ys y s)
  | .keyed => .next s
  | .hashingAad _ => .next s
  | .hashingMsg _ => .next s
  | .hashed => .next s
  | .decPass1 c => answerPass1 c y s
  | .tagging t => answerTagging t y s
  | .comparing => .next s
  | .keystream c => answerKeystream c y s
  | .clearing => .next s

/-- BlockFail for the next call (00_scope.md R6, 20_memory.md R59): the draw already made for it, or else the
free value. -/
def nextFails (s : State) : Bool :=
  match s.answers with
  | b :: _ => b
  | [] => Config.blockFail s.calls

/-- The request is withdrawn and its call counted. -/
def endCall (s : State) : State :=
  { s with bcReq := none, answers := s.answers.tail, calls := s.calls + 1 }

/-- The port's answer to a request (R59, 40_host_bus.md R98): `BlockEncrypt(k, b)`, or FAIL, which ends the
command with PrimitiveFailure (00_scope.md R13, 60_exceptions.md R233). -/
def portAnswer (r : BcRequest) (s : State) : Result :=
  if nextFails s then .next (complete .primitiveFailure (endCall s))
  else takeAnswer (Config.blockEncrypt r.ksz r.key r.block) (endCall s)

/-- The engine's turn: the port answers an outstanding request, and otherwise the sequencer makes one
micro-step (R99). In reset nothing moves (70_reset_and_hazards.md R260). -/
def engineTurn (s : State) : Result :=
  if s.rstN then
    match s.bcReq with
    | some r => portAnswer r s
    | none => sequencerStep s
  else .next s

end Sys2Proof.Machine
end

