-- ==== Sys2Proof/Machine/Commands.lean ====
section
/-! DEFINITION. The meanings of the command words (45_commands.md): what the host's write of the word to CMD
does. NOP and an illegal word complete in the same step; every other command is accepted, sets BUSY
and is run by the sequencer's micro-steps (R190; Machine/Sequencer.lean). -/

namespace Sys2Proof.Machine

/-- NOP (R209): acceptance, and completion with outcome OK in the same step. -/
def execNop (s : State) : Result := submitWith (fun s => complete .ok (accept (commandWord 0x00 false) s)) s

/-- ENCRYPT (R200). -/
def execEncrypt (twoKey : Bool) (s : State) : Result := submitWith (startCommand (commandWord 0x01 twoKey)) s

/-- DECRYPT (R204). -/
def execDecrypt (twoKey : Bool) (s : State) : Result := submitWith (startCommand (commandWord 0x02 twoKey)) s

/-- DERIVE (42_key_derivation.md R140). -/
def execDerive (s : State) : Result := submitWith (startCommand (commandWord 0x03 false)) s

/-- PV_HASH (41_polyval.md R120). -/
def execPvHash (withLength : Bool) (s : State) : Result :=
  submitWith (startCommand (commandWord 0x04 withLength)) s

/-- CLEAR (R210). -/
def execClear (s : State) : Result := submitWith (startCommand (commandWord 0x0F false)) s

/-- An illegal command word (30_encoding.md R73): accepted, and completed at once with IllegalCommand (R211). -/
def illegalCommand (d : BitVec 32) (s : State) : Result :=
  submitWith (fun s => complete .illegalCommand (accept d s)) s

/-- A command word written to CMD (10_state.md R27, R190): decoded by R71 and R73, and run. A command word
never spells a host transaction. -/
def submitCommand (d : BitVec 32) (s : State) : Result :=
  match decodeCommand d with
  | .ok .nop => execNop s
  | .ok (.encrypt f) => execEncrypt f s
  | .ok (.decrypt f) => execDecrypt f s
  | .ok .derive => execDerive s
  | .ok (.pvHash l) => execPvHash l s
  | .ok .clear => execClear s
  | .ok (.rd _ _ _) => illegalCommand d s
  | .ok (.wr _ _ _) => illegalCommand d s
  | .error _ => illegalCommand d s

end Sys2Proof.Machine
end

