-- ==== Sys2Proof/Machine/Bus.lean ====
section
/-! DEFINITION. The two host transactions (40_host_bus.md): RD (R90) and WR (R91 to R96). -/

namespace Sys2Proof.Machine

/-- What a read returns (R90, R96). -/
def readTarget (s : State) : Target → Response
  | .error => .read 0 true
  | .reg r => .read (if s.busy && !r.readableWhileBusy then 0 else readReg s r) false
  | .buf o => .read (if s.busy then 0 else bufWord s.buf o) false

/-- RD (R90): STRB and DATA of the word are ignored (30_encoding.md R75); no state changes but the
response (20_memory.md R57). -/
def execRd (addr : BitVec 16) (_strb : BitVec 4) (_data : Word) (s : State) : Result :=
  .next (respond (readTarget s (targetOf s.params addr)) s)

/-- The bus error response of a write: nothing else changes (60_exceptions.md R236). -/
def writeError (s : State) : State := respond (.write true) s

/-- A register write's effect on the stored registers, with BUSY = 0 and all strobes (R92). CMD keeps no value
(10_state.md R27); its effect is `submitCommand`. -/
def writeReg (d : Word) (s : State) : Reg → State
  | .id => s
  | .cap => s
  | .ctrl => { s with ctrl := d.extractLsb' 0 3 }
  | .cmd => s
  | .status => { s with status := statusW1C s.status d }
  | .aadOff => { s with aadOff := d }
  | .aadLen => { s with aadLen := d }
  | .msgOff => { s with msgOff := d }
  | .msgLen => { s with msgLen := d }
  | .outOff => { s with outOff := d }
  | .nonce j => { s with nonce := setWordAt s.nonce j d }
  | .key j => { s with key := setWordAt s.key j d }
  | .hkey j => { s with hkey := setWordAt s.hkey j d }
  | .tag j => { s with tag := setWordAt s.tag j d }
  | .result _ => s
  | .dkh _ => s
  | .dke _ => s

/-- A register write with BUSY = 0 and all strobes (R91, R92). -/
def writeEffect (r : Reg) (d : Word) (s : State) : Result :=
  if r = .cmd then submitCommand d s else .next (respond (.write false) (writeReg d s r))

/-- A window write with BUSY = 0 (R94). -/
def writeBuf (o : Nat) (strb : BitVec 4) (d : Word) (s : State) : State :=
  respond (.write false) { s with buf := bufSetWord s.buf o strb d }

/-- WR (R91): alignment and map, then the strobe rule, then BUSY, then the effect (60_exceptions.md R239). -/
def execWr (addr : BitVec 16) (strb : BitVec 4) (data : Word) (s : State) : Result :=
  match targetOf s.params addr with
  | .error => .next (writeError s)
  | .reg r =>
    if strb ≠ 0xF then .next (writeError s)
    else if s.busy then .next (dropWrite s)
    else writeEffect r data s
  | .buf o => if s.busy then .next (dropWrite s) else .next (writeBuf o strb data s)

end Sys2Proof.Machine
end

