-- ==== Sys2Proof/Machine/Dispatch.lean ====
section
/-! DEFINITION. One arm per instruction of the opcode table, each a direct call of its meaning. -/

namespace Sys2Proof.Machine

def exec (i : Instr) (s : State) : Host.Outcome State Fault Refusal :=
  match i with
  | .nop => Sys2Proof.Machine.execNop s
  | .encrypt twoKey => Sys2Proof.Machine.execEncrypt twoKey s
  | .decrypt twoKey => Sys2Proof.Machine.execDecrypt twoKey s
  | .derive => Sys2Proof.Machine.execDerive s
  | .pvHash withLength => Sys2Proof.Machine.execPvHash withLength s
  | .clear => Sys2Proof.Machine.execClear s
  | .rd addr strb data => Sys2Proof.Machine.execRd addr strb data s
  | .wr addr strb data => Sys2Proof.Machine.execWr addr strb data s

end Sys2Proof.Machine
end

