-- ==== Sys2Proof/Machine/Turns.lean ====
section
/-! DEFINITION. The turns of the agenda (40_host_bus.md R99): the host's transaction, the engine, and the
reset input (70_reset_and_hazards.md R260, R261). -/

namespace Sys2Proof.Machine

/-- The host's turn: its transaction word is decoded and executed. In reset a transaction "has no defined
result" (R260), so the model has no next state for it (93_implementation_defined.md U2). -/
def hostTurn (ht : BitVec 53) (s : State) : Result :=
  if s.rstN then exec (decodeTransaction ht) s else .refused .transactionInReset

/-- `rst_n` falls (R260, R261): every register, hidden register and the request take their reset values, a
command in progress is abandoned, and BUF is drawn anew (10_state.md R41). The parameters, the agenda and
the counters of the free values are no registers and stay. While `rst_n` is already 0 nothing changes. -/
def enterReset (s : State) : State :=
  if s.rstN then
    { State.reset with
      params := s.params
      rstN := false
      buf := { base := .drawn (s.resets + 1), cells := [] }
      turns := s.turns
      answers := s.answers
      calls := s.calls
      resets := s.resets + 1 }
  else s

/-- `rst_n` is back at 1 (R260). -/
def leaveReset (s : State) : State := { s with rstN := true }

/-- One turn. -/
def takeTurn (t : Turn) (s : State) : Result :=
  match t with
  | .host ht => hostTurn ht s
  | .engine => engineTurn s
  | .resetLow => .next (enterReset s)
  | .resetHigh => .next (leaveReset s)

/-- The host transaction word by which the host issues a table row's bits: a command word as the data of
`WR CMD` (30_encoding.md R78), a transaction word as it is. -/
def transactionOfTable (nbits w : Nat) : BitVec 53 :=
  match formatOfBits nbits with
  | .command => transactionWord true 0x000C 0xF (BitVec.ofNat 32 w)
  | .transaction => BitVec.ofNat 53 w

end Sys2Proof.Machine
end

