-- ==== Sys2Proof/Machine/Step.lean ====
section
/-! DEFINITION. One step of the machine: the agenda's next turn, or the engine's turn when the agenda is
empty (log entry 1). -/

namespace Sys2Proof.Machine

/-- One step. -/
def step (s : State) : Host.Outcome State Fault Refusal :=
  match s.turns with
  | [] => engineTurn s
  | t :: rest => takeTurn t { s with turns := rest }

/-- The state whose next step is the host's issue of this table row's instruction. -/
def State.withFetchWord (s : State) (nbits w : Nat) : State :=
  { s with rstN := true, turns := .host (transactionOfTable nbits w) :: s.turns }

end Sys2Proof.Machine
end

