-- ==== Sys2Proof/Machine/Functional.lean ====
section
/-! DEFINITION. The pure functions of the spec, when no block-cipher call fails: `derive`
(42_key_derivation.md R134), `computeTag` (43_tag_generator.md R154), `ctrApply` (44_ctr_keystream.md R174),
`Enc` and `Dec` (45_commands.md R212), and the numbers of block-cipher calls (70_reset_and_hazards.md R281)
and of the model's micro-steps of a command. Claims are stated in their terms; the machine does not
use them. -/

namespace Sys2Proof.Machine

/-- Chunk `i` of a byte string (00_scope.md, glossary). -/
def chunkOf (bs : List Byte) (i : Nat) : List Byte := (bs.drop (16 * i)).take 16

/-- `pad16` (R15). -/
def pad16 (bs : List Byte) : List Block := (List.range (chunkCount bs.length)).map fun i => packBlock (chunkOf bs i)

/-- The halves `Y_i[0..7]` of the derivation calls (R132, R133). -/
def kdHalves (ksz nprof : Bool) (mk : Key) (n : Block) (count : Nat) : List Half :=
  (List.range count).map fun i => lowHalf (Config.blockEncrypt ksz (keyInUse ksz mk) (kdb nprof n i))

/-- `derive(MK, N, ksz, nprof)` (R134): the hash subkey and the encryption subkey. -/
def deriveKeys (ksz nprof : Bool) (mk : Key) (n : Block) : Block × Key :=
  (hsubOf (kdHalves ksz nprof mk n (kdCalls ksz)), esubOf ksz (kdHalves ksz nprof mk n (kdCalls ksz)))

/-- The subkeys of a variant (45_commands.md R195). -/
def subkeys (twoKey ksz nprof : Bool) (hkey : Block) (key : Key) (n : Block) : Block × Key :=
  if twoKey then (hkey, keyInUse ksz key) else deriveKeys ksz nprof key n

/-- `computeTag(S, N, EK, nprof)` (R154). -/
def computeTag (ksz nprof : Bool) (s n : Block) (ek : Key) : Block :=
  Config.blockEncrypt ksz (keyInUse ksz ek) (tagInput nprof n s)

/-- The keystream block of index `i` (44_ctr_keystream.md R172). -/
def keystreamBlock (msb ksz : Bool) (t : Block) (ek : Key) (i : Nat) : Block :=
  Config.blockEncrypt ksz (keyInUse ksz ek) (counterBlock (ctrBlock0 msb t) i)

/-- `ctrApply(T, EK, D)` (R174). -/
def ctrApply (msb ksz : Bool) (t : Block) (ek : Key) (d : List Byte) : List Byte :=
  (List.range (chunkCount d.length)).flatMap fun i => xorChunk (chunkOf d i) (keystreamBlock msb ksz t ek i)

/-- The hash `S` of an AEAD command (41_polyval.md R118). -/
def aeadHash (h : Block) (a p : List Byte) : Block :=
  polyval h (pad16 a ++ pad16 p ++ [lengthBlock a.length p.length])

/-- `Enc(H, EK, N, A, P)` (R212): the ciphertext and the tag. -/
def encFn (msb ksz nprof : Bool) (h : Block) (ek : Key) (n : Block) (a p : List Byte) : List Byte × Block :=
  let t := computeTag ksz nprof (aeadHash h a p) n ek
  (ctrApply msb ksz t ek p, t)

/-- `Dec(H, EK, N, A, C, T)` (R212): the plaintext, or AuthenticationFailure. -/
def decFn (msb ksz nprof : Bool) (h : Block) (ek : Key) (n : Block) (a c : List Byte) (t : Block) :
    Option (List Byte) :=
  let p := ctrApply msb ksz t ek c
  if ctEqual (computeTag ksz nprof (aeadHash h a p) n ek) t then some p else none

/-- The AAD of a command: the bytes of its region (10_state.md R29). -/
def aadBytes (s : State) : List Byte := bufGetBytes s.buf s.aadOff.toNat s.aadLen.toNat

/-- The message of a command. -/
def msgBytes (s : State) : List Byte := bufGetBytes s.buf s.msgOff.toNat s.msgLen.toNat

/-- The subkeys a command submitted in this state uses. -/
def cmdSubkeys (twoKey : Bool) (s : State) : Block × Key :=
  subkeys twoKey s.ksz s.nprof s.hkey s.key s.nonce

/-- `Enc` of the inputs of an ENCRYPT submitted in this state. -/
def encResult (twoKey : Bool) (s : State) : List Byte × Block :=
  encFn s.params.ctrMsb s.ksz s.nprof (cmdSubkeys twoKey s).1 (cmdSubkeys twoKey s).2 s.nonce (aadBytes s)
    (msgBytes s)

/-- `Dec` of the inputs of a DECRYPT submitted in this state. -/
def decResult (twoKey : Bool) (s : State) : Option (List Byte) :=
  decFn s.params.ctrMsb s.ksz s.nprof (cmdSubkeys twoKey s).1 (cmdSubkeys twoKey s).2 s.nonce (aadBytes s)
    (msgBytes s) s.tag

/-- POLYVAL of the inputs of a PV_HASH submitted in this state (41_polyval.md R120). -/
def hashResult (withLength : Bool) (s : State) : Block :=
  polyval s.hkey (pad16 (aadBytes s) ++ pad16 (msgBytes s) ++
    if withLength then [lengthBlock s.aadLen.toNat s.msgLen.toNat] else [])

/-! ### Numbers of calls and of micro-steps -/

/-- `n_kd` (45_commands.md R202). -/
def keyCalls (twoKey ksz : Bool) : Nat := if twoKey then 0 else kdCalls ksz

/-- Block-cipher calls of an ENCRYPT that meets no FAIL (70_reset_and_hazards.md R281). -/
def encryptCalls (twoKey ksz : Bool) (msgLen : Nat) : Nat := keyCalls twoKey ksz + 1 + chunkCount msgLen

/-- Block-cipher calls of a DECRYPT that meets no FAIL (R281). -/
def decryptCalls (twoKey ksz verified : Bool) (msgLen : Nat) : Nat :=
  keyCalls twoKey ksz + chunkCount msgLen + 1 + if verified then chunkCount msgLen else 0

/-- Micro-steps from acceptance to the hash: the checks, two steps a derivation call, PV.INIT. -/
def setupSteps (twoKey ksz : Bool) : Nat := 1 + 2 * keyCalls twoKey ksz + 1

/-- Micro-steps of an ENCRYPT after its acceptance. -/
def encryptSteps (twoKey ksz : Bool) (aadLen msgLen : Nat) : Nat :=
  setupSteps twoKey ksz + (chunkCount aadLen + 1) + (chunkCount msgLen + 1) + 4 + (2 * chunkCount msgLen + 2)

/-- Micro-steps of a DECRYPT after its acceptance. -/
def decryptSteps (twoKey ksz verified : Bool) (aadLen msgLen : Nat) : Nat :=
  setupSteps twoKey ksz + (chunkCount aadLen + 1) + (3 * chunkCount msgLen + 2) + 4 + 1 +
    if verified then 2 * chunkCount msgLen + 2 else 0

/-- Micro-steps of a DERIVE after its acceptance. -/
def deriveSteps (ksz : Bool) : Nat := setupSteps false ksz

/-- Micro-steps of a PV_HASH after its acceptance. -/
def hashSteps (aadLen msgLen : Nat) : Nat := 2 + (chunkCount aadLen + 1) + (chunkCount msgLen + 1) + 1

end Sys2Proof.Machine
end

