-- ==== Sys2Proof/Safety.lean ====
section
/-! DEFINITION. What counts as a safe state and a safe run, in the terms the claims use: the invariant of the
machine, the premise that no block-cipher call fails, and what two runs may not tell apart. -/

namespace Sys2Proof.Machine

/-- The operation codes of the multi-step commands (30_encoding.md R71, 45_commands.md R190). -/
def multiStep (opc : BitVec 8) : Bool :=
  opc = 0x01 || opc = 0x02 || opc = 0x03 || opc = 0x04 || opc = 0x0F

/-- The positions of KEYSTREAM: it absorbs nothing. -/
def keystreamPosition : CtrStep → Bool
  | .init => true
  | .block => true
  | .absorb _ => false

/-- Which command a phase belongs to (10_state.md R37, "used by"), and the positions a command takes in it: for an
operation code, an F bit, a latched KSZ. -/
def phaseOf (opc : BitVec 8) (opF ksz : Bool) (p : Phase) : Bool :=
  match p with
  | .idle => true
  | .started => multiStep opc
  | .derivingKeys i ys =>
    ((opc = 0x01 || opc = 0x02) && !opF || opc = 0x03) && decide (i < kdCalls ksz) && decide (ys.length = i)
  | .keyed => readsKey opc
  | .hashingAad _ => opc = 0x01 || opc = 0x02 || opc = 0x04
  | .hashingMsg _ => opc = 0x01 || opc = 0x04
  | .hashed => opc = 0x04
  | .decPass1 _ => opc = 0x02
  | .tagging _ => opc = 0x01 || opc = 0x02
  | .comparing => opc = 0x02
  | .keystream c => (opc = 0x01 || opc = 0x02) && keystreamPosition c
  | .clearing => opc = 0x0F

/-- The phase is one the command in progress uses. -/
def phaseFits (s : State) : Bool := phaseOf s.opc s.opF s.optKsz s.phase

/-- The region check of the command in progress (45_commands.md R194), for the commands that have one. -/
def regionsFit (s : State) : Bool :=
  if s.opc = 0x01 || s.opc = 0x02 then regionCheckAead s
  else if s.opc = 0x04 then regionCheckHash s
  else true

/-- The request of a keystream position: `E(EK, CB(BLK))` while a chunk is left (44_ctr_keystream.md R172). -/
def requestOfCtr (c : CtrStep) (s : State) : Option (Key × Block) :=
  match c with
  | .init => none
  | .block =>
    if 16 * s.blk.toNat < s.msgLen.toNat then some (s.esub, counterBlock s.cb0 s.blk.toNat) else none
  | .absorb _ => none

/-- The request of a position of the tag generator: `E(EK, TIN)` (43_tag_generator.md R153). -/
def requestOfTag (t : TagStep) (s : State) : Option (Key × Block) :=
  match t with
  | .len => none
  | .xor _ => none
  | .enc tin => some (s.esub, tin)

/-- The key and the block of the request the phase makes, if it makes one. -/
def requestOf (s : State) : Option (Key × Block) :=
  match s.phase with
  | .idle => none
  | .started => none
  | .derivingKeys i _ => some (s.key, kdb s.optNprof s.nonce i)
  | .keyed => none
  | .hashingAad _ => none
  | .hashingMsg _ => none
  | .hashed => none
  | .decPass1 c => requestOfCtr c s
  | .tagging t => requestOfTag t s
  | .comparing => none
  | .keystream c => requestOfCtr c s
  | .clearing => none

/-- The request as the port sees it (40_host_bus.md R97). -/
def wantedRequest (s : State) : Option BcRequest :=
  (requestOf s).map fun kb => { ksz := s.optKsz, key := keyInUse s.optKsz kb.1, block := kb.2 }

/-- The hidden registers are all zero (10_state.md R40). -/
def HiddenZero (s : State) : Prop :=
  s.acc = 0 ∧ s.hsub = 0 ∧ s.esub = 0 ∧ s.cb0 = 0 ∧ s.blk = 0 ∧ s.tcalc = 0 ∧ s.rt = 0

/-- The invariant of the machine. -/
structure Inv (s : State) : Prop where
  /-- The parameters are in the ranges of 00_scope.md R6. -/
  params_wf : s.params.wf = true
  /-- BUF is in canonical form. -/
  buf_wf : Memory.wf s.params.bufBytes s.buf = true
  /-- PHASE is IDLE exactly when STATUS.BUSY = 0 (10_state.md R37). -/
  busy_iff : s.busy = true ↔ s.phase ≠ .idle
  /-- In reset no command is in progress (70_reset_and_hazards.md R260). -/
  reset_idle : s.rstN = false → s.phase = .idle
  /-- No hidden value survives a command (45_commands.md R192). -/
  idle_zero : s.phase = .idle → HiddenZero s
  /-- The phase is one of the command in progress (R37). -/
  phase_fits : phaseFits s = true
  /-- The regions in use were checked (R194). -/
  regions_fit : s.phase ≠ .idle → s.phase ≠ .started → regionsFit s = true
  /-- An outstanding request is the one the phase makes (20_memory.md R58). -/
  request_fits : s.bcReq = none ∨ s.bcReq = wantedRequest s
  /-- DONE = 1 only while BUSY = 0 (60_exceptions.md R242). -/
  done_idle : s.done = true → s.busy = false
  /-- While a command runs no outcome bit is set (R191, R192). -/
  busy_no_outcome : s.busy = true → s.outcomeBits = 0
  /-- At most one outcome bit is set (R192). -/
  one_outcome : s.outcomeBits = 0 ∨ s.outcomeBits = 1 ∨ s.outcomeBits = 2 ∨ s.outcomeBits = 4 ∨
    s.outcomeBits = 8 ∨ s.outcomeBits = 16
  /-- With KSZ = 0 the encryption subkey has 16 bytes (R36). -/
  esub_short : s.optKsz = false → s.esub.extractLsb' 128 128 = 0
  /-- With KSZ = 0, DKE4 to DKE7 read 0 (R35). -/
  dke_short : s.optKsz = false → s.dke.extractLsb' 128 128 = 0
  /-- DECRYPT is in KEYSTREAM only with a computed tag equal to the received one (45_commands.md R204, R213). -/
  release_verified : s.opc = 0x02 → (∃ c, s.phase = .keystream c) → s.tcalc = s.rt

/-- The draw of the `k`-th block-cipher call from here (00_scope.md R6): one already made, or the free value. -/
def drawAt (s : State) (k : Nat) : Bool := s.answers.getD k (Config.blockFail (s.calls + k))

/-- "No call returned FAIL" (20_memory.md R59), for the next `n` calls. -/
def NoFail (s : State) (n : Nat) : Prop := ∀ k, k < n → drawAt s k = false

/-- A command can be submitted and then run undisturbed: out of reset, BUSY = 0, and nothing but the engine moves
next. -/
def Ready (s : State) : Prop := s.rstN = true ∧ s.busy = false ∧ s.bcReq = none ∧ s.turns = []

/-- The host-visible registers no command changes (10_state.md section 9): CTRL, the region registers, NONCE. -/
def SameInputs (s t : State) : Prop :=
  t.ctrl = s.ctrl ∧ t.aadOff = s.aadOff ∧ t.aadLen = s.aadLen ∧ t.msgOff = s.msgOff ∧ t.msgLen = s.msgLen ∧
    t.outOff = s.outOff ∧ t.nonce = s.nonce

/-- The secret and hidden state a host may not read directly: KEY, HKEY (10_state.md R31, R32) and the hidden
registers (R36, R37). -/
def SameButSecret (s t : State) : Prop :=
  t = { s with
    key := t.key
    hkey := t.hkey
    acc := t.acc
    hsub := t.hsub
    esub := t.esub
    cb0 := t.cb0
    blk := t.blk
    tcalc := t.tcalc
    opc := t.opc
    opF := t.opF
    optKsz := t.optKsz
    optNprof := t.optNprof
    phase := t.phase
    rt := t.rt
    bcReq := t.bcReq }

/-- The control part of the sequencer: what 70_reset_and_hazards.md R280 lets the number of micro-steps and of
block-cipher calls depend on. -/
structure Control where
  opc : BitVec 8
  opF : Bool
  optKsz : Bool
  aadLen : Word
  msgLen : Word
  blk : BitVec 32
  waiting : Bool
  position : Nat × Nat
deriving DecidableEq, Repr

/-- The position inside a phase, without the data it carries. -/
def Phase.position : Phase → Nat × Nat
  | .idle => (0, 0)
  | .started => (1, 0)
  | .derivingKeys i _ => (2, i)
  | .keyed => (3, 0)
  | .hashingAad i => (4, i)
  | .hashingMsg i => (5, i)
  | .hashed => (6, 0)
  | .decPass1 .init => (7, 0)
  | .decPass1 .block => (7, 1)
  | .decPass1 (.absorb _) => (7, 2)
  | .tagging .len => (8, 0)
  | .tagging (.xor _) => (8, 1)
  | .tagging (.enc _) => (8, 2)
  | .comparing => (9, 0)
  | .keystream .init => (10, 0)
  | .keystream .block => (10, 1)
  | .keystream (.absorb _) => (10, 2)
  | .clearing => (11, 0)

/-- The control part of a state. -/
def controlOf (s : State) : Control where
  opc := s.opc
  opF := s.opF
  optKsz := s.optKsz
  aadLen := s.aadLen
  msgLen := s.msgLen
  blk := s.blk
  waiting := s.bcReq.isSome
  position := s.phase.position

/-! ### Host transactions, in the words of the claims -/

/-- An offset of the register block that 10_state.md R21 lists. -/
def registerOffset (a : BitVec 16) : Bool :=
  decide (a.toNat % 4 = 0 ∧ a.toNat ≤ 0x0BC ∧ a.toNat ≠ 0x014 ∧ a.toNat ≠ 0x02C)

/-- An aligned offset of the buffer window (20_memory.md R51). -/
def windowOffset (p : Params) (a : BitVec 16) : Bool :=
  decide (a.toNat % 4 = 0 ∧ 0x8000 ≤ a.toNat ∧ a.toNat < 0x8000 + p.bufBytes)

/-- A write that passes the checks of R55 and R56. -/
def wellFormedWrite (p : Params) (a : BitVec 16) (strb : BitVec 4) : Bool :=
  registerOffset a && strb = 0xF || windowOffset p a

/-- RD of an offset returns this word, with no error response and no other effect. -/
def ReadsAs (s : State) (a : BitVec 16) (v : Word) : Prop :=
  ∀ strb d, exec (.rd a strb d) s = .next { s with resp := .read v false }

/-- WR of a word to an offset, with all strobes, leads to this state, with no error response. -/
def WritesTo (s : State) (a : BitVec 16) (d : Word) (t : State) : Prop :=
  exec (.wr a 0xF d) s = .next { t with resp := .write false }

/-- The host issues a write to STATUS that clears these bits: the W1C write of 40_host_bus.md R92. -/
def w1cTurn (s : State) (b : Nat) : Prop :=
  ∃ d rest, s.turns = .host (transactionWord true 0x0010 0xF d) :: rest ∧ d.getLsbD b = true ∧ s.busy = false

/-! ### Runs -/

/-- `n` steps of the machine behind the host's interface. -/
def runSteps (n : Nat) (s : State) : Result := Host.Core.run Sys2Proof.core n s

/-- The state a command that took `n` block-cipher calls leaves, with its outcome, before what it writes for the
host: the bits of 45_commands.md R192, the registers zeroized at acceptance (R191) and completion (R192,
R193), the code and options latched (R191). -/
def finished (op : BitVec 8) (f : Bool) (o : CmdOutcome) (n : Nat) (s : State) : State :=
  { s with
    status := (s.status &&& 0x80) ||| outcomeBit o ||| 0x02
    key := 0
    hkey := 0
    result := 0
    dkh := 0
    dke := 0
    acc := 0
    hsub := 0
    esub := 0
    cb0 := 0
    blk := 0
    tcalc := 0
    rt := 0
    opc := op
    opF := f
    optKsz := s.ksz
    optNprof := s.nprof
    phase := .idle
    bcReq := none
    resp := .write false
    answers := s.answers.drop n
    calls := s.calls + n }

/-- The first `n` bytes of OUT hold `bs`, and every other byte of BUF is as it was. -/
def OutHolds (s : State) (m : Buffer) (bs : List Byte) (n : Nat) : Prop :=
  (∀ k, k < n → bufGet m (s.outOff.toNat + k) = bs.getD k 0) ∧
    ∀ a, a < s.outOff.toNat ∨ s.outOff.toNat + n ≤ a → bufGet m a = bufGet s.buf a

/-- The registers and the hidden registers at their reset values (10_state.md R40), with `rst_n = 0`. -/
def HeldInReset (s : State) : Prop :=
  s.rstN = false → s = { State.reset with
    params := s.params
    rstN := false
    buf := { base := .drawn s.resets, cells := [] }
    turns := s.turns
    answers := s.answers
    calls := s.calls
    resets := s.resets }

/-- A turn of the engine, explicit or because the agenda is empty. -/
def engineNext (s : State) : Prop := s.turns = [] ∨ ∃ rest, s.turns = .engine :: rest

end Sys2Proof.Machine
end

