-- ==== Sys2Proof/Certificates/Slice0/Obligations.lean ====
section
/-! DEFINITION. The statements about GSIV for the provers, file by file of the spec. A statement ranges over every
state of the type unless it says otherwise; `Inv`, `Ready`, `NoFail`, `finished`, `OutHolds`, `ReadsAs` and `WritesTo`
are those of Safety.lean, the pure functions those of Machine/Functional.lean. -/

section Statements

open Sys2Proof Sys2Proof.Machine

/-! ### Encoding (30_encoding.md) -/

/-- R70, R71, R75: no operand bit of any instruction is lost by encoding, as a word. The clause on bytes (4 or 7 of them,
least significant first) is about the model's own layout, log entry 10: the spec lays no word out in bytes. -/
def Obligations.DecodeEncode : Prop :=
  ∀ (i : Instr) (rest : List Byte),
    decode (encode i) = .ok i ∧
      decodeBytes (encode i).format ((encode i).toBytes ++ rest) = .ok (i, rest)

/-- R71: "the six rows below are the only legal command words, up to the F bit where the row allows F = 1": a word
decodes exactly when it is one of these, to this instruction, and it is that instruction's encoding. -/
def Obligations.CommandWordsComplete : Prop :=
  ∀ (w : BitVec 32) (i : Instr),
    (decodeCommand w = .ok i ↔
      (w, i) ∈ [(0x00000000#32, .nop), (0x00000001#32, .encrypt false), (0x00000101#32, .encrypt true),
        (0x00000002#32, .decrypt false), (0x00000102#32, .decrypt true), (0x00000003#32, .derive),
        (0x00000004#32, .pvHash false), (0x00000104#32, .pvHash true), (0x0000000F#32, .clear)]) ∧
    (decodeCommand w = .ok i ↔ encode i = .command w)

/-- R75: every 53-bit word is one host transaction, and no bit of it is dropped. -/
def Obligations.TransactionWordsComplete : Prop :=
  ∀ (w : BitVec 53), encode (decodeTransaction w) = .transaction w

/-- R73, R211: which words are illegal, and that a write of one to CMD is accepted and completes at once with
ERR_CMD and DONE, KEY and HKEY not zeroized. -/
def Obligations.IllegalWords : Prop :=
  ∀ (d : BitVec 32) (s : State),
    ((∃ e, decodeCommand d = .error e) ↔
      d.extractLsb' 9 23 ≠ 0 ∨
        d.extractLsb' 0 8 ∉ [0x00#8, 0x01#8, 0x02#8, 0x03#8, 0x04#8, 0x0F#8] ∨
        d.getLsbD 8 = true ∧ d.extractLsb' 0 8 ∈ [0x00#8, 0x03#8, 0x0F#8]) ∧
    ((∃ e, decodeCommand d = .error e) → s.busy = false →
      exec (.wr 0x000C 0xF d) s = .next { s with
        status := (s.status &&& 0x80) ||| 0x42
        result := 0
        dkh := 0
        dke := 0
        acc := 0
        hsub := 0
        esub := 0
        cb0 := 0
        blk := 0
        tcalc := 0
        rt := 0
        opc := d.extractLsb' 0 8
        opF := d.getLsbD 8
        optKsz := s.ksz
        optNprof := s.nprof
        phase := .idle
        bcReq := none
        resp := .write false })

/-- R71, R77, R90, R91: the words the spec writes out (a sanity statement). -/
def Obligations.WrittenOutWords : Prop :=
  decodeTableWord 32 0x00000000 = some .nop ∧ decodeTableWord 32 0x00000101 = some (.encrypt true) ∧
  decodeTableWord 32 0x00000002 = some (.decrypt false) ∧ decodeTableWord 32 0x00000003 = some .derive ∧
  decodeTableWord 32 0x00000104 = some (.pvHash true) ∧ decodeTableWord 32 0x0000000F = some .clear ∧
  decodeTableWord 32 0x00000005 = none ∧ decodeTableWord 32 0x00000103 = none ∧
  decodeTableWord 53 0x00000000000000 = some (.rd 0x0000 0 0) ∧
  decodeTableWord 53 0x10008F00000005 = some (.wr 0x0008 0xF 0x00000005)

/-! ### A step -/

/-- R57, R61, R99: a host turn out of reset is exec of the decoded transaction, the turn taken off the agenda; an
engine turn, and every step with an empty agenda, is the engine's. -/
def Obligations.StepRunsDecoded : Prop :=
  ∀ (s : State) (ht : BitVec 53) (rest : List Turn),
    (s.rstN = true → s.turns = .host ht :: rest →
      step s = exec (decodeTransaction ht) { s with turns := rest }) ∧
    (s.turns = .engine :: rest → step s = engineTurn { s with turns := rest }) ∧
    (s.turns = [] → step s = engineTurn s)

/-- R78, R190: the bits of an opcode-table row, placed by `withFetchWord`, are what the very next step runs; a command
word runs as the data of a write to CMD. -/
def Obligations.StepRunsTableWord : Prop :=
  ∀ (nbits w : Nat) (i : Instr) (s : State), decodeTableWord nbits w = some i →
    step (s.withFetchWord nbits w) = exec i { s with rstN := true }

/-- R78, R190, R95: a command word written to CMD does what exec does of its command; while BUSY = 1 it is dropped and
sets ERR_BUSY. -/
def Obligations.CommandIsWriteToCmd : Prop :=
  ∀ (d : BitVec 32) (i : Instr) (s : State), decodeCommand d = .ok i →
    exec (.wr 0x000C 0xF d) s = exec i s ∧
    (s.busy = true → exec i s = .next { s with status := s.status ||| 0x80, resp := .write false })

/-! ### Reads (10_state.md, 20_memory.md, 40_host_bus.md) -/

/-- R57, R75, R90: a read always answers, changes nothing but the response, and STRB and DATA are ignored. -/
def Obligations.RdCompletes : Prop :=
  ∀ (s : State) (a : BitVec 16), ∃ v e, ∀ strb d, exec (.rd a strb d) s = .next { s with resp := .read v e }

/-- R24, R25: ID and CAP, in every state. -/
def Obligations.IdAndCap : Prop :=
  ∀ (s : State), ReadsAs s 0x0000 0x56495347 ∧
    ∃ v : Word, ReadsAs s 0x0004 v ∧ v.extractLsb' 0 16 = BitVec.ofNat 16 (s.params.bufBytes / 16) ∧
      v.getLsbD 16 = true ∧ v.getLsbD 17 = true ∧ v.getLsbD 18 = s.params.ctrMsb ∧
      v.extractLsb' 19 5 = 0 ∧ v.extractLsb' 24 8 = 0x01 ∧
      (s.busy = false → ∀ d, WritesTo s 0x0000 d s ∧ WritesTo s 0x0004 d s)

/-- R93: `readval` by register, while BUSY = 0. -/
def Obligations.ReadRegisters : Prop :=
  ∀ (s : State), s.busy = false →
    ReadsAs s 0x0000 0x56495347 ∧ ReadsAs s 0x0004 (capWord s.params) ∧
    ReadsAs s 0x0008 (s.ctrl.setWidth 32) ∧ ReadsAs s 0x000C 0 ∧ ReadsAs s 0x0010 (s.status.setWidth 32) ∧
    ReadsAs s 0x0018 s.aadOff ∧ ReadsAs s 0x001C s.aadLen ∧ ReadsAs s 0x0020 s.msgOff ∧
    ReadsAs s 0x0024 s.msgLen ∧ ReadsAs s 0x0028 s.outOff ∧
    (∀ j : Fin 4, ReadsAs s (BitVec.ofNat 16 (0x030 + 4 * j)) (s.nonce.extractLsb' (32 * j) 32) ∧
      ReadsAs s (BitVec.ofNat 16 (0x060 + 4 * j)) 0 ∧
      ReadsAs s (BitVec.ofNat 16 (0x070 + 4 * j)) (s.tag.extractLsb' (32 * j) 32) ∧
      ReadsAs s (BitVec.ofNat 16 (0x080 + 4 * j)) (s.result.extractLsb' (32 * j) 32) ∧
      ReadsAs s (BitVec.ofNat 16 (0x090 + 4 * j)) (s.dkh.extractLsb' (32 * j) 32)) ∧
    (∀ j : Fin 8, ReadsAs s (BitVec.ofNat 16 (0x040 + 4 * j)) 0 ∧
      ReadsAs s (BitVec.ofNat 16 (0x0A0 + 4 * j)) (s.dke.extractLsb' (32 * j) 32))

/-- R96: what a read returns while BUSY = 1. -/
def Obligations.ReadsWhileBusy : Prop :=
  ∀ (s : State), s.busy = true →
    ReadsAs s 0x0000 0x56495347 ∧ ReadsAs s 0x0004 (capWord s.params) ∧
    ReadsAs s 0x0008 (s.ctrl.setWidth 32) ∧ ReadsAs s 0x0010 (s.status.setWidth 32) ∧
    (∀ a, registerOffset a = true → a ∉ [0x0000#16, 0x0004#16, 0x0008#16, 0x0010#16] → ReadsAs s a 0) ∧
    (∀ a, windowOffset s.params a = true → ReadsAs s a 0)

/-- R54, R90, R94: a window read while BUSY = 0 returns the four bytes as they stand, little-endian, the last word
of the buffer included. -/
def Obligations.ReadWindow : Prop :=
  ∀ (s : State) (a : BitVec 16) (o : Nat), s.busy = false → a.toNat = 0x8000 + o → o % 4 = 0 →
    o < s.params.bufBytes →
    ∃ v : Word, ReadsAs s a v ∧ ∀ k, k < 4 → v.extractLsb' (8 * k) 8 = bufGet s.buf (o + k)

/-- R56, R236: a misaligned or unmapped offset, and a register write without all strobes, get the error response,
and nothing else changes, not even ERR_BUSY. -/
def Obligations.BusErrors : Prop :=
  ∀ (s : State) (a : BitVec 16) (strb : BitVec 4) (d : Word),
    (registerOffset a = false → windowOffset s.params a = false →
      exec (.rd a strb d) s = .next { s with resp := .read 0 true } ∧
      exec (.wr a strb d) s = .next { s with resp := .write true }) ∧
    (registerOffset a = true → strb ≠ 0xF → exec (.wr a strb d) s = .next { s with resp := .write true })

/-! ### Writes (40_host_bus.md) -/

/-- R92: `writeeffect` by register, while BUSY = 0. A group word takes the data and the group's other words stay. -/
def Obligations.WriteRegisters : Prop :=
  ∀ (s : State) (d : Word), s.busy = false →
    WritesTo s 0x0008 d { s with ctrl := d.extractLsb' 0 3 } ∧
    (exec (.wr 0x000C 0xF d) s = match decodeCommand d with
      | .ok i => exec i s
      | .error _ => illegalCommand d s) ∧
    (∃ st : BitVec 8, WritesTo s 0x0010 d { s with status := st } ∧ st.getLsbD 0 = s.status.getLsbD 0 ∧
      ∀ b, 1 ≤ b → b ≤ 7 → st.getLsbD b = (s.status.getLsbD b && !d.getLsbD b)) ∧
    WritesTo s 0x0018 d { s with aadOff := d } ∧ WritesTo s 0x001C d { s with aadLen := d } ∧
    WritesTo s 0x0020 d { s with msgOff := d } ∧ WritesTo s 0x0024 d { s with msgLen := d } ∧
    WritesTo s 0x0028 d { s with outOff := d } ∧
    (∀ j : Fin 4, ∃ g, WritesTo s (BitVec.ofNat 16 (0x030 + 4 * j)) d { s with nonce := g } ∧
      ∀ k : Fin 4, wordAt g k = if k = j then d else wordAt s.nonce k) ∧
    (∀ j : Fin 8, ∃ g, WritesTo s (BitVec.ofNat 16 (0x040 + 4 * j)) d { s with key := g } ∧
      ∀ k : Fin 8, wordAt g k = if k = j then d else wordAt s.key k) ∧
    (∀ j : Fin 4, ∃ g, WritesTo s (BitVec.ofNat 16 (0x060 + 4 * j)) d { s with hkey := g } ∧
      ∀ k : Fin 4, wordAt g k = if k = j then d else wordAt s.hkey k) ∧
    (∀ j : Fin 4, ∃ g, WritesTo s (BitVec.ofNat 16 (0x070 + 4 * j)) d { s with tag := g } ∧
      ∀ k : Fin 4, wordAt g k = if k = j then d else wordAt s.tag k) ∧
    WritesTo s 0x0000 d s ∧ WritesTo s 0x0004 d s ∧
    (∀ j : Fin 4, WritesTo s (BitVec.ofNat 16 (0x080 + 4 * j)) d s ∧
      WritesTo s (BitVec.ofNat 16 (0x090 + 4 * j)) d s) ∧
    (∀ j : Fin 8, WritesTo s (BitVec.ofNat 16 (0x0A0 + 4 * j)) d s)

/-- R54, R91, R94: a window write while BUSY = 0 stores byte `k` of the data at `o + k` when strobe `k` is set, and
every other byte of BUF and every other field stays; no strobe is no error. -/
def Obligations.WriteWindow : Prop :=
  ∀ (s : State) (a : BitVec 16) (strb : BitVec 4) (d : Word) (o : Nat), s.busy = false → a.toNat = 0x8000 + o →
    o % 4 = 0 → o < s.params.bufBytes →
    ∃ m, exec (.wr a strb d) s = .next { s with buf := m, resp := .write false } ∧
      (∀ k, k < 4 → bufGet m (o + k) =
        if strb.getLsbD k then d.extractLsb' (8 * k) 8 else bufGet s.buf (o + k)) ∧
      (∀ b, b < o ∨ o + 4 ≤ b → bufGet m b = bufGet s.buf b) ∧
      (Memory.wf s.params.bufBytes s.buf = true → Memory.wf s.params.bufBytes m = true)

/-- R95: while BUSY = 1 a well-formed write changes nothing but ERR_BUSY; and ERR_BUSY stays 1 through every step but
a W1C write of its bit while BUSY = 0, and reset. -/
def Obligations.BusyWrites : Prop :=
  ∀ (s t : State) (a : BitVec 16) (strb : BitVec 4) (d : Word),
    (s.busy = true → wellFormedWrite s.params a strb = true →
      exec (.wr a strb d) s = .next { s with status := s.status ||| 0x80, resp := .write false }) ∧
    (s.errBusy = true → step s = .next t → t.errBusy = false →
      w1cTurn s 7 ∨ ∃ rest, s.turns = .resetLow :: rest)

/-- R61, R235: a host transaction while BUSY = 1 changes nothing but the response and ERR_BUSY, and the engine's next
turn does what it would have done without it. -/
def Obligations.BusyTransactionsDoNotDisturb : Prop :=
  ∀ (s t : State) (i : Instr), s.busy = true → exec i s = .next t →
    (∃ e, t = { s with status := s.status ||| e, resp := t.resp } ∧ (e = 0 ∨ e = 0x80)) ∧
    ∀ u, engineTurn s = .next u →
      engineTurn t = .next { u with status := u.status ||| (t.status &&& 0x80), resp := t.resp }

/-! ### Commands that complete at once, and acceptance (45_commands.md) -/

/-- R209: the word 0x00000000 is NOP; NOP accepts and completes with OK in the same step; KEY and HKEY are not
zeroized, BUSY is never 1, and with IE = 1 it raises `irq`. -/
def Obligations.NopCompletes : Prop :=
  decodeCommand 0x00000000 = .ok .nop ∧
  ∀ (s : State), s.busy = false →
    exec .nop s = .next { s with
      status := (s.status &&& 0x80) ||| 0x02
      result := 0
      dkh := 0
      dke := 0
      acc := 0
      hsub := 0
      esub := 0
      cb0 := 0
      blk := 0
      tcalc := 0
      rt := 0
      opc := 0x00
      opF := false
      optKsz := s.ksz
      optNprof := s.nprof
      phase := .idle
      bcReq := none
      resp := .write false } ∧
    ∀ t, exec .nop s = .next t → t.busy = false ∧ t.done = true ∧ t.irq = s.ie

/-- R190, R191: acceptance of each multi-step command, with its code and F bit: the outcome bits cleared and ERR_BUSY
kept, the outputs zeroized, code and options latched, the units at their reset values, BUSY set, and nothing
else changed. -/
def Obligations.Acceptance : Prop :=
  ∀ (i : Instr) (op : BitVec 8) (f : Bool) (s : State),
    (i, op, f) ∈ [(.encrypt false, 0x01, false), (.encrypt true, 0x01, true), (.decrypt false, 0x02, false),
      (.decrypt true, 0x02, true), (.derive, 0x03, false), (.pvHash false, 0x04, false),
      (.pvHash true, 0x04, true), (.clear, 0x0F, false)] →
    s.busy = false →
    exec i s = .next { s with
      status := (s.status &&& 0x80) ||| 0x01
      result := 0
      dkh := 0
      dke := 0
      acc := 0
      hsub := 0
      esub := 0
      cb0 := 0
      blk := 0
      tcalc := 0
      opc := op
      opF := f
      optKsz := s.ksz
      optNprof := s.nprof
      phase := .started
      resp := .write false }

/-! ### Whole commands -/

/-- R200, R201, R202, R212: ENCRYPT with no failing call leaves `Enc` of its inputs in TAG and OUT, in place or not,
with the calls of R202, and otherwise exactly the state `finished`. The number of micro-steps is the model's choice
(log entry 11). -/
def Obligations.EncryptRun : Prop :=
  ∀ (f : Bool) (s : State), Ready s → regionCheckAead s = true →
    NoFail s (encryptCalls f s.ksz s.msgLen.toNat) →
    ∃ t m, exec (.encrypt f) s = .next t ∧
      runSteps (encryptSteps f s.ksz s.aadLen.toNat s.msgLen.toNat) t = .next
        { finished 0x01 f .ok (encryptCalls f s.ksz s.msgLen.toNat) s with tag := (encResult f s).2, buf := m } ∧
      OutHolds s m (encResult f s).1 s.msgLen.toNat

/-- R204, R205, R207, R212: DECRYPT of a matching tag releases `Dec` of its inputs into OUT, and TAG still holds the
received tag. The number of micro-steps is the model's choice (log entry 11). -/
def Obligations.DecryptVerified : Prop :=
  ∀ (f : Bool) (s : State) (p : List Byte), Ready s → regionCheckAead s = true → decResult f s = some p →
    NoFail s (decryptCalls f s.ksz true s.msgLen.toNat) →
    ∃ t m, exec (.decrypt f) s = .next t ∧
      runSteps (decryptSteps f s.ksz true s.aadLen.toNat s.msgLen.toNat) t = .next
        { finished 0x02 f .verified (decryptCalls f s.ksz true s.msgLen.toNat) s with buf := m } ∧
      OutHolds s m p s.msgLen.toNat

/-- R204, R205, R208: DECRYPT of a mismatching tag ends with AUTH_FAIL, no byte of BUF changed and TAG unchanged;
the state it leaves is a function of what was there before, of the calls' number and of nothing else, so that
nothing tells which input was wrong. The number of micro-steps is the model's choice (log entry 11). -/
def Obligations.DecryptRejected : Prop :=
  ∀ (f : Bool) (s : State), Ready s → regionCheckAead s = true → decResult f s = none →
    NoFail s (decryptCalls f s.ksz false s.msgLen.toNat) →
    ∃ t, exec (.decrypt f) s = .next t ∧
      runSteps (decryptSteps f s.ksz false s.aadLen.toNat s.msgLen.toNat) t = .next
        (finished 0x02 f .authenticationFailure (decryptCalls f s.ksz false s.msgLen.toNat) s)

/-- R132, R134, R140, R233: DERIVE with no failing call leaves `derive(KEY, NONCE, KSZ, NPROF)` in DKH and DKE; when its
call `k` is the first to answer FAIL it makes no later call and ends with ERR_PRIM, DKH and DKE zero. Both numbers of
micro-steps are the model's choice (log entry 11). -/
def Obligations.DeriveRun : Prop :=
  ∀ (s : State), Ready s →
    (NoFail s (kdCalls s.ksz) →
      ∃ t, exec .derive s = .next t ∧
        runSteps (deriveSteps s.ksz) t = .next
          { finished 0x03 false .ok (kdCalls s.ksz) s with
            dkh := (deriveKeys s.ksz s.nprof s.key s.nonce).1
            dke := (deriveKeys s.ksz s.nprof s.key s.nonce).2 }) ∧
    ∀ k, k < kdCalls s.ksz → NoFail s k → drawAt s k = true →
      ∃ t, exec .derive s = .next t ∧
        runSteps (1 + 2 * (k + 1)) t = .next (finished 0x03 false .primitiveFailure (k + 1) s)

/-- R120: PV_HASH leaves POLYVAL of its regions under HKEY, with the length block when L = 1, in RESULT, and makes no
block-cipher call. The number of micro-steps is the model's choice (log entry 11). -/
def Obligations.PvHashRun : Prop :=
  ∀ (l : Bool) (s : State), Ready s → regionCheckHash s = true →
    ∃ t, exec (.pvHash l) s = .next t ∧
      runSteps (hashSteps s.aadLen.toNat s.msgLen.toNat) t = .next
        { finished 0x04 l .ok 0 s with result := hashResult l s }

/-- R210: CLEAR zeroizes KEY, HKEY, TAG, RESULT, DKH, DKE and every byte of BUF, and leaves NONCE, CTRL, ERR_BUSY and
the region registers. That CLEARING follows one micro-step and the whole takes two is the model's choice (log entry 11);
the spec loops over BUF. -/
def Obligations.ClearRun : Prop :=
  ∀ (s : State), Ready s →
    ∃ t u m, exec .clear s = .next t ∧ runSteps 1 t = .next u ∧ u.phase = .clearing ∧ u.busy = true ∧
      runSteps 2 t = .next { finished 0x0F false .ok 0 s with tag := 0, buf := m } ∧ ∀ a, bufGet m a = 0

/-- R194, R231: a failing region check ends ENCRYPT, DECRYPT or PV_HASH with ERR_LEN before any block-cipher call, with
TAG and BUF unchanged. That this takes one micro-step is the model's choice (log entry 11). -/
def Obligations.InvalidLength : Prop :=
  ∀ (f : Bool) (s : State), Ready s →
    (regionCheckAead s = false →
      (∃ t, exec (.encrypt f) s = .next t ∧ runSteps 1 t = .next (finished 0x01 f .invalidInputLength 0 s)) ∧
      ∃ t, exec (.decrypt f) s = .next t ∧ runSteps 1 t = .next (finished 0x02 f .invalidInputLength 0 s)) ∧
    (regionCheckHash s = false →
      ∃ t, exec (.pvHash f) s = .next t ∧ runSteps 1 t = .next (finished 0x04 f .invalidInputLength 0 s))

/-- R53, R67, R194: the region checks, in unbounded arithmetic. -/
def Obligations.RegionChecks : Prop :=
  ∀ (s : State),
    (regionCheckAead s = true ↔
      s.aadOff.toNat + s.aadLen.toNat ≤ s.params.bufBytes ∧ s.msgOff.toNat + s.msgLen.toNat ≤ s.params.bufBytes ∧
      s.outOff.toNat + s.msgLen.toNat ≤ s.params.bufBytes ∧
      (s.outOff = s.msgOff ∨ s.msgLen = 0 ∨
        ¬ ∃ b, (s.outOff.toNat ≤ b ∧ b < s.outOff.toNat + s.msgLen.toNat) ∧
          (s.msgOff.toNat ≤ b ∧ b < s.msgOff.toNat + s.msgLen.toNat))) ∧
    (regionCheckHash s = true ↔
      s.aadOff.toNat + s.aadLen.toNat ≤ s.params.bufBytes ∧ s.msgOff.toNat + s.msgLen.toNat ≤ s.params.bufBytes)

/-- R203: an ENCRYPT whose call `k` is the first to answer FAIL ends with ERR_PRIM after that call, TAG as before; when
it is keystream call `i`, OUT chunks 0 to `i - 1` hold their ciphertext and nothing else of BUF changes. -/
def Obligations.EncryptFails : Prop :=
  ∀ (f : Bool) (s : State) (k : Nat), Ready s → regionCheckAead s = true →
    k < encryptCalls f s.ksz s.msgLen.toNat → NoFail s k → drawAt s k = true →
    ∃ t n m, exec (.encrypt f) s = .next t ∧
      runSteps n t = .next { finished 0x01 f .primitiveFailure (k + 1) s with buf := m } ∧
      OutHolds s m (encResult f s).1 (16 * (k - (keyCalls f s.ksz + 1)))

/-- R213: a DECRYPT whose call `k` is the first to answer FAIL ends with ERR_PRIM and neither AUTH_OK nor AUTH_FAIL; up to
the tag call BUF is unchanged, and at pass-2 call `i` OUT chunks 0 to `i - 1` hold verified plaintext. -/
def Obligations.DecryptFails : Prop :=
  ∀ (f : Bool) (s : State) (k : Nat), Ready s → regionCheckAead s = true →
    k < decryptCalls f s.ksz (decResult f s).isSome s.msgLen.toNat → NoFail s k → drawAt s k = true →
    ∃ t n m, exec (.decrypt f) s = .next t ∧
      runSteps n t = .next { finished 0x02 f .primitiveFailure (k + 1) s with buf := m } ∧
      OutHolds s m ((decResult f s).getD [])
        (16 * (k - (keyCalls f s.ksz + chunkCount s.msgLen.toNat + 1)))

/-- R136, which the spec derives: with the derived subkeys as HKEY and KEY, the two-key variant leaves the same TAG and the same bytes of BUF as
the one-key variant under the master key; the same for DECRYPT, whose STATUS is the same too. -/
def Obligations.VariantsAgree : Prop :=
  ∀ (s s' : State), Ready s →
    s' = { s with
      hkey := (deriveKeys s.ksz s.nprof s.key s.nonce).1
      key := (deriveKeys s.ksz s.nprof s.key s.nonce).2 } →
    regionCheckAead s = true → NoFail s (decryptCalls false s.ksz true s.msgLen.toNat) →
    (∃ t t' n n' u u', exec (.encrypt false) s = .next t ∧ exec (.encrypt true) s' = .next t' ∧
      runSteps n t = .next u ∧ runSteps n' t' = .next u' ∧ u.busy = false ∧ u'.busy = false ∧
      u.tag = (encResult false s).2 ∧ u'.tag = u.tag ∧ ∀ a, bufGet u'.buf a = bufGet u.buf a) ∧
    (∃ t t' n n' u u', exec (.decrypt false) s = .next t ∧ exec (.decrypt true) s' = .next t' ∧
      runSteps n t = .next u ∧ runSteps n' t' = .next u' ∧ u.busy = false ∧ u'.busy = false ∧
      u.authOk = (decResult false s).isSome ∧ u'.status = u.status ∧ u'.tag = u.tag ∧
      ∀ a, bufGet u'.buf a = bufGet u.buf a)

/-! ### The pure functions (41 to 44) -/

/-- R15, R117: the blocks of `pad16`, byte by byte, and the length block, without wrap-around for lengths below
2^32; and R117's own example. -/
def Obligations.HashBlocks : Prop :=
  (∀ (bs : List Byte), (pad16 bs).length = (bs.length + 15) / 16 ∧
    ∀ j k, j < (pad16 bs).length → k < 16 → byteAt ((pad16 bs).getD j 0) k = bs.getD (16 * j + k) 0) ∧
  (∀ a m : Nat, a < 2 ^ 32 → m < 2 ^ 32 →
    ((lengthBlock a m).extractLsb' 0 64).toNat = 8 * a ∧ ((lengthBlock a m).extractLsb' 64 64).toNat = 8 * m) ∧
  lengthBlock 12 3 = 0x00000000000000180000000000000060

/-- R114: the laws of `dot`, and POLYVAL under the zero key. -/
def Obligations.DotLaws : Prop :=
  (∀ a b : Block, dot a b = dot b a) ∧
  (∀ a b c : Block, dot (a ^^^ c) b = dot a b ^^^ dot c b) ∧
  (∀ a : Block, dot a 0 = 0) ∧
  (∀ a : Block, dot a 0xC2000000000000000000000000000001 = a) ∧
  (∀ xs : List Block, polyval 0 xs = 0)

/-- R131: the derivation input block, byte by byte: `LE32(i)`, then nonce bytes 0 to 11 under N12 and 4 to 15 under
N16. -/
def Obligations.DerivationBlock : Prop :=
  ∀ (nprof : Bool) (n : Block) (i k : Nat), k < 16 →
    byteAt (kdb nprof n i) k =
      if k < 4 then BitVec.ofNat 8 (i / 256 ^ k)
      else byteAt n (if nprof then k else k - 4)

/-- R133: the subkeys, byte by byte, from the halves of the derivation calls. -/
def Obligations.SubkeyBytes : Prop :=
  ∀ (ksz nprof : Bool) (mk : Key) (n : Block) (k : Nat),
    let y := fun i => Config.blockEncrypt ksz (keyInUse ksz mk) (kdb nprof n i)
    (k < 16 → byteAt (deriveKeys ksz nprof mk n).1 k = byteAt (y (k / 8)) (k % 8)) ∧
    (k < 32 → byteAt (deriveKeys ksz nprof mk n).2 k =
      if k < 16 ∨ ksz = true then byteAt (y (2 + k / 8)) (k % 8) else 0)

/-- R151, R152: the tag input block, byte by byte. -/
def Obligations.TagInputBytes : Prop :=
  ∀ (nprof : Bool) (n s : Block) (j : Nat), j < 16 →
    byteAt (tagInput nprof n s) j =
      (byteAt s j ^^^ if j < (if nprof then 16 else 12) then byteAt n j else 0) &&& (if j = 15 then 0x7F else 0xFF)

/-- R170, R171: the initial counter block and the counter blocks, byte by byte; the counter field wraps modulo
2^32 and bytes 4 to 15 never change. -/
def Obligations.CounterBlockBytes : Prop :=
  ∀ (msb : Bool) (t cb0 : Block) (i j : Nat), j < 16 →
    byteAt (ctrBlock0 msb t) j =
      (if j = 15 then (byteAt t 15 &&& 0x7F) ||| (if msb then 0x80 else 0) else byteAt t j) ∧
    byteAt (counterBlock cb0 i) j =
      if j < 4 then BitVec.ofNat 8 (((cb0.toNat % 2 ^ 32 + i) % 2 ^ 32) / 256 ^ j) else byteAt cb0 j

/-- R176: the counter blocks of one command are pairwise distinct, even when the counter field wraps. -/
def Obligations.CountersDistinct : Prop :=
  ∀ (p : Params) (t : Block) (i j : Nat), p.wf = true → i < p.bufBytes / 16 → j < p.bufBytes / 16 → i ≠ j →
    counterBlock (ctrBlock0 p.ctrMsb t) i ≠ counterBlock (ctrBlock0 p.ctrMsb t) j

/-- R177: every counter block has bit 127 = CTR_MSB and every tag input block has bit 127 = 0, so that with
CTR_MSB = 1 they never meet. -/
def Obligations.DomainSeparation : Prop :=
  ∀ (msb nprof : Bool) (t n s : Block) (i : Nat),
    (counterBlock (ctrBlock0 msb t) i).getLsbD 127 = msb ∧ (tagInput nprof n s).getLsbD 127 = false ∧
    counterBlock (ctrBlock0 true t) i ≠ tagInput nprof n s

/-- R175, which the spec derives: the laws of `ctrApply`: length, self-inverse, prefix, tag bit 127. -/
def Obligations.KeystreamLaws : Prop :=
  ∀ (msb ksz : Bool) (t t' : Block) (ek : Key) (d d' : List Byte) (k : Nat),
    (ctrApply msb ksz t ek d).length = d.length ∧
    ctrApply msb ksz t ek (ctrApply msb ksz t ek d) = d ∧
    (d.take (16 * k) = d'.take (16 * k) →
      (ctrApply msb ksz t ek d).take (16 * k) = (ctrApply msb ksz t ek d').take (16 * k)) ∧
    (t.extractLsb' 0 127 = t'.extractLsb' 0 127 → ctrApply msb ksz t ek d = ctrApply msb ksz t' ek d)

/-- R206: `ct_equal` is true exactly of equal tags. -/
def Obligations.CtEqualExact : Prop := ∀ x y : Block, ctEqual x y = true ↔ x = y

/-- R212: Dec undoes Enc, the ciphertext has the plaintext's length, and any other tag is rejected with the same
ciphertext when it differs in bit 127 only (R204, corner cases). -/
def Obligations.DecUndoesEnc : Prop :=
  ∀ (msb ksz nprof : Bool) (h : Block) (ek : Key) (n : Block) (a p : List Byte),
    let e := encFn msb ksz nprof h ek n a p
    decFn msb ksz nprof h ek n a e.1 e.2 = some p ∧ e.1.length = p.length ∧
    decFn msb ksz nprof h ek n a e.1 (e.2 ^^^ 0x80000000000000000000000000000000) = none

/-! ### Invariants and whole-machine rules -/

/-- The invariant holds at reset (R37, R40, R41). -/
def Obligations.InvAtReset : Prop := Inv State.reset

/-- Every step keeps the invariant. -/
def Obligations.StepKeepsInv : Prop := ∀ s t : State, Inv s → step s = .next t → Inv t

/-- R12, R52, R194: under the invariant no step faults, and a step answers a next state unless it is a host transaction
in reset, which is refused (R260; the refusal is log entry 9's). -/
def Obligations.StepAnswers : Prop :=
  ∀ s : State, Inv s →
    (∃ t, step s = .next t) ∨
      (step s = .refused .transactionInReset ∧ s.rstN = false ∧ ∃ ht rest, s.turns = .host ht :: rest)

/-- R6, R29, R30, R62, R92: no step changes the parameters; CTRL, NONCE and the region registers change only by the
host's write to one of them while BUSY = 0, and by reset; no command changes them. -/
def Obligations.InputsChangeByHostOnly : Prop :=
  ∀ s t : State, step s = .next t → t.params = s.params ∧
    (SameInputs s t ∨ (∃ rest, s.turns = .resetLow :: rest) ∨
      ∃ a d rest, s.turns = .host (transactionWord true a 0xF d) :: rest ∧ s.busy = false ∧
        (a = 0x0008 ∨ a = 0x0018 ∨ a = 0x001C ∨ a = 0x0020 ∨ a = 0x0024 ∨ a = 0x0028 ∨
          (0x0030 ≤ a.toNat ∧ a.toNat ≤ 0x003C)))

/-- R66, R201, R207, R208, R213: an engine turn changes a byte of BUF only in CLEAR, or in KEYSTREAM, where it lies
in the OUT chunk of index BLK; and in DECRYPT only once the computed tag equals the received one. -/
def Obligations.EngineWritesOutOnly : Prop :=
  ∀ s t : State, Inv s → engineTurn s = .next t → ∀ a, bufGet t.buf a ≠ bufGet s.buf a →
    s.phase = .clearing ∨
      (s.phase = .keystream .block ∧ (s.opc = 0x01 ∨ s.opc = 0x02) ∧ (s.opc = 0x02 → s.tcalc = s.rt) ∧
        s.outOff.toNat + 16 * s.blk.toNat ≤ a ∧
        a < s.outOff.toNat + 16 * s.blk.toNat + min 16 (s.msgLen.toNat - 16 * s.blk.toNat))

/-- R33, R34, R35, R205: an engine turn changes TAG, RESULT, DKH or DKE only when it completes a command: TAG in ENCRYPT
(with the computed tag, OK) and CLEAR, RESULT in PV_HASH and CLEAR, DKH and DKE in DERIVE and CLEAR; so no turn
of a DECRYPT changes TAG. The changes that are no engine turn's are `OutputsChangeCauses`. -/
def Obligations.EngineOutputs : Prop :=
  ∀ s t : State, Inv s → engineTurn s = .next t →
    (t.tag ≠ s.tag → t.phase = .idle ∧ (s.opc = 0x01 ∧ t.tag = s.tcalc ∧ t.outcomeBits = 0 ∨ s.opc = 0x0F ∧ t.tag = 0)) ∧
    (t.result ≠ s.result →
      t.phase = .idle ∧ (s.opc = 0x04 ∧ t.result = s.acc ∧ t.outcomeBits = 0 ∨ s.opc = 0x0F ∧ t.result = 0)) ∧
    (t.dkh ≠ s.dkh ∨ t.dke ≠ s.dke →
      t.phase = .idle ∧ (s.opc = 0x03 ∧ t.dkh = s.hsub ∧ t.dke = s.esub ∧ t.outcomeBits = 0 ∨
        s.opc = 0x0F ∧ t.dkh = 0 ∧ t.dke = 0))

/-- R193: the engine turn that completes an ENCRYPT, DECRYPT, DERIVE or PV_HASH zeroizes KEY and HKEY, whatever the
outcome; and no other engine turn changes them but CLEAR's. -/
def Obligations.KeysZeroized : Prop :=
  ∀ s t : State, Inv s → s.busy = true → engineTurn s = .next t →
    (t.busy = false → t.key = 0 ∧ t.hkey = 0) ∧ (t.busy = true → t.key = s.key ∧ t.hkey = s.hkey)

/-- R192, R233, R237: the engine turn that completes a command sets DONE, leaves nothing hidden, keeps ERR_BUSY, and sets
the bit of one outcome that the command can have: none, ERR_LEN or ERR_PRIM in ENCRYPT, exactly one of AUTH_OK,
AUTH_FAIL, ERR_LEN and ERR_PRIM in DECRYPT, none or ERR_PRIM in DERIVE, none or ERR_LEN in PV_HASH, none in CLEAR. -/
def Obligations.CompletionOutcome : Prop :=
  ∀ s t : State, Inv s → s.busy = true → engineTurn s = .next t → t.busy = false →
    t.done = true ∧ t.phase = .idle ∧ HiddenZero t ∧ t.errBusy = s.errBusy ∧
    ((s.opc = 0x01 ∧ (t.outcomeBits = 0 ∨ t.outcomeBits = 4 ∨ t.outcomeBits = 8)) ∨
      (s.opc = 0x02 ∧ (t.outcomeBits = 1 ∨ t.outcomeBits = 2 ∨ t.outcomeBits = 4 ∨ t.outcomeBits = 8)) ∨
      (s.opc = 0x03 ∧ (t.outcomeBits = 0 ∨ t.outcomeBits = 8)) ∨
      (s.opc = 0x04 ∧ (t.outcomeBits = 0 ∨ t.outcomeBits = 4)) ∨
      (s.opc = 0x0F ∧ t.outcomeBits = 0))

/-- R13, R59, R233: a FAIL answer ends the command at once with ERR_PRIM and DONE, BUF, TAG, RESULT, DKH and DKE as
they were; an answer that is not FAIL is the block `BlockEncrypt` gives the request's key and block. -/
def Obligations.PortAnswers : Prop :=
  ∀ (s : State) (r : BcRequest), Inv s → s.bcReq = some r →
    (nextFails s = true → ∃ t, engineTurn s = .next t ∧ t.errPrim = true ∧ t.done = true ∧ t.busy = false ∧
      t.authOk = false ∧ t.authFail = false ∧ t.buf = s.buf ∧ t.tag = s.tag ∧ t.result = s.result ∧
      t.dkh = s.dkh ∧ t.dke = s.dke ∧ t.bcReq = none) ∧
    (nextFails s = false → ∃ t, engineTurn s = .next t ∧
      takeAnswer (Config.blockEncrypt r.ksz r.key r.block)
        { s with bcReq := none, answers := s.answers.tail, calls := s.calls + 1 } = .next t ∧
      t.bcReq = none ∧ t.busy = true)

/-- R240: `irq` rises only when a command completes (an engine turn that ends idle, or NOP or an illegal word written
to CMD) or when the host writes CTRL while DONE = 1. That IE is not latched at acceptance is the model's reading (log
entry 14). -/
def Obligations.IrqCauses : Prop :=
  ∀ s t : State, step s = .next t → s.irq = false → t.irq = true →
    (engineNext s ∧ t.done = true ∧ t.phase = .idle) ∨
    ∃ a d rest, s.turns = .host (transactionWord true a 0xF d) :: rest ∧ s.busy = false ∧
      (a = 0x000C ∧ (decodeCommand d = .ok .nop ∨ ∃ e, decodeCommand d = .error e) ∨
        a = 0x0008 ∧ d.getLsbD 2 = true ∧ s.done = true)

/-- R240, R242: DONE falls only by a W1C write of its bit while BUSY = 0, by the acceptance of a command that then runs,
and by reset. -/
def Obligations.DoneFalls : Prop :=
  ∀ s t : State, step s = .next t → s.done = true → t.done = false →
    w1cTurn s 1 ∨ (∃ rest, s.turns = .resetLow :: rest) ∨
      ∃ d rest, s.turns = .host (transactionWord true 0x000C 0xF d) :: rest ∧ s.busy = false ∧ t.busy = true

/-- R40, R262: the registers read the reset values of R21, the units are zero, PHASE is IDLE and `irq` is 0 after reset,
with the reference parameters. -/
def Obligations.ResetValues : Prop :=
  (∀ a, registerOffset a = true → ReadsAs State.reset a
    (if a = 0x0000 then 0x56495347 else if a = 0x0004 then 0x01070800 else 0)) ∧
  HiddenZero State.reset ∧ State.reset.opc = 0 ∧ State.reset.opF = false ∧ State.reset.optKsz = false ∧
  State.reset.optNprof = false ∧ State.reset.phase = .idle ∧ State.reset.irq = false ∧ State.reset.key = 0 ∧
  State.reset.hkey = 0 ∧ State.reset.bcReq = none

/-- R41, R260, R261: a falling `rst_n` takes every register and hidden register to its reset value at once, abandons
the command and withdraws the request, and leaves BUF a fresh draw; the host's transaction in reset is refused (log
entry 9), nothing moves, and the release changes `rst_n` only; and while `rst_n = 0` every register and hidden
register holds its reset value, whatever the turns. -/
def Obligations.ResetTurns : Prop :=
  ∀ (s : State) (rest : List Turn),
    (s.rstN = true → s.turns = .resetLow :: rest → step s = .next { State.reset with
      params := s.params
      rstN := false
      buf := { base := .drawn (s.resets + 1), cells := [] }
      turns := rest
      answers := s.answers
      calls := s.calls
      resets := s.resets + 1 }) ∧
    (s.rstN = false → s.turns = .engine :: rest → step s = .next { s with turns := rest }) ∧
    (s.turns = .resetHigh :: rest → step s = .next { s with rstN := true, turns := rest }) ∧
    (∀ ht, s.rstN = false → s.turns = .host ht :: rest → step s = .refused .transactionInReset) ∧
    HeldInReset State.reset ∧ (∀ t, HeldInReset s → step s = .next t → HeldInReset t)

/-! ### What may not be told apart -/

/-- R206, R280: the control part of the sequencer (code, F, KSZ, lengths, position, BLK, whether a call is outstanding)
after an engine turn depends on the control part before it, on the region check at the start, on FAIL, and on the
match at the comparison; not on key, nonce, data or tag. -/
def Obligations.DataIndependence : Prop :=
  ∀ s s' t t' : State, s.rstN = s'.rstN → controlOf s = controlOf s' →
    (s.bcReq.isSome = true → nextFails s = nextFails s') →
    (s.phase = .started → regionsFit s = regionsFit s') →
    (s.phase = .comparing → (s.tcalc = s.rt ↔ s'.tcalc = s'.rt)) →
    engineTurn s = .next t → engineTurn s' = .next t' → controlOf t = controlOf t'

/-- R62, R96: while BUSY = 1 no host transaction tells apart two states that agree on the parameters, CTRL and STATUS:
the response is the same. -/
def Obligations.BusyHides : Prop :=
  ∀ (s s' t t' : State) (i : Instr), s.busy = true → s.params = s'.params → s.ctrl = s'.ctrl →
    s.status = s'.status → exec i s = .next t → exec i s' = .next t' → t.resp = t'.resp

/-- R31, R32, R36, R93: no host instruction shows KEY, HKEY or the hidden registers: neither its response nor any visible
field after it depends on them. It speaks of `exec` only: the engine turn that completes DERIVE copies HSUB and ESUB to DKH
and DKE (R140), PV_HASH's copies ACC to RESULT (R120) and ENCRYPT's copies TCALC to TAG (R201), which is
`EngineOutputs`; what an engine turn before the completion shows is `EngineShowsNothingBeforeCompletion`. -/
def Obligations.SecretsStayHidden : Prop :=
  ∀ (s s' t t' : State) (i : Instr), SameButSecret s s' → exec i s = .next t → exec i s' = .next t' →
    SameButSecret t t'

/-- R31, R32, R36, R62, R96: an engine turn after which the command still runs changes no register the host can read, not
even STATUS, and no byte of BUF unless in KEYSTREAM: what it changes otherwise is hidden, or the draws and the count of
the calls (log entry 6). -/
def Obligations.EngineShowsNothingBeforeCompletion : Prop :=
  ∀ s t : State, engineTurn s = .next t → t.busy = true →
    SameButSecret { s with buf := t.buf, answers := t.answers, calls := t.calls } t ∧
    (t.buf = s.buf ∨ ∃ c, s.phase = .keystream c)

/-- R33, R34, R35, R92, R191: the steps that change TAG, RESULT, DKH or DKE and are no engine turn are a falling `rst_n`,
the host's write to TAG while BUSY = 0, which changes TAG only, and a word written to CMD while BUSY = 0, whose acceptance
zeroizes RESULT, DKH and DKE and leaves TAG. -/
def Obligations.OutputsChangeCauses : Prop :=
  ∀ s t : State, step s = .next t →
    t.tag ≠ s.tag ∨ t.result ≠ s.result ∨ t.dkh ≠ s.dkh ∨ t.dke ≠ s.dke →
    engineNext s ∨ (∃ rest, s.turns = .resetLow :: rest) ∨
      ∃ a d rest, s.turns = .host (transactionWord true a 0xF d) :: rest ∧ s.busy = false ∧
        ((0x0070 ≤ a.toNat ∧ a.toNat ≤ 0x007C ∧ t.result = s.result ∧ t.dkh = s.dkh ∧ t.dke = s.dke) ∨
          a = 0x000C ∧ t.tag = s.tag ∧ t.result = 0 ∧ t.dkh = 0 ∧ t.dke = 0)

end Statements
end

