-- ==== Sys2Proof/Laws/Buffer.lean ====
section
/-! SUPPORT. The laws of BUF: a read after a write, the frame of a write, and that every write keeps the
canonical form (Memory.wf). -/

namespace Sys2Proof.Machine

/-! ### Reading after writing -/

theorem cellsGet_cellsSet (l : List Host.Cell) (a b : Nat) (v : Byte) :
    cellsGet (cellsSet l a v) b = if b = a then some v else cellsGet l b := by
  induction l with
  | nil => by_cases h : a = b <;> simp [cellsSet, cellsGet, h, eq_comm]
  | cons c t ih =>
    obtain ⟨x, w⟩ := c
    by_cases h : b = a
    · subst h
      by_cases h1 : b < x
      · simp [cellsSet, cellsGet, h1]
      · by_cases h2 : b = x
        · subst h2; simp [cellsSet, cellsGet]
        · simpa [cellsSet, cellsGet, h1, h2, Ne.symm h2] using ih
    · by_cases h1 : a < x
      · simp [cellsSet, cellsGet, h1, h, Ne.symm h]
      · by_cases h2 : a = x
        · subst h2; simp [cellsSet, cellsGet, h, Ne.symm h]
        · simp [cellsSet, cellsGet, h1, h2, ih, h]

theorem cellsGet_cellsErase (l : List Host.Cell) (a b : Nat) :
    cellsGet (cellsErase l a) b = if b = a then none else cellsGet l b := by
  induction l with
  | nil => simp [cellsErase, cellsGet]
  | cons c t ih =>
    obtain ⟨x, w⟩ := c
    by_cases h : b = a
    · subst h; by_cases h2 : x = b <;> simp_all [cellsErase, cellsGet]
    · by_cases h2 : x = a
      · subst h2; simp [cellsErase, cellsGet, h, ih, Ne.symm h]
      · simp [cellsErase, cellsGet, h2, h, ih]

theorem bufSet_base (m : Buffer) (a : Nat) (v : Byte) : (bufSet m a v).base = m.base := by
  unfold bufSet; split <;> rfl

/-- A read after a write: the byte written at its place, and every other byte as before. -/
theorem bufGet_bufSet (m : Buffer) (a b : Nat) (v : Byte) :
    bufGet (bufSet m a v) b = if b = a then v else bufGet m b := by
  unfold bufGet bufSet
  by_cases hz : m.base = .zero ∧ v = 0
  · rw [if_pos hz]
    simp only [cellsGet_cellsErase]
    by_cases h : b = a
    · simp [h, hz.1, hz.2, baseByte]
    · simp [h]
  · rw [if_neg hz]
    simp only [cellsGet_cellsSet]
    by_cases h : b = a <;> simp [h]

theorem bufGet_bufSet_same (m : Buffer) (a : Nat) (v : Byte) : bufGet (bufSet m a v) a = v := by
  simp [bufGet_bufSet]

theorem bufGet_bufSet_other (m : Buffer) {a b : Nat} (v : Byte) (h : b ≠ a) :
    bufGet (bufSet m a v) b = bufGet m b := by
  simp [bufGet_bufSet, h]

theorem bufSetBytes_base (m : Buffer) (a : Nat) (vs : List Byte) : (bufSetBytes m a vs).base = m.base := by
  induction vs generalizing m a with
  | nil => rfl
  | cons v vs ih => rw [bufSetBytes, ih, bufSet_base]

/-- The frame of a write of consecutive bytes. -/
theorem bufGet_bufSetBytes_other (m : Buffer) (a b : Nat) (vs : List Byte) (h : b < a ∨ a + vs.length ≤ b) :
    bufGet (bufSetBytes m a vs) b = bufGet m b := by
  induction vs generalizing m a with
  | nil => rfl
  | cons v vs ih =>
    simp only [List.length_cons] at h
    rw [bufSetBytes, ih _ _ (by omega), bufGet_bufSet_other _ _ (by omega)]

/-- A read after a write of consecutive bytes. -/
theorem bufGet_bufSetBytes_at (m : Buffer) (a k : Nat) (vs : List Byte) (h : k < vs.length) :
    bufGet (bufSetBytes m a vs) (a + k) = vs[k] := by
  induction vs generalizing m a k with
  | nil => simp at h
  | cons v vs ih =>
    cases k with
    | zero => rw [bufSetBytes, bufGet_bufSetBytes_other _ _ _ _ (by omega)]; simp [bufGet_bufSet_same]
    | succ k =>
      have := ih (bufSet m a v) (a + 1) k (by simpa using h)
      rw [bufSetBytes, show a + (k + 1) = a + 1 + k by omega, this]; rfl

@[simp] theorem bufGetBytes_length (m : Buffer) (a n : Nat) : (bufGetBytes m a n).length = n := by
  simp [bufGetBytes]

theorem bufGetBytes_getElem (m : Buffer) (a n k : Nat) (h : k < (bufGetBytes m a n).length) :
    (bufGetBytes m a n)[k] = bufGet m (a + k) := by
  simp [bufGetBytes]

/-- Two buffers that agree on a range give the same bytes of it. -/
theorem bufGetBytes_congr (m m' : Buffer) (a n : Nat) (h : ∀ b, a ≤ b → b < a + n → bufGet m b = bufGet m' b) :
    bufGetBytes m a n = bufGetBytes m' a n := by
  unfold bufGetBytes
  apply List.map_congr_left
  intro k hk
  exact h _ (by omega) (by have := List.mem_range.mp hk; omega)

/-! ### Window words -/

theorem bufStrobe_base (m : Buffer) (o : Nat) (strb : BitVec 4) (d : Word) (k : Nat) :
    (bufStrobe m o strb d k).base = m.base := by
  unfold bufStrobe; split
  · exact bufSet_base _ _ _
  · rfl

theorem bufGet_bufStrobe (m : Buffer) (o : Nat) (strb : BitVec 4) (d : Word) (k b : Nat) :
    bufGet (bufStrobe m o strb d k) b =
      if b = o + k ∧ strb.getLsbD k = true then byteAt d k else bufGet m b := by
  unfold bufStrobe
  by_cases h : strb.getLsbD k = true
  · simp [h, bufGet_bufSet]
  · simp [h]

/-- A window write stores byte `k` exactly when its strobe is set (40_host_bus.md R91). -/
theorem bufGet_bufSetWord_at (m : Buffer) (o : Nat) (strb : BitVec 4) (d : Word) (k : Nat) (h : k < 4) :
    bufGet (bufSetWord m o strb d) (o + k) = if strb.getLsbD k = true then byteAt d k else bufGet m (o + k) := by
  simp only [bufSetWord, bufGet_bufStrobe, Nat.add_left_cancel_iff]
  interval_cases k <;> simp

/-- The frame of a window write. -/
theorem bufGet_bufSetWord_other (m : Buffer) (o : Nat) (strb : BitVec 4) (d : Word) (b : Nat)
    (h : b < o ∨ o + 4 ≤ b) : bufGet (bufSetWord m o strb d) b = bufGet m b := by
  simp only [bufSetWord, bufGet_bufStrobe]
  repeat rw [if_neg (by omega)]

/-! ### The canonical form -/

theorem cellsWf_mono {base : BufBase} {lo lo' hi : Nat} {l : List Host.Cell} (h : cellsWf base lo hi l = true)
    (hle : lo' ≤ lo) : cellsWf base lo' hi l = true := by
  cases l with
  | nil => rfl
  | cons c t =>
    simp only [cellsWf, Bool.and_eq_true, decide_eq_true_eq] at h ⊢
    exact ⟨⟨⟨by omega, h.1.1.2⟩, h.1.2⟩, h.2⟩

theorem cellsSet_wf {base : BufBase} {lo hi a : Nat} {v : Byte} {l : List Host.Cell}
    (h : cellsWf base lo hi l = true) (hlo : lo ≤ a) (hhi : a < hi) (hv : listable base v = true) :
    cellsWf base lo hi (cellsSet l a v) = true := by
  induction l generalizing lo with
  | nil => simp [cellsSet, cellsWf, hlo, hhi, hv]
  | cons c t ih =>
    obtain ⟨x, w⟩ := c
    simp only [cellsWf, Bool.and_eq_true, decide_eq_true_eq] at h
    by_cases h1 : a < x
    · simp only [cellsSet, h1, if_true, cellsWf, Bool.and_eq_true, decide_eq_true_eq]
      exact ⟨⟨⟨hlo, hhi⟩, hv⟩, ⟨⟨by omega, h.1.1.2⟩, h.1.2⟩, h.2⟩
    · by_cases h2 : a = x
      · subst h2
        simp only [cellsSet, lt_irrefl, if_false, if_true, cellsWf, Bool.and_eq_true, decide_eq_true_eq]
        exact ⟨⟨⟨hlo, hhi⟩, hv⟩, h.2⟩
      · simp only [cellsSet, h1, h2, if_false, cellsWf, Bool.and_eq_true, decide_eq_true_eq]
        exact ⟨h.1, ih h.2 (by omega)⟩

theorem cellsErase_wf {base : BufBase} {lo hi : Nat} {l : List Host.Cell} (a : Nat)
    (h : cellsWf base lo hi l = true) : cellsWf base lo hi (cellsErase l a) = true := by
  induction l generalizing lo with
  | nil => rfl
  | cons c t ih =>
    obtain ⟨x, w⟩ := c
    simp only [cellsWf, Bool.and_eq_true, decide_eq_true_eq] at h
    by_cases h1 : x = a
    · simp only [cellsErase, h1, if_true]
      exact cellsWf_mono (ih h.2) (by omega)
    · simp only [cellsErase, h1, if_false, cellsWf, Bool.and_eq_true, decide_eq_true_eq]
      exact ⟨h.1, ih h.2⟩

theorem bufSet_wf {size a : Nat} {m : Buffer} (v : Byte) (h : Memory.wf size m = true) (ha : a < size) :
    Memory.wf size (bufSet m a v) = true := by
  unfold Memory.wf at h ⊢
  rw [bufSet_base]
  unfold bufSet
  by_cases hz : m.base = .zero ∧ v = 0
  · rw [if_pos hz]; exact cellsErase_wf a h
  · rw [if_neg hz]
    refine cellsSet_wf h (Nat.zero_le _) ha ?_
    unfold listable
    rcases not_and_or.mp hz with hb | hv <;> simp_all

theorem bufSetBytes_wf {size a : Nat} {m : Buffer} (vs : List Byte) (h : Memory.wf size m = true)
    (ha : a + vs.length ≤ size) : Memory.wf size (bufSetBytes m a vs) = true := by
  induction vs generalizing m a with
  | nil => exact h
  | cons v vs ih =>
    simp only [List.length_cons] at ha
    exact ih (bufSet_wf v h (by omega)) (by omega)

theorem bufStrobe_wf {size o k : Nat} {m : Buffer} (strb : BitVec 4) (d : Word) (h : Memory.wf size m = true)
    (ho : o + k < size) : Memory.wf size (bufStrobe m o strb d k) = true := by
  unfold bufStrobe
  split
  · exact bufSet_wf _ h ho
  · exact h

theorem bufSetWord_wf {size o : Nat} {m : Buffer} (strb : BitVec 4) (d : Word) (h : Memory.wf size m = true)
    (ho : o + 4 ≤ size) : Memory.wf size (bufSetWord m o strb d) = true :=
  bufStrobe_wf _ _ (bufStrobe_wf _ _ (bufStrobe_wf _ _ (bufStrobe_wf _ _ h (by omega)) (by omega)) (by omega))
    (by omega)

/-- BUF as CLEAR leaves it is in canonical form. -/
theorem zeroBuf_wf (size : Nat) : Memory.wf size { base := .zero, cells := [] } = true := rfl

/-- BUF as a reset leaves it is in canonical form. -/
theorem drawnBuf_wf (size n : Nat) : Memory.wf size { base := .drawn n, cells := [] } = true := rfl

/-- After CLEAR every byte reads as zero (45_commands.md R210). -/
theorem bufGet_zeroBuf (a : Nat) : bufGet { base := .zero, cells := [] } a = 0 := rfl

/-! ### MemRead and MemWrite -/

theorem memRead_eq {s : State} {a n : Nat} (h : a + n ≤ s.params.bufBytes) :
    memRead s a n = some (bufGetBytes s.buf a n) := if_pos h

theorem memWrite_eq {s : State} {a : Nat} {vs : List Byte} (h : a + vs.length ≤ s.params.bufBytes) :
    memWrite s a vs = some { s with buf := bufSetBytes s.buf a vs } := if_pos h

/-- Everything MemRead can do. -/
theorem memRead_cases (s : State) (a n : Nat) :
    (a + n ≤ s.params.bufBytes ∧ memRead s a n = some (bufGetBytes s.buf a n)) ∨
      (s.params.bufBytes < a + n ∧ memRead s a n = none) := by
  unfold memRead; split
  · exact .inl ⟨‹_›, rfl⟩
  · exact .inr ⟨by omega, rfl⟩

/-- Everything MemWrite can do. -/
theorem memWrite_cases (s : State) (a : Nat) (vs : List Byte) :
    (a + vs.length ≤ s.params.bufBytes ∧ memWrite s a vs = some { s with buf := bufSetBytes s.buf a vs }) ∨
      (s.params.bufBytes < a + vs.length ∧ memWrite s a vs = none) := by
  unfold memWrite; split
  · exact .inl ⟨‹_›, rfl⟩
  · exact .inr ⟨by omega, rfl⟩

end Sys2Proof.Machine
end

