-- ==== Sys2Proof/Laws/State.lean ====
section
/-! SUPPORT. Beside State: for every named update, what each field is after it. Each is true by
unfolding, so that no later proof unfolds a record update. -/

namespace Sys2Proof.Machine

/-! ### respond -/

@[simp] theorem respond_params (r : Response) (s : State) : (respond r s).params = s.params := rfl
@[simp] theorem respond_rstN (r : Response) (s : State) : (respond r s).rstN = s.rstN := rfl
@[simp] theorem respond_ctrl (r : Response) (s : State) : (respond r s).ctrl = s.ctrl := rfl
@[simp] theorem respond_status (r : Response) (s : State) : (respond r s).status = s.status := rfl
@[simp] theorem respond_aadOff (r : Response) (s : State) : (respond r s).aadOff = s.aadOff := rfl
@[simp] theorem respond_aadLen (r : Response) (s : State) : (respond r s).aadLen = s.aadLen := rfl
@[simp] theorem respond_msgOff (r : Response) (s : State) : (respond r s).msgOff = s.msgOff := rfl
@[simp] theorem respond_msgLen (r : Response) (s : State) : (respond r s).msgLen = s.msgLen := rfl
@[simp] theorem respond_outOff (r : Response) (s : State) : (respond r s).outOff = s.outOff := rfl
@[simp] theorem respond_nonce (r : Response) (s : State) : (respond r s).nonce = s.nonce := rfl
@[simp] theorem respond_key (r : Response) (s : State) : (respond r s).key = s.key := rfl
@[simp] theorem respond_hkey (r : Response) (s : State) : (respond r s).hkey = s.hkey := rfl
@[simp] theorem respond_tag (r : Response) (s : State) : (respond r s).tag = s.tag := rfl
@[simp] theorem respond_result (r : Response) (s : State) : (respond r s).result = s.result := rfl
@[simp] theorem respond_dkh (r : Response) (s : State) : (respond r s).dkh = s.dkh := rfl
@[simp] theorem respond_dke (r : Response) (s : State) : (respond r s).dke = s.dke := rfl
@[simp] theorem respond_buf (r : Response) (s : State) : (respond r s).buf = s.buf := rfl
@[simp] theorem respond_acc (r : Response) (s : State) : (respond r s).acc = s.acc := rfl
@[simp] theorem respond_hsub (r : Response) (s : State) : (respond r s).hsub = s.hsub := rfl
@[simp] theorem respond_esub (r : Response) (s : State) : (respond r s).esub = s.esub := rfl
@[simp] theorem respond_cb0 (r : Response) (s : State) : (respond r s).cb0 = s.cb0 := rfl
@[simp] theorem respond_blk (r : Response) (s : State) : (respond r s).blk = s.blk := rfl
@[simp] theorem respond_tcalc (r : Response) (s : State) : (respond r s).tcalc = s.tcalc := rfl
@[simp] theorem respond_opc (r : Response) (s : State) : (respond r s).opc = s.opc := rfl
@[simp] theorem respond_opF (r : Response) (s : State) : (respond r s).opF = s.opF := rfl
@[simp] theorem respond_optKsz (r : Response) (s : State) : (respond r s).optKsz = s.optKsz := rfl
@[simp] theorem respond_optNprof (r : Response) (s : State) : (respond r s).optNprof = s.optNprof := rfl
@[simp] theorem respond_phase (r : Response) (s : State) : (respond r s).phase = s.phase := rfl
@[simp] theorem respond_rt (r : Response) (s : State) : (respond r s).rt = s.rt := rfl
@[simp] theorem respond_bcReq (r : Response) (s : State) : (respond r s).bcReq = s.bcReq := rfl
@[simp] theorem respond_resp (r : Response) (s : State) : (respond r s).resp = r := rfl
@[simp] theorem respond_turns (r : Response) (s : State) : (respond r s).turns = s.turns := rfl
@[simp] theorem respond_answers (r : Response) (s : State) : (respond r s).answers = s.answers := rfl
@[simp] theorem respond_calls (r : Response) (s : State) : (respond r s).calls = s.calls := rfl
@[simp] theorem respond_resets (r : Response) (s : State) : (respond r s).resets = s.resets := rfl

/-! ### dropWrite -/

@[simp] theorem dropWrite_params (s : State) : (dropWrite s).params = s.params := rfl
@[simp] theorem dropWrite_rstN (s : State) : (dropWrite s).rstN = s.rstN := rfl
@[simp] theorem dropWrite_ctrl (s : State) : (dropWrite s).ctrl = s.ctrl := rfl
@[simp] theorem dropWrite_status (s : State) : (dropWrite s).status = statusBusyWrite s.status := rfl
@[simp] theorem dropWrite_aadOff (s : State) : (dropWrite s).aadOff = s.aadOff := rfl
@[simp] theorem dropWrite_aadLen (s : State) : (dropWrite s).aadLen = s.aadLen := rfl
@[simp] theorem dropWrite_msgOff (s : State) : (dropWrite s).msgOff = s.msgOff := rfl
@[simp] theorem dropWrite_msgLen (s : State) : (dropWrite s).msgLen = s.msgLen := rfl
@[simp] theorem dropWrite_outOff (s : State) : (dropWrite s).outOff = s.outOff := rfl
@[simp] theorem dropWrite_nonce (s : State) : (dropWrite s).nonce = s.nonce := rfl
@[simp] theorem dropWrite_key (s : State) : (dropWrite s).key = s.key := rfl
@[simp] theorem dropWrite_hkey (s : State) : (dropWrite s).hkey = s.hkey := rfl
@[simp] theorem dropWrite_tag (s : State) : (dropWrite s).tag = s.tag := rfl
@[simp] theorem dropWrite_result (s : State) : (dropWrite s).result = s.result := rfl
@[simp] theorem dropWrite_dkh (s : State) : (dropWrite s).dkh = s.dkh := rfl
@[simp] theorem dropWrite_dke (s : State) : (dropWrite s).dke = s.dke := rfl
@[simp] theorem dropWrite_buf (s : State) : (dropWrite s).buf = s.buf := rfl
@[simp] theorem dropWrite_acc (s : State) : (dropWrite s).acc = s.acc := rfl
@[simp] theorem dropWrite_hsub (s : State) : (dropWrite s).hsub = s.hsub := rfl
@[simp] theorem dropWrite_esub (s : State) : (dropWrite s).esub = s.esub := rfl
@[simp] theorem dropWrite_cb0 (s : State) : (dropWrite s).cb0 = s.cb0 := rfl
@[simp] theorem dropWrite_blk (s : State) : (dropWrite s).blk = s.blk := rfl
@[simp] theorem dropWrite_tcalc (s : State) : (dropWrite s).tcalc = s.tcalc := rfl
@[simp] theorem dropWrite_opc (s : State) : (dropWrite s).opc = s.opc := rfl
@[simp] theorem dropWrite_opF (s : State) : (dropWrite s).opF = s.opF := rfl
@[simp] theorem dropWrite_optKsz (s : State) : (dropWrite s).optKsz = s.optKsz := rfl
@[simp] theorem dropWrite_optNprof (s : State) : (dropWrite s).optNprof = s.optNprof := rfl
@[simp] theorem dropWrite_phase (s : State) : (dropWrite s).phase = s.phase := rfl
@[simp] theorem dropWrite_rt (s : State) : (dropWrite s).rt = s.rt := rfl
@[simp] theorem dropWrite_bcReq (s : State) : (dropWrite s).bcReq = s.bcReq := rfl
@[simp] theorem dropWrite_resp (s : State) : (dropWrite s).resp = .write false := rfl
@[simp] theorem dropWrite_turns (s : State) : (dropWrite s).turns = s.turns := rfl
@[simp] theorem dropWrite_answers (s : State) : (dropWrite s).answers = s.answers := rfl
@[simp] theorem dropWrite_calls (s : State) : (dropWrite s).calls = s.calls := rfl
@[simp] theorem dropWrite_resets (s : State) : (dropWrite s).resets = s.resets := rfl

/-! ### accept -/

@[simp] theorem accept_params (d : BitVec 32) (s : State) : (accept d s).params = s.params := rfl
@[simp] theorem accept_rstN (d : BitVec 32) (s : State) : (accept d s).rstN = s.rstN := rfl
@[simp] theorem accept_ctrl (d : BitVec 32) (s : State) : (accept d s).ctrl = s.ctrl := rfl
@[simp] theorem accept_status (d : BitVec 32) (s : State) : (accept d s).status = statusAccepted s.status := rfl
@[simp] theorem accept_aadOff (d : BitVec 32) (s : State) : (accept d s).aadOff = s.aadOff := rfl
@[simp] theorem accept_aadLen (d : BitVec 32) (s : State) : (accept d s).aadLen = s.aadLen := rfl
@[simp] theorem accept_msgOff (d : BitVec 32) (s : State) : (accept d s).msgOff = s.msgOff := rfl
@[simp] theorem accept_msgLen (d : BitVec 32) (s : State) : (accept d s).msgLen = s.msgLen := rfl
@[simp] theorem accept_outOff (d : BitVec 32) (s : State) : (accept d s).outOff = s.outOff := rfl
@[simp] theorem accept_nonce (d : BitVec 32) (s : State) : (accept d s).nonce = s.nonce := rfl
@[simp] theorem accept_key (d : BitVec 32) (s : State) : (accept d s).key = s.key := rfl
@[simp] theorem accept_hkey (d : BitVec 32) (s : State) : (accept d s).hkey = s.hkey := rfl
@[simp] theorem accept_tag (d : BitVec 32) (s : State) : (accept d s).tag = s.tag := rfl
@[simp] theorem accept_result (d : BitVec 32) (s : State) : (accept d s).result = 0 := rfl
@[simp] theorem accept_dkh (d : BitVec 32) (s : State) : (accept d s).dkh = 0 := rfl
@[simp] theorem accept_dke (d : BitVec 32) (s : State) : (accept d s).dke = 0 := rfl
@[simp] theorem accept_buf (d : BitVec 32) (s : State) : (accept d s).buf = s.buf := rfl
@[simp] theorem accept_acc (d : BitVec 32) (s : State) : (accept d s).acc = 0 := rfl
@[simp] theorem accept_hsub (d : BitVec 32) (s : State) : (accept d s).hsub = 0 := rfl
@[simp] theorem accept_esub (d : BitVec 32) (s : State) : (accept d s).esub = 0 := rfl
@[simp] theorem accept_cb0 (d : BitVec 32) (s : State) : (accept d s).cb0 = 0 := rfl
@[simp] theorem accept_blk (d : BitVec 32) (s : State) : (accept d s).blk = 0 := rfl
@[simp] theorem accept_tcalc (d : BitVec 32) (s : State) : (accept d s).tcalc = 0 := rfl
@[simp] theorem accept_opc (d : BitVec 32) (s : State) : (accept d s).opc = d.extractLsb' 0 8 := rfl
@[simp] theorem accept_opF (d : BitVec 32) (s : State) : (accept d s).opF = d.getLsbD 8 := rfl
@[simp] theorem accept_optKsz (d : BitVec 32) (s : State) : (accept d s).optKsz = s.ksz := rfl
@[simp] theorem accept_optNprof (d : BitVec 32) (s : State) : (accept d s).optNprof = s.nprof := rfl
@[simp] theorem accept_phase (d : BitVec 32) (s : State) : (accept d s).phase = s.phase := rfl
@[simp] theorem accept_rt (d : BitVec 32) (s : State) : (accept d s).rt = s.rt := rfl
@[simp] theorem accept_bcReq (d : BitVec 32) (s : State) : (accept d s).bcReq = s.bcReq := rfl
@[simp] theorem accept_resp (d : BitVec 32) (s : State) : (accept d s).resp = s.resp := rfl
@[simp] theorem accept_turns (d : BitVec 32) (s : State) : (accept d s).turns = s.turns := rfl
@[simp] theorem accept_answers (d : BitVec 32) (s : State) : (accept d s).answers = s.answers := rfl
@[simp] theorem accept_calls (d : BitVec 32) (s : State) : (accept d s).calls = s.calls := rfl
@[simp] theorem accept_resets (d : BitVec 32) (s : State) : (accept d s).resets = s.resets := rfl

/-! ### startCommand -/

@[simp] theorem startCommand_params (d : BitVec 32) (s : State) : (startCommand d s).params = s.params := rfl
@[simp] theorem startCommand_rstN (d : BitVec 32) (s : State) : (startCommand d s).rstN = s.rstN := rfl
@[simp] theorem startCommand_ctrl (d : BitVec 32) (s : State) : (startCommand d s).ctrl = s.ctrl := rfl
@[simp] theorem startCommand_status (d : BitVec 32) (s : State) : (startCommand d s).status = statusBusy (statusAccepted s.status) := rfl
@[simp] theorem startCommand_aadOff (d : BitVec 32) (s : State) : (startCommand d s).aadOff = s.aadOff := rfl
@[simp] theorem startCommand_aadLen (d : BitVec 32) (s : State) : (startCommand d s).aadLen = s.aadLen := rfl
@[simp] theorem startCommand_msgOff (d : BitVec 32) (s : State) : (startCommand d s).msgOff = s.msgOff := rfl
@[simp] theorem startCommand_msgLen (d : BitVec 32) (s : State) : (startCommand d s).msgLen = s.msgLen := rfl
@[simp] theorem startCommand_outOff (d : BitVec 32) (s : State) : (startCommand d s).outOff = s.outOff := rfl
@[simp] theorem startCommand_nonce (d : BitVec 32) (s : State) : (startCommand d s).nonce = s.nonce := rfl
@[simp] theorem startCommand_key (d : BitVec 32) (s : State) : (startCommand d s).key = s.key := rfl
@[simp] theorem startCommand_hkey (d : BitVec 32) (s : State) : (startCommand d s).hkey = s.hkey := rfl
@[simp] theorem startCommand_tag (d : BitVec 32) (s : State) : (startCommand d s).tag = s.tag := rfl
@[simp] theorem startCommand_result (d : BitVec 32) (s : State) : (startCommand d s).result = 0 := rfl
@[simp] theorem startCommand_dkh (d : BitVec 32) (s : State) : (startCommand d s).dkh = 0 := rfl
@[simp] theorem startCommand_dke (d : BitVec 32) (s : State) : (startCommand d s).dke = 0 := rfl
@[simp] theorem startCommand_buf (d : BitVec 32) (s : State) : (startCommand d s).buf = s.buf := rfl
@[simp] theorem startCommand_acc (d : BitVec 32) (s : State) : (startCommand d s).acc = 0 := rfl
@[simp] theorem startCommand_hsub (d : BitVec 32) (s : State) : (startCommand d s).hsub = 0 := rfl
@[simp] theorem startCommand_esub (d : BitVec 32) (s : State) : (startCommand d s).esub = 0 := rfl
@[simp] theorem startCommand_cb0 (d : BitVec 32) (s : State) : (startCommand d s).cb0 = 0 := rfl
@[simp] theorem startCommand_blk (d : BitVec 32) (s : State) : (startCommand d s).blk = 0 := rfl
@[simp] theorem startCommand_tcalc (d : BitVec 32) (s : State) : (startCommand d s).tcalc = 0 := rfl
@[simp] theorem startCommand_opc (d : BitVec 32) (s : State) : (startCommand d s).opc = d.extractLsb' 0 8 := rfl
@[simp] theorem startCommand_opF (d : BitVec 32) (s : State) : (startCommand d s).opF = d.getLsbD 8 := rfl
@[simp] theorem startCommand_optKsz (d : BitVec 32) (s : State) : (startCommand d s).optKsz = s.ksz := rfl
@[simp] theorem startCommand_optNprof (d : BitVec 32) (s : State) : (startCommand d s).optNprof = s.nprof := rfl
@[simp] theorem startCommand_phase (d : BitVec 32) (s : State) : (startCommand d s).phase = .started := rfl
@[simp] theorem startCommand_rt (d : BitVec 32) (s : State) : (startCommand d s).rt = s.rt := rfl
@[simp] theorem startCommand_bcReq (d : BitVec 32) (s : State) : (startCommand d s).bcReq = s.bcReq := rfl
@[simp] theorem startCommand_resp (d : BitVec 32) (s : State) : (startCommand d s).resp = s.resp := rfl
@[simp] theorem startCommand_turns (d : BitVec 32) (s : State) : (startCommand d s).turns = s.turns := rfl
@[simp] theorem startCommand_answers (d : BitVec 32) (s : State) : (startCommand d s).answers = s.answers := rfl
@[simp] theorem startCommand_calls (d : BitVec 32) (s : State) : (startCommand d s).calls = s.calls := rfl
@[simp] theorem startCommand_resets (d : BitVec 32) (s : State) : (startCommand d s).resets = s.resets := rfl

/-! ### complete -/

@[simp] theorem complete_params (o : CmdOutcome) (s : State) : (complete o s).params = s.params := rfl
@[simp] theorem complete_rstN (o : CmdOutcome) (s : State) : (complete o s).rstN = s.rstN := rfl
@[simp] theorem complete_ctrl (o : CmdOutcome) (s : State) : (complete o s).ctrl = s.ctrl := rfl
@[simp] theorem complete_status (o : CmdOutcome) (s : State) : (complete o s).status = statusCompleted o s.status := rfl
@[simp] theorem complete_aadOff (o : CmdOutcome) (s : State) : (complete o s).aadOff = s.aadOff := rfl
@[simp] theorem complete_aadLen (o : CmdOutcome) (s : State) : (complete o s).aadLen = s.aadLen := rfl
@[simp] theorem complete_msgOff (o : CmdOutcome) (s : State) : (complete o s).msgOff = s.msgOff := rfl
@[simp] theorem complete_msgLen (o : CmdOutcome) (s : State) : (complete o s).msgLen = s.msgLen := rfl
@[simp] theorem complete_outOff (o : CmdOutcome) (s : State) : (complete o s).outOff = s.outOff := rfl
@[simp] theorem complete_nonce (o : CmdOutcome) (s : State) : (complete o s).nonce = s.nonce := rfl
@[simp] theorem complete_key (o : CmdOutcome) (s : State) : (complete o s).key = if zeroizesKeys o s.opc then 0 else s.key := rfl
@[simp] theorem complete_hkey (o : CmdOutcome) (s : State) : (complete o s).hkey = if zeroizesKeys o s.opc then 0 else s.hkey := rfl
@[simp] theorem complete_tag (o : CmdOutcome) (s : State) : (complete o s).tag = s.tag := rfl
@[simp] theorem complete_result (o : CmdOutcome) (s : State) : (complete o s).result = s.result := rfl
@[simp] theorem complete_dkh (o : CmdOutcome) (s : State) : (complete o s).dkh = s.dkh := rfl
@[simp] theorem complete_dke (o : CmdOutcome) (s : State) : (complete o s).dke = s.dke := rfl
@[simp] theorem complete_buf (o : CmdOutcome) (s : State) : (complete o s).buf = s.buf := rfl
@[simp] theorem complete_acc (o : CmdOutcome) (s : State) : (complete o s).acc = 0 := rfl
@[simp] theorem complete_hsub (o : CmdOutcome) (s : State) : (complete o s).hsub = 0 := rfl
@[simp] theorem complete_esub (o : CmdOutcome) (s : State) : (complete o s).esub = 0 := rfl
@[simp] theorem complete_cb0 (o : CmdOutcome) (s : State) : (complete o s).cb0 = 0 := rfl
@[simp] theorem complete_blk (o : CmdOutcome) (s : State) : (complete o s).blk = 0 := rfl
@[simp] theorem complete_tcalc (o : CmdOutcome) (s : State) : (complete o s).tcalc = 0 := rfl
@[simp] theorem complete_opc (o : CmdOutcome) (s : State) : (complete o s).opc = s.opc := rfl
@[simp] theorem complete_opF (o : CmdOutcome) (s : State) : (complete o s).opF = s.opF := rfl
@[simp] theorem complete_optKsz (o : CmdOutcome) (s : State) : (complete o s).optKsz = s.optKsz := rfl
@[simp] theorem complete_optNprof (o : CmdOutcome) (s : State) : (complete o s).optNprof = s.optNprof := rfl
@[simp] theorem complete_phase (o : CmdOutcome) (s : State) : (complete o s).phase = .idle := rfl
@[simp] theorem complete_rt (o : CmdOutcome) (s : State) : (complete o s).rt = 0 := rfl
@[simp] theorem complete_bcReq (o : CmdOutcome) (s : State) : (complete o s).bcReq = none := rfl
@[simp] theorem complete_resp (o : CmdOutcome) (s : State) : (complete o s).resp = s.resp := rfl
@[simp] theorem complete_turns (o : CmdOutcome) (s : State) : (complete o s).turns = s.turns := rfl
@[simp] theorem complete_answers (o : CmdOutcome) (s : State) : (complete o s).answers = s.answers := rfl
@[simp] theorem complete_calls (o : CmdOutcome) (s : State) : (complete o s).calls = s.calls := rfl
@[simp] theorem complete_resets (o : CmdOutcome) (s : State) : (complete o s).resets = s.resets := rfl

/-! ### present -/

@[simp] theorem present_params (k : Key) (b : Block) (s : State) : (present k b s).params = s.params := rfl
@[simp] theorem present_rstN (k : Key) (b : Block) (s : State) : (present k b s).rstN = s.rstN := rfl
@[simp] theorem present_ctrl (k : Key) (b : Block) (s : State) : (present k b s).ctrl = s.ctrl := rfl
@[simp] theorem present_status (k : Key) (b : Block) (s : State) : (present k b s).status = s.status := rfl
@[simp] theorem present_aadOff (k : Key) (b : Block) (s : State) : (present k b s).aadOff = s.aadOff := rfl
@[simp] theorem present_aadLen (k : Key) (b : Block) (s : State) : (present k b s).aadLen = s.aadLen := rfl
@[simp] theorem present_msgOff (k : Key) (b : Block) (s : State) : (present k b s).msgOff = s.msgOff := rfl
@[simp] theorem present_msgLen (k : Key) (b : Block) (s : State) : (present k b s).msgLen = s.msgLen := rfl
@[simp] theorem present_outOff (k : Key) (b : Block) (s : State) : (present k b s).outOff = s.outOff := rfl
@[simp] theorem present_nonce (k : Key) (b : Block) (s : State) : (present k b s).nonce = s.nonce := rfl
@[simp] theorem present_key (k : Key) (b : Block) (s : State) : (present k b s).key = s.key := rfl
@[simp] theorem present_hkey (k : Key) (b : Block) (s : State) : (present k b s).hkey = s.hkey := rfl
@[simp] theorem present_tag (k : Key) (b : Block) (s : State) : (present k b s).tag = s.tag := rfl
@[simp] theorem present_result (k : Key) (b : Block) (s : State) : (present k b s).result = s.result := rfl
@[simp] theorem present_dkh (k : Key) (b : Block) (s : State) : (present k b s).dkh = s.dkh := rfl
@[simp] theorem present_dke (k : Key) (b : Block) (s : State) : (present k b s).dke = s.dke := rfl
@[simp] theorem present_buf (k : Key) (b : Block) (s : State) : (present k b s).buf = s.buf := rfl
@[simp] theorem present_acc (k : Key) (b : Block) (s : State) : (present k b s).acc = s.acc := rfl
@[simp] theorem present_hsub (k : Key) (b : Block) (s : State) : (present k b s).hsub = s.hsub := rfl
@[simp] theorem present_esub (k : Key) (b : Block) (s : State) : (present k b s).esub = s.esub := rfl
@[simp] theorem present_cb0 (k : Key) (b : Block) (s : State) : (present k b s).cb0 = s.cb0 := rfl
@[simp] theorem present_blk (k : Key) (b : Block) (s : State) : (present k b s).blk = s.blk := rfl
@[simp] theorem present_tcalc (k : Key) (b : Block) (s : State) : (present k b s).tcalc = s.tcalc := rfl
@[simp] theorem present_opc (k : Key) (b : Block) (s : State) : (present k b s).opc = s.opc := rfl
@[simp] theorem present_opF (k : Key) (b : Block) (s : State) : (present k b s).opF = s.opF := rfl
@[simp] theorem present_optKsz (k : Key) (b : Block) (s : State) : (present k b s).optKsz = s.optKsz := rfl
@[simp] theorem present_optNprof (k : Key) (b : Block) (s : State) : (present k b s).optNprof = s.optNprof := rfl
@[simp] theorem present_phase (k : Key) (b : Block) (s : State) : (present k b s).phase = s.phase := rfl
@[simp] theorem present_rt (k : Key) (b : Block) (s : State) : (present k b s).rt = s.rt := rfl
@[simp] theorem present_bcReq (k : Key) (b : Block) (s : State) : (present k b s).bcReq = some { ksz := s.optKsz, key := keyInUse s.optKsz k, block := b } := rfl
@[simp] theorem present_resp (k : Key) (b : Block) (s : State) : (present k b s).resp = s.resp := rfl
@[simp] theorem present_turns (k : Key) (b : Block) (s : State) : (present k b s).turns = s.turns := rfl
@[simp] theorem present_answers (k : Key) (b : Block) (s : State) : (present k b s).answers = s.answers := rfl
@[simp] theorem present_calls (k : Key) (b : Block) (s : State) : (present k b s).calls = s.calls := rfl
@[simp] theorem present_resets (k : Key) (b : Block) (s : State) : (present k b s).resets = s.resets := rfl

/-! ### endCall -/

@[simp] theorem endCall_params (s : State) : (endCall s).params = s.params := rfl
@[simp] theorem endCall_rstN (s : State) : (endCall s).rstN = s.rstN := rfl
@[simp] theorem endCall_ctrl (s : State) : (endCall s).ctrl = s.ctrl := rfl
@[simp] theorem endCall_status (s : State) : (endCall s).status = s.status := rfl
@[simp] theorem endCall_aadOff (s : State) : (endCall s).aadOff = s.aadOff := rfl
@[simp] theorem endCall_aadLen (s : State) : (endCall s).aadLen = s.aadLen := rfl
@[simp] theorem endCall_msgOff (s : State) : (endCall s).msgOff = s.msgOff := rfl
@[simp] theorem endCall_msgLen (s : State) : (endCall s).msgLen = s.msgLen := rfl
@[simp] theorem endCall_outOff (s : State) : (endCall s).outOff = s.outOff := rfl
@[simp] theorem endCall_nonce (s : State) : (endCall s).nonce = s.nonce := rfl
@[simp] theorem endCall_key (s : State) : (endCall s).key = s.key := rfl
@[simp] theorem endCall_hkey (s : State) : (endCall s).hkey = s.hkey := rfl
@[simp] theorem endCall_tag (s : State) : (endCall s).tag = s.tag := rfl
@[simp] theorem endCall_result (s : State) : (endCall s).result = s.result := rfl
@[simp] theorem endCall_dkh (s : State) : (endCall s).dkh = s.dkh := rfl
@[simp] theorem endCall_dke (s : State) : (endCall s).dke = s.dke := rfl
@[simp] theorem endCall_buf (s : State) : (endCall s).buf = s.buf := rfl
@[simp] theorem endCall_acc (s : State) : (endCall s).acc = s.acc := rfl
@[simp] theorem endCall_hsub (s : State) : (endCall s).hsub = s.hsub := rfl
@[simp] theorem endCall_esub (s : State) : (endCall s).esub = s.esub := rfl
@[simp] theorem endCall_cb0 (s : State) : (endCall s).cb0 = s.cb0 := rfl
@[simp] theorem endCall_blk (s : State) : (endCall s).blk = s.blk := rfl
@[simp] theorem endCall_tcalc (s : State) : (endCall s).tcalc = s.tcalc := rfl
@[simp] theorem endCall_opc (s : State) : (endCall s).opc = s.opc := rfl
@[simp] theorem endCall_opF (s : State) : (endCall s).opF = s.opF := rfl
@[simp] theorem endCall_optKsz (s : State) : (endCall s).optKsz = s.optKsz := rfl
@[simp] theorem endCall_optNprof (s : State) : (endCall s).optNprof = s.optNprof := rfl
@[simp] theorem endCall_phase (s : State) : (endCall s).phase = s.phase := rfl
@[simp] theorem endCall_rt (s : State) : (endCall s).rt = s.rt := rfl
@[simp] theorem endCall_bcReq (s : State) : (endCall s).bcReq = none := rfl
@[simp] theorem endCall_resp (s : State) : (endCall s).resp = s.resp := rfl
@[simp] theorem endCall_turns (s : State) : (endCall s).turns = s.turns := rfl
@[simp] theorem endCall_answers (s : State) : (endCall s).answers = s.answers.tail := rfl
@[simp] theorem endCall_calls (s : State) : (endCall s).calls = s.calls + 1 := rfl
@[simp] theorem endCall_resets (s : State) : (endCall s).resets = s.resets := rfl

/-! ### pvInit -/

@[simp] theorem pvInit_params (s : State) : (pvInit s).params = s.params := rfl
@[simp] theorem pvInit_rstN (s : State) : (pvInit s).rstN = s.rstN := rfl
@[simp] theorem pvInit_ctrl (s : State) : (pvInit s).ctrl = s.ctrl := rfl
@[simp] theorem pvInit_status (s : State) : (pvInit s).status = s.status := rfl
@[simp] theorem pvInit_aadOff (s : State) : (pvInit s).aadOff = s.aadOff := rfl
@[simp] theorem pvInit_aadLen (s : State) : (pvInit s).aadLen = s.aadLen := rfl
@[simp] theorem pvInit_msgOff (s : State) : (pvInit s).msgOff = s.msgOff := rfl
@[simp] theorem pvInit_msgLen (s : State) : (pvInit s).msgLen = s.msgLen := rfl
@[simp] theorem pvInit_outOff (s : State) : (pvInit s).outOff = s.outOff := rfl
@[simp] theorem pvInit_nonce (s : State) : (pvInit s).nonce = s.nonce := rfl
@[simp] theorem pvInit_key (s : State) : (pvInit s).key = s.key := rfl
@[simp] theorem pvInit_hkey (s : State) : (pvInit s).hkey = s.hkey := rfl
@[simp] theorem pvInit_tag (s : State) : (pvInit s).tag = s.tag := rfl
@[simp] theorem pvInit_result (s : State) : (pvInit s).result = s.result := rfl
@[simp] theorem pvInit_dkh (s : State) : (pvInit s).dkh = s.dkh := rfl
@[simp] theorem pvInit_dke (s : State) : (pvInit s).dke = s.dke := rfl
@[simp] theorem pvInit_buf (s : State) : (pvInit s).buf = s.buf := rfl
@[simp] theorem pvInit_acc (s : State) : (pvInit s).acc = 0 := rfl
@[simp] theorem pvInit_hsub (s : State) : (pvInit s).hsub = s.hsub := rfl
@[simp] theorem pvInit_esub (s : State) : (pvInit s).esub = s.esub := rfl
@[simp] theorem pvInit_cb0 (s : State) : (pvInit s).cb0 = s.cb0 := rfl
@[simp] theorem pvInit_blk (s : State) : (pvInit s).blk = s.blk := rfl
@[simp] theorem pvInit_tcalc (s : State) : (pvInit s).tcalc = s.tcalc := rfl
@[simp] theorem pvInit_opc (s : State) : (pvInit s).opc = s.opc := rfl
@[simp] theorem pvInit_opF (s : State) : (pvInit s).opF = s.opF := rfl
@[simp] theorem pvInit_optKsz (s : State) : (pvInit s).optKsz = s.optKsz := rfl
@[simp] theorem pvInit_optNprof (s : State) : (pvInit s).optNprof = s.optNprof := rfl
@[simp] theorem pvInit_phase (s : State) : (pvInit s).phase = s.phase := rfl
@[simp] theorem pvInit_rt (s : State) : (pvInit s).rt = s.rt := rfl
@[simp] theorem pvInit_bcReq (s : State) : (pvInit s).bcReq = s.bcReq := rfl
@[simp] theorem pvInit_resp (s : State) : (pvInit s).resp = s.resp := rfl
@[simp] theorem pvInit_turns (s : State) : (pvInit s).turns = s.turns := rfl
@[simp] theorem pvInit_answers (s : State) : (pvInit s).answers = s.answers := rfl
@[simp] theorem pvInit_calls (s : State) : (pvInit s).calls = s.calls := rfl
@[simp] theorem pvInit_resets (s : State) : (pvInit s).resets = s.resets := rfl

/-! ### pvAbsorb -/

@[simp] theorem pvAbsorb_params (x : Block) (s : State) : (pvAbsorb x s).params = s.params := rfl
@[simp] theorem pvAbsorb_rstN (x : Block) (s : State) : (pvAbsorb x s).rstN = s.rstN := rfl
@[simp] theorem pvAbsorb_ctrl (x : Block) (s : State) : (pvAbsorb x s).ctrl = s.ctrl := rfl
@[simp] theorem pvAbsorb_status (x : Block) (s : State) : (pvAbsorb x s).status = s.status := rfl
@[simp] theorem pvAbsorb_aadOff (x : Block) (s : State) : (pvAbsorb x s).aadOff = s.aadOff := rfl
@[simp] theorem pvAbsorb_aadLen (x : Block) (s : State) : (pvAbsorb x s).aadLen = s.aadLen := rfl
@[simp] theorem pvAbsorb_msgOff (x : Block) (s : State) : (pvAbsorb x s).msgOff = s.msgOff := rfl
@[simp] theorem pvAbsorb_msgLen (x : Block) (s : State) : (pvAbsorb x s).msgLen = s.msgLen := rfl
@[simp] theorem pvAbsorb_outOff (x : Block) (s : State) : (pvAbsorb x s).outOff = s.outOff := rfl
@[simp] theorem pvAbsorb_nonce (x : Block) (s : State) : (pvAbsorb x s).nonce = s.nonce := rfl
@[simp] theorem pvAbsorb_key (x : Block) (s : State) : (pvAbsorb x s).key = s.key := rfl
@[simp] theorem pvAbsorb_hkey (x : Block) (s : State) : (pvAbsorb x s).hkey = s.hkey := rfl
@[simp] theorem pvAbsorb_tag (x : Block) (s : State) : (pvAbsorb x s).tag = s.tag := rfl
@[simp] theorem pvAbsorb_result (x : Block) (s : State) : (pvAbsorb x s).result = s.result := rfl
@[simp] theorem pvAbsorb_dkh (x : Block) (s : State) : (pvAbsorb x s).dkh = s.dkh := rfl
@[simp] theorem pvAbsorb_dke (x : Block) (s : State) : (pvAbsorb x s).dke = s.dke := rfl
@[simp] theorem pvAbsorb_buf (x : Block) (s : State) : (pvAbsorb x s).buf = s.buf := rfl
@[simp] theorem pvAbsorb_acc (x : Block) (s : State) : (pvAbsorb x s).acc = dot (s.acc ^^^ x) s.hsub := rfl
@[simp] theorem pvAbsorb_hsub (x : Block) (s : State) : (pvAbsorb x s).hsub = s.hsub := rfl
@[simp] theorem pvAbsorb_esub (x : Block) (s : State) : (pvAbsorb x s).esub = s.esub := rfl
@[simp] theorem pvAbsorb_cb0 (x : Block) (s : State) : (pvAbsorb x s).cb0 = s.cb0 := rfl
@[simp] theorem pvAbsorb_blk (x : Block) (s : State) : (pvAbsorb x s).blk = s.blk := rfl
@[simp] theorem pvAbsorb_tcalc (x : Block) (s : State) : (pvAbsorb x s).tcalc = s.tcalc := rfl
@[simp] theorem pvAbsorb_opc (x : Block) (s : State) : (pvAbsorb x s).opc = s.opc := rfl
@[simp] theorem pvAbsorb_opF (x : Block) (s : State) : (pvAbsorb x s).opF = s.opF := rfl
@[simp] theorem pvAbsorb_optKsz (x : Block) (s : State) : (pvAbsorb x s).optKsz = s.optKsz := rfl
@[simp] theorem pvAbsorb_optNprof (x : Block) (s : State) : (pvAbsorb x s).optNprof = s.optNprof := rfl
@[simp] theorem pvAbsorb_phase (x : Block) (s : State) : (pvAbsorb x s).phase = s.phase := rfl
@[simp] theorem pvAbsorb_rt (x : Block) (s : State) : (pvAbsorb x s).rt = s.rt := rfl
@[simp] theorem pvAbsorb_bcReq (x : Block) (s : State) : (pvAbsorb x s).bcReq = s.bcReq := rfl
@[simp] theorem pvAbsorb_resp (x : Block) (s : State) : (pvAbsorb x s).resp = s.resp := rfl
@[simp] theorem pvAbsorb_turns (x : Block) (s : State) : (pvAbsorb x s).turns = s.turns := rfl
@[simp] theorem pvAbsorb_answers (x : Block) (s : State) : (pvAbsorb x s).answers = s.answers := rfl
@[simp] theorem pvAbsorb_calls (x : Block) (s : State) : (pvAbsorb x s).calls = s.calls := rfl
@[simp] theorem pvAbsorb_resets (x : Block) (s : State) : (pvAbsorb x s).resets = s.resets := rfl

/-! ### ctrInit -/

@[simp] theorem ctrInit_params (t : Block) (s : State) : (ctrInit t s).params = s.params := rfl
@[simp] theorem ctrInit_rstN (t : Block) (s : State) : (ctrInit t s).rstN = s.rstN := rfl
@[simp] theorem ctrInit_ctrl (t : Block) (s : State) : (ctrInit t s).ctrl = s.ctrl := rfl
@[simp] theorem ctrInit_status (t : Block) (s : State) : (ctrInit t s).status = s.status := rfl
@[simp] theorem ctrInit_aadOff (t : Block) (s : State) : (ctrInit t s).aadOff = s.aadOff := rfl
@[simp] theorem ctrInit_aadLen (t : Block) (s : State) : (ctrInit t s).aadLen = s.aadLen := rfl
@[simp] theorem ctrInit_msgOff (t : Block) (s : State) : (ctrInit t s).msgOff = s.msgOff := rfl
@[simp] theorem ctrInit_msgLen (t : Block) (s : State) : (ctrInit t s).msgLen = s.msgLen := rfl
@[simp] theorem ctrInit_outOff (t : Block) (s : State) : (ctrInit t s).outOff = s.outOff := rfl
@[simp] theorem ctrInit_nonce (t : Block) (s : State) : (ctrInit t s).nonce = s.nonce := rfl
@[simp] theorem ctrInit_key (t : Block) (s : State) : (ctrInit t s).key = s.key := rfl
@[simp] theorem ctrInit_hkey (t : Block) (s : State) : (ctrInit t s).hkey = s.hkey := rfl
@[simp] theorem ctrInit_tag (t : Block) (s : State) : (ctrInit t s).tag = s.tag := rfl
@[simp] theorem ctrInit_result (t : Block) (s : State) : (ctrInit t s).result = s.result := rfl
@[simp] theorem ctrInit_dkh (t : Block) (s : State) : (ctrInit t s).dkh = s.dkh := rfl
@[simp] theorem ctrInit_dke (t : Block) (s : State) : (ctrInit t s).dke = s.dke := rfl
@[simp] theorem ctrInit_buf (t : Block) (s : State) : (ctrInit t s).buf = s.buf := rfl
@[simp] theorem ctrInit_acc (t : Block) (s : State) : (ctrInit t s).acc = s.acc := rfl
@[simp] theorem ctrInit_hsub (t : Block) (s : State) : (ctrInit t s).hsub = s.hsub := rfl
@[simp] theorem ctrInit_esub (t : Block) (s : State) : (ctrInit t s).esub = s.esub := rfl
@[simp] theorem ctrInit_cb0 (t : Block) (s : State) : (ctrInit t s).cb0 = ctrBlock0 s.params.ctrMsb t := rfl
@[simp] theorem ctrInit_blk (t : Block) (s : State) : (ctrInit t s).blk = 0 := rfl
@[simp] theorem ctrInit_tcalc (t : Block) (s : State) : (ctrInit t s).tcalc = s.tcalc := rfl
@[simp] theorem ctrInit_opc (t : Block) (s : State) : (ctrInit t s).opc = s.opc := rfl
@[simp] theorem ctrInit_opF (t : Block) (s : State) : (ctrInit t s).opF = s.opF := rfl
@[simp] theorem ctrInit_optKsz (t : Block) (s : State) : (ctrInit t s).optKsz = s.optKsz := rfl
@[simp] theorem ctrInit_optNprof (t : Block) (s : State) : (ctrInit t s).optNprof = s.optNprof := rfl
@[simp] theorem ctrInit_phase (t : Block) (s : State) : (ctrInit t s).phase = s.phase := rfl
@[simp] theorem ctrInit_rt (t : Block) (s : State) : (ctrInit t s).rt = s.rt := rfl
@[simp] theorem ctrInit_bcReq (t : Block) (s : State) : (ctrInit t s).bcReq = s.bcReq := rfl
@[simp] theorem ctrInit_resp (t : Block) (s : State) : (ctrInit t s).resp = s.resp := rfl
@[simp] theorem ctrInit_turns (t : Block) (s : State) : (ctrInit t s).turns = s.turns := rfl
@[simp] theorem ctrInit_answers (t : Block) (s : State) : (ctrInit t s).answers = s.answers := rfl
@[simp] theorem ctrInit_calls (t : Block) (s : State) : (ctrInit t s).calls = s.calls := rfl
@[simp] theorem ctrInit_resets (t : Block) (s : State) : (ctrInit t s).resets = s.resets := rfl

/-! ### kdLoadHash -/

@[simp] theorem kdLoadHash_params (s : State) : (kdLoadHash s).params = s.params := rfl
@[simp] theorem kdLoadHash_rstN (s : State) : (kdLoadHash s).rstN = s.rstN := rfl
@[simp] theorem kdLoadHash_ctrl (s : State) : (kdLoadHash s).ctrl = s.ctrl := rfl
@[simp] theorem kdLoadHash_status (s : State) : (kdLoadHash s).status = s.status := rfl
@[simp] theorem kdLoadHash_aadOff (s : State) : (kdLoadHash s).aadOff = s.aadOff := rfl
@[simp] theorem kdLoadHash_aadLen (s : State) : (kdLoadHash s).aadLen = s.aadLen := rfl
@[simp] theorem kdLoadHash_msgOff (s : State) : (kdLoadHash s).msgOff = s.msgOff := rfl
@[simp] theorem kdLoadHash_msgLen (s : State) : (kdLoadHash s).msgLen = s.msgLen := rfl
@[simp] theorem kdLoadHash_outOff (s : State) : (kdLoadHash s).outOff = s.outOff := rfl
@[simp] theorem kdLoadHash_nonce (s : State) : (kdLoadHash s).nonce = s.nonce := rfl
@[simp] theorem kdLoadHash_key (s : State) : (kdLoadHash s).key = s.key := rfl
@[simp] theorem kdLoadHash_hkey (s : State) : (kdLoadHash s).hkey = s.hkey := rfl
@[simp] theorem kdLoadHash_tag (s : State) : (kdLoadHash s).tag = s.tag := rfl
@[simp] theorem kdLoadHash_result (s : State) : (kdLoadHash s).result = s.result := rfl
@[simp] theorem kdLoadHash_dkh (s : State) : (kdLoadHash s).dkh = s.dkh := rfl
@[simp] theorem kdLoadHash_dke (s : State) : (kdLoadHash s).dke = s.dke := rfl
@[simp] theorem kdLoadHash_buf (s : State) : (kdLoadHash s).buf = s.buf := rfl
@[simp] theorem kdLoadHash_acc (s : State) : (kdLoadHash s).acc = s.acc := rfl
@[simp] theorem kdLoadHash_hsub (s : State) : (kdLoadHash s).hsub = s.hkey := rfl
@[simp] theorem kdLoadHash_esub (s : State) : (kdLoadHash s).esub = s.esub := rfl
@[simp] theorem kdLoadHash_cb0 (s : State) : (kdLoadHash s).cb0 = s.cb0 := rfl
@[simp] theorem kdLoadHash_blk (s : State) : (kdLoadHash s).blk = s.blk := rfl
@[simp] theorem kdLoadHash_tcalc (s : State) : (kdLoadHash s).tcalc = s.tcalc := rfl
@[simp] theorem kdLoadHash_opc (s : State) : (kdLoadHash s).opc = s.opc := rfl
@[simp] theorem kdLoadHash_opF (s : State) : (kdLoadHash s).opF = s.opF := rfl
@[simp] theorem kdLoadHash_optKsz (s : State) : (kdLoadHash s).optKsz = s.optKsz := rfl
@[simp] theorem kdLoadHash_optNprof (s : State) : (kdLoadHash s).optNprof = s.optNprof := rfl
@[simp] theorem kdLoadHash_phase (s : State) : (kdLoadHash s).phase = s.phase := rfl
@[simp] theorem kdLoadHash_rt (s : State) : (kdLoadHash s).rt = s.rt := rfl
@[simp] theorem kdLoadHash_bcReq (s : State) : (kdLoadHash s).bcReq = s.bcReq := rfl
@[simp] theorem kdLoadHash_resp (s : State) : (kdLoadHash s).resp = s.resp := rfl
@[simp] theorem kdLoadHash_turns (s : State) : (kdLoadHash s).turns = s.turns := rfl
@[simp] theorem kdLoadHash_answers (s : State) : (kdLoadHash s).answers = s.answers := rfl
@[simp] theorem kdLoadHash_calls (s : State) : (kdLoadHash s).calls = s.calls := rfl
@[simp] theorem kdLoadHash_resets (s : State) : (kdLoadHash s).resets = s.resets := rfl

/-! ### kdLoad2 -/

@[simp] theorem kdLoad2_params (s : State) : (kdLoad2 s).params = s.params := rfl
@[simp] theorem kdLoad2_rstN (s : State) : (kdLoad2 s).rstN = s.rstN := rfl
@[simp] theorem kdLoad2_ctrl (s : State) : (kdLoad2 s).ctrl = s.ctrl := rfl
@[simp] theorem kdLoad2_status (s : State) : (kdLoad2 s).status = s.status := rfl
@[simp] theorem kdLoad2_aadOff (s : State) : (kdLoad2 s).aadOff = s.aadOff := rfl
@[simp] theorem kdLoad2_aadLen (s : State) : (kdLoad2 s).aadLen = s.aadLen := rfl
@[simp] theorem kdLoad2_msgOff (s : State) : (kdLoad2 s).msgOff = s.msgOff := rfl
@[simp] theorem kdLoad2_msgLen (s : State) : (kdLoad2 s).msgLen = s.msgLen := rfl
@[simp] theorem kdLoad2_outOff (s : State) : (kdLoad2 s).outOff = s.outOff := rfl
@[simp] theorem kdLoad2_nonce (s : State) : (kdLoad2 s).nonce = s.nonce := rfl
@[simp] theorem kdLoad2_key (s : State) : (kdLoad2 s).key = s.key := rfl
@[simp] theorem kdLoad2_hkey (s : State) : (kdLoad2 s).hkey = s.hkey := rfl
@[simp] theorem kdLoad2_tag (s : State) : (kdLoad2 s).tag = s.tag := rfl
@[simp] theorem kdLoad2_result (s : State) : (kdLoad2 s).result = s.result := rfl
@[simp] theorem kdLoad2_dkh (s : State) : (kdLoad2 s).dkh = s.dkh := rfl
@[simp] theorem kdLoad2_dke (s : State) : (kdLoad2 s).dke = s.dke := rfl
@[simp] theorem kdLoad2_buf (s : State) : (kdLoad2 s).buf = s.buf := rfl
@[simp] theorem kdLoad2_acc (s : State) : (kdLoad2 s).acc = s.acc := rfl
@[simp] theorem kdLoad2_hsub (s : State) : (kdLoad2 s).hsub = s.hkey := rfl
@[simp] theorem kdLoad2_esub (s : State) : (kdLoad2 s).esub = keyInUse s.optKsz s.key := rfl
@[simp] theorem kdLoad2_cb0 (s : State) : (kdLoad2 s).cb0 = s.cb0 := rfl
@[simp] theorem kdLoad2_blk (s : State) : (kdLoad2 s).blk = s.blk := rfl
@[simp] theorem kdLoad2_tcalc (s : State) : (kdLoad2 s).tcalc = s.tcalc := rfl
@[simp] theorem kdLoad2_opc (s : State) : (kdLoad2 s).opc = s.opc := rfl
@[simp] theorem kdLoad2_opF (s : State) : (kdLoad2 s).opF = s.opF := rfl
@[simp] theorem kdLoad2_optKsz (s : State) : (kdLoad2 s).optKsz = s.optKsz := rfl
@[simp] theorem kdLoad2_optNprof (s : State) : (kdLoad2 s).optNprof = s.optNprof := rfl
@[simp] theorem kdLoad2_phase (s : State) : (kdLoad2 s).phase = s.phase := rfl
@[simp] theorem kdLoad2_rt (s : State) : (kdLoad2 s).rt = s.rt := rfl
@[simp] theorem kdLoad2_bcReq (s : State) : (kdLoad2 s).bcReq = s.bcReq := rfl
@[simp] theorem kdLoad2_resp (s : State) : (kdLoad2 s).resp = s.resp := rfl
@[simp] theorem kdLoad2_turns (s : State) : (kdLoad2 s).turns = s.turns := rfl
@[simp] theorem kdLoad2_answers (s : State) : (kdLoad2 s).answers = s.answers := rfl
@[simp] theorem kdLoad2_calls (s : State) : (kdLoad2 s).calls = s.calls := rfl
@[simp] theorem kdLoad2_resets (s : State) : (kdLoad2 s).resets = s.resets := rfl

/-! ### deriveOutputs -/

@[simp] theorem deriveOutputs_params (s : State) : (deriveOutputs s).params = s.params := rfl
@[simp] theorem deriveOutputs_rstN (s : State) : (deriveOutputs s).rstN = s.rstN := rfl
@[simp] theorem deriveOutputs_ctrl (s : State) : (deriveOutputs s).ctrl = s.ctrl := rfl
@[simp] theorem deriveOutputs_status (s : State) : (deriveOutputs s).status = s.status := rfl
@[simp] theorem deriveOutputs_aadOff (s : State) : (deriveOutputs s).aadOff = s.aadOff := rfl
@[simp] theorem deriveOutputs_aadLen (s : State) : (deriveOutputs s).aadLen = s.aadLen := rfl
@[simp] theorem deriveOutputs_msgOff (s : State) : (deriveOutputs s).msgOff = s.msgOff := rfl
@[simp] theorem deriveOutputs_msgLen (s : State) : (deriveOutputs s).msgLen = s.msgLen := rfl
@[simp] theorem deriveOutputs_outOff (s : State) : (deriveOutputs s).outOff = s.outOff := rfl
@[simp] theorem deriveOutputs_nonce (s : State) : (deriveOutputs s).nonce = s.nonce := rfl
@[simp] theorem deriveOutputs_key (s : State) : (deriveOutputs s).key = s.key := rfl
@[simp] theorem deriveOutputs_hkey (s : State) : (deriveOutputs s).hkey = s.hkey := rfl
@[simp] theorem deriveOutputs_tag (s : State) : (deriveOutputs s).tag = s.tag := rfl
@[simp] theorem deriveOutputs_result (s : State) : (deriveOutputs s).result = s.result := rfl
@[simp] theorem deriveOutputs_dkh (s : State) : (deriveOutputs s).dkh = s.hsub := rfl
@[simp] theorem deriveOutputs_dke (s : State) : (deriveOutputs s).dke = s.esub := rfl
@[simp] theorem deriveOutputs_buf (s : State) : (deriveOutputs s).buf = s.buf := rfl
@[simp] theorem deriveOutputs_acc (s : State) : (deriveOutputs s).acc = s.acc := rfl
@[simp] theorem deriveOutputs_hsub (s : State) : (deriveOutputs s).hsub = s.hsub := rfl
@[simp] theorem deriveOutputs_esub (s : State) : (deriveOutputs s).esub = s.esub := rfl
@[simp] theorem deriveOutputs_cb0 (s : State) : (deriveOutputs s).cb0 = s.cb0 := rfl
@[simp] theorem deriveOutputs_blk (s : State) : (deriveOutputs s).blk = s.blk := rfl
@[simp] theorem deriveOutputs_tcalc (s : State) : (deriveOutputs s).tcalc = s.tcalc := rfl
@[simp] theorem deriveOutputs_opc (s : State) : (deriveOutputs s).opc = s.opc := rfl
@[simp] theorem deriveOutputs_opF (s : State) : (deriveOutputs s).opF = s.opF := rfl
@[simp] theorem deriveOutputs_optKsz (s : State) : (deriveOutputs s).optKsz = s.optKsz := rfl
@[simp] theorem deriveOutputs_optNprof (s : State) : (deriveOutputs s).optNprof = s.optNprof := rfl
@[simp] theorem deriveOutputs_phase (s : State) : (deriveOutputs s).phase = s.phase := rfl
@[simp] theorem deriveOutputs_rt (s : State) : (deriveOutputs s).rt = s.rt := rfl
@[simp] theorem deriveOutputs_bcReq (s : State) : (deriveOutputs s).bcReq = s.bcReq := rfl
@[simp] theorem deriveOutputs_resp (s : State) : (deriveOutputs s).resp = s.resp := rfl
@[simp] theorem deriveOutputs_turns (s : State) : (deriveOutputs s).turns = s.turns := rfl
@[simp] theorem deriveOutputs_answers (s : State) : (deriveOutputs s).answers = s.answers := rfl
@[simp] theorem deriveOutputs_calls (s : State) : (deriveOutputs s).calls = s.calls := rfl
@[simp] theorem deriveOutputs_resets (s : State) : (deriveOutputs s).resets = s.resets := rfl

/-! ### clearAll -/

@[simp] theorem clearAll_params (s : State) : (clearAll s).params = s.params := rfl
@[simp] theorem clearAll_rstN (s : State) : (clearAll s).rstN = s.rstN := rfl
@[simp] theorem clearAll_ctrl (s : State) : (clearAll s).ctrl = s.ctrl := rfl
@[simp] theorem clearAll_status (s : State) : (clearAll s).status = s.status := rfl
@[simp] theorem clearAll_aadOff (s : State) : (clearAll s).aadOff = s.aadOff := rfl
@[simp] theorem clearAll_aadLen (s : State) : (clearAll s).aadLen = s.aadLen := rfl
@[simp] theorem clearAll_msgOff (s : State) : (clearAll s).msgOff = s.msgOff := rfl
@[simp] theorem clearAll_msgLen (s : State) : (clearAll s).msgLen = s.msgLen := rfl
@[simp] theorem clearAll_outOff (s : State) : (clearAll s).outOff = s.outOff := rfl
@[simp] theorem clearAll_nonce (s : State) : (clearAll s).nonce = s.nonce := rfl
@[simp] theorem clearAll_key (s : State) : (clearAll s).key = 0 := rfl
@[simp] theorem clearAll_hkey (s : State) : (clearAll s).hkey = 0 := rfl
@[simp] theorem clearAll_tag (s : State) : (clearAll s).tag = 0 := rfl
@[simp] theorem clearAll_result (s : State) : (clearAll s).result = 0 := rfl
@[simp] theorem clearAll_dkh (s : State) : (clearAll s).dkh = 0 := rfl
@[simp] theorem clearAll_dke (s : State) : (clearAll s).dke = 0 := rfl
@[simp] theorem clearAll_buf (s : State) : (clearAll s).buf = { base := .zero, cells := [] } := rfl
@[simp] theorem clearAll_acc (s : State) : (clearAll s).acc = s.acc := rfl
@[simp] theorem clearAll_hsub (s : State) : (clearAll s).hsub = s.hsub := rfl
@[simp] theorem clearAll_esub (s : State) : (clearAll s).esub = s.esub := rfl
@[simp] theorem clearAll_cb0 (s : State) : (clearAll s).cb0 = s.cb0 := rfl
@[simp] theorem clearAll_blk (s : State) : (clearAll s).blk = s.blk := rfl
@[simp] theorem clearAll_tcalc (s : State) : (clearAll s).tcalc = s.tcalc := rfl
@[simp] theorem clearAll_opc (s : State) : (clearAll s).opc = s.opc := rfl
@[simp] theorem clearAll_opF (s : State) : (clearAll s).opF = s.opF := rfl
@[simp] theorem clearAll_optKsz (s : State) : (clearAll s).optKsz = s.optKsz := rfl
@[simp] theorem clearAll_optNprof (s : State) : (clearAll s).optNprof = s.optNprof := rfl
@[simp] theorem clearAll_phase (s : State) : (clearAll s).phase = s.phase := rfl
@[simp] theorem clearAll_rt (s : State) : (clearAll s).rt = s.rt := rfl
@[simp] theorem clearAll_bcReq (s : State) : (clearAll s).bcReq = s.bcReq := rfl
@[simp] theorem clearAll_resp (s : State) : (clearAll s).resp = s.resp := rfl
@[simp] theorem clearAll_turns (s : State) : (clearAll s).turns = s.turns := rfl
@[simp] theorem clearAll_answers (s : State) : (clearAll s).answers = s.answers := rfl
@[simp] theorem clearAll_calls (s : State) : (clearAll s).calls = s.calls := rfl
@[simp] theorem clearAll_resets (s : State) : (clearAll s).resets = s.resets := rfl

end Sys2Proof.Machine
end

