-- ==== Sys2Proof/Laws/Engine.lean ====
section
/-! SUPPORT. What the engine's turn can do, said once: the fields no micro-step touches, and the cases of a
turn that answers a next state. -/

namespace Sys2Proof.Machine

/-- The fields no engine turn touches: parameters, reset input, the host's inputs, the response, the agenda. -/
def Kept (s t : State) : Prop :=
  t.params = s.params ∧ t.rstN = s.rstN ∧ SameInputs s t ∧ t.resp = s.resp ∧ t.turns = s.turns ∧
    t.resets = s.resets

theorem Kept.refl (s : State) : Kept s s := by simp [Kept, SameInputs]

theorem Kept.trans {s t u : State} (h : Kept s t) (g : Kept t u) : Kept s u := by
  obtain ⟨h1, h2, ⟨h3, h4, h5, h6, h7, h8, h9⟩, h10, h11, h12⟩ := h
  obtain ⟨g1, g2, ⟨g3, g4, g5, g6, g7, g8, g9⟩, g10, g11, g12⟩ := g
  simp only [Kept, SameInputs, *, and_self]

theorem complete_kept (o : CmdOutcome) (s : State) : Kept s (complete o s) := by simp [Kept, SameInputs]

theorem startStep_kept (s : State) : Kept s (startStep s) := by
  unfold startStep startAead startHash
  repeat' split
  all_goals simp [Kept, SameInputs]

theorem keyedStep_kept (s : State) : Kept s (keyedStep s) := by
  unfold keyedStep; split <;> simp [Kept, SameInputs]

theorem hashMsgEnd_kept (s : State) : Kept s (hashMsgEnd s) := by
  unfold hashMsgEnd; repeat' split
  all_goals simp [Kept, SameInputs]

theorem decPass1Step_kept (c : CtrStep) (s : State) : Kept s (decPass1Step c s) := by
  unfold decPass1Step ctrPresent; repeat' split
  all_goals simp [Kept, SameInputs]

theorem taggingStep_kept (t : TagStep) (s : State) : Kept s (taggingStep t s) := by
  unfold taggingStep tgLen tgXor tgPresent; split <;> simp [Kept, SameInputs]

theorem compareStep_kept (s : State) : Kept s (compareStep s) := by
  unfold compareStep; split <;> simp [Kept, SameInputs]

theorem keystreamStep_kept (c : CtrStep) (s : State) : Kept s (keystreamStep c s) := by
  unfold keystreamStep keystreamEnd ctrPresent; repeat' split
  all_goals simp [Kept, SameInputs]

/-- Everything the absorption of a chunk can do. -/
theorem absorbChunk_cases (off len i : Nat) (p : Phase) (s : State) :
    (off + 16 * i + chunkLen len i ≤ s.params.bufBytes ∧ absorbChunk off len i p s =
        .next { pvAbsorb (packBlock (bufGetBytes s.buf (off + 16 * i) (chunkLen len i))) s with phase := p }) ∨
      (s.params.bufBytes < off + 16 * i + chunkLen len i ∧
        absorbChunk off len i p s = .fault (.bufferOutOfRange (off + 16 * i) (chunkLen len i))) := by
  unfold absorbChunk
  rcases memRead_cases s (off + 16 * i) (chunkLen len i) with ⟨h, e⟩ | ⟨h, e⟩ <;> simp [h, e]

/-- Everything CTR.BLOCK of DEC_PASS1 can do. -/
theorem ctrPass1_cases (k : Block) (s : State) :
    (s.msgOff.toNat + 16 * s.blk.toNat + chunkLen s.msgLen.toNat s.blk.toNat ≤ s.params.bufBytes ∧
      ctrPass1 k s = .next { s with
        blk := s.blk + 1
        phase := .decPass1 (.absorb (packBlock (xorChunk (bufGetBytes s.buf (s.msgOff.toNat + 16 * s.blk.toNat)
          (chunkLen s.msgLen.toNat s.blk.toNat)) k))) }) ∨
      (s.params.bufBytes < s.msgOff.toNat + 16 * s.blk.toNat + chunkLen s.msgLen.toNat s.blk.toNat ∧
        ctrPass1 k s = .fault (.bufferOutOfRange (s.msgOff.toNat + 16 * s.blk.toNat)
          (chunkLen s.msgLen.toNat s.blk.toNat))) := by
  unfold ctrPass1
  rcases memRead_cases s (s.msgOff.toNat + 16 * s.blk.toNat) (chunkLen s.msgLen.toNat s.blk.toNat) with
    ⟨h, e⟩ | ⟨h, e⟩ <;> simp [h, e]

@[simp] theorem xorChunk_length (d : List Byte) (k : Block) : (xorChunk d k).length = d.length := by
  simp [xorChunk, blockBytes]

/-- The chunk CTR.BLOCK of KEYSTREAM writes: MSG chunk BLK under the keystream block. -/
def outChunk (k : Block) (s : State) : List Byte :=
  xorChunk (bufGetBytes s.buf (s.msgOff.toNat + 16 * s.blk.toNat) (chunkLen s.msgLen.toNat s.blk.toNat)) k

@[simp] theorem outChunk_length (k : Block) (s : State) :
    (outChunk k s).length = chunkLen s.msgLen.toNat s.blk.toNat := by simp [outChunk]

/-- Everything CTR.BLOCK of KEYSTREAM can do. -/
theorem ctrWrite_cases (k : Block) (s : State) :
    (s.msgOff.toNat + 16 * s.blk.toNat + chunkLen s.msgLen.toNat s.blk.toNat ≤ s.params.bufBytes ∧
      s.outOff.toNat + 16 * s.blk.toNat + chunkLen s.msgLen.toNat s.blk.toNat ≤ s.params.bufBytes ∧
      ctrWrite k s = .next { s with
        buf := bufSetBytes s.buf (s.outOff.toNat + 16 * s.blk.toNat) (outChunk k s)
        blk := s.blk + 1 }) ∨
      ((s.params.bufBytes < s.msgOff.toNat + 16 * s.blk.toNat + chunkLen s.msgLen.toNat s.blk.toNat ∨
        s.params.bufBytes < s.outOff.toNat + 16 * s.blk.toNat + chunkLen s.msgLen.toNat s.blk.toNat) ∧
        ∃ a, ctrWrite k s = .fault (.bufferOutOfRange a (chunkLen s.msgLen.toNat s.blk.toNat))) := by
  unfold ctrWrite
  rcases memRead_cases s (s.msgOff.toNat + 16 * s.blk.toNat) (chunkLen s.msgLen.toNat s.blk.toNat) with
    ⟨h, e⟩ | ⟨h, e⟩
  · simp only [e]
    rcases memWrite_cases s (s.outOff.toNat + 16 * s.blk.toNat) (outChunk k s) with ⟨h', e'⟩ | ⟨h', e'⟩
    · refine .inl ⟨h, by simpa using h', ?_⟩
      have e2 := e'
      rw [outChunk] at e2
      rw [e2]; rfl
    · refine .inr ⟨.inr (by simpa using h'), s.outOff.toNat + 16 * s.blk.toNat, ?_⟩
      rw [outChunk] at e'
      rw [e']; simp
  · exact .inr ⟨.inl h, s.msgOff.toNat + 16 * s.blk.toNat, by simp only [e]⟩

theorem sequencerStep_kept {s t : State} (h : sequencerStep s = .next t) : Kept s t := by
  unfold sequencerStep at h
  split at h
  case h_1 => cases h; exact Kept.refl _
  case h_2 => cases h; exact startStep_kept s
  case h_3 => cases h; simp [kdPresent, Kept, SameInputs]
  case h_4 => cases h; exact keyedStep_kept s
  case h_5 i _ =>
    unfold hashAadStep at h
    split at h
    · rcases absorbChunk_cases s.aadOff.toNat s.aadLen.toNat i (.hashingAad (i + 1)) s with ⟨_, e⟩ | ⟨_, e⟩ <;>
        rw [e] at h <;> cases h
      simp [Kept, SameInputs]
    · cases h; simp [Kept, SameInputs]
  case h_6 i _ =>
    unfold hashMsgStep at h
    split at h
    · rcases absorbChunk_cases s.msgOff.toNat s.msgLen.toNat i (.hashingMsg (i + 1)) s with ⟨_, e⟩ | ⟨_, e⟩ <;>
        rw [e] at h <;> cases h
      simp [Kept, SameInputs]
    · cases h; exact hashMsgEnd_kept s
  case h_7 => cases h; simp [hashedStep, Kept, SameInputs]
  case h_8 c _ => cases h; exact decPass1Step_kept c s
  case h_9 u _ => cases h; exact taggingStep_kept u s
  case h_10 => cases h; exact compareStep_kept s
  case h_11 c _ => cases h; exact keystreamStep_kept c s
  case h_12 => cases h; simp [Kept, SameInputs]

theorem answerPass1_kept {c : CtrStep} {y : Block} {s t : State} (h : answerPass1 c y s = .next t) : Kept s t := by
  cases c with
  | init => cases h; exact Kept.refl _
  | absorb x => cases h; exact Kept.refl _
  | block =>
    rw [answerPass1] at h
    rcases ctrPass1_cases y s with ⟨_, e⟩ | ⟨_, e⟩ <;> rw [e] at h <;> cases h
    simp [Kept, SameInputs]

theorem answerTagging_kept {u : TagStep} {y : Block} {s t : State} (h : answerTagging u y s = .next t) :
    Kept s t := by
  cases u with
  | len => cases h; exact Kept.refl _
  | xor x => cases h; exact Kept.refl _
  | enc tin => cases h; simp [tgEnc, Kept, SameInputs]

theorem answerKeystream_kept {c : CtrStep} {y : Block} {s t : State} (h : answerKeystream c y s = .next t) :
    Kept s t := by
  cases c with
  | init => cases h; exact Kept.refl _
  | absorb x => cases h; exact Kept.refl _
  | block =>
    rw [answerKeystream] at h
    rcases ctrWrite_cases y s with ⟨_, _, e⟩ | ⟨_, _, e⟩ <;> rw [e] at h <;> cases h
    simp [Kept, SameInputs]

theorem takeAnswer_kept {y : Block} {s t : State} (h : takeAnswer y s = .next t) : Kept s t := by
  unfold takeAnswer at h
  split at h
  case h_3 => cases h; simp [kdStep, Kept, SameInputs]
  case h_8 => exact answerPass1_kept h
  case h_9 => exact answerTagging_kept h
  case h_11 => exact answerKeystream_kept h
  all_goals cases h; exact Kept.refl _

theorem endCall_kept (s : State) : Kept s (endCall s) := by simp [Kept, SameInputs]

theorem portAnswer_kept {r : BcRequest} {s t : State} (h : portAnswer r s = .next t) : Kept s t := by
  unfold portAnswer at h
  split at h
  · cases h; exact (endCall_kept s).trans (complete_kept _ _)
  · exact (endCall_kept s).trans (takeAnswer_kept h)

/-- The frame of the engine's turn. -/
theorem engineTurn_kept {s t : State} (h : engineTurn s = .next t) : Kept s t := by
  unfold engineTurn at h
  split at h
  · split at h
    · exact portAnswer_kept h
    · exact sequencerStep_kept h
  · cases h; exact Kept.refl _

/-! ### The subkeys (42_key_derivation.md R130) -/

/-- What a turn may do to HSUB and ESUB: nothing, a micro-step of the key derivation unit, or the zeroization of a
completion. -/
def SubkeyWrite (s t : State) : Prop :=
  (t.hsub = s.hsub ∧ t.esub = s.esub) ∨
    (∃ i ys y, s.phase = .derivingKeys i ys ∧ t.hsub = (kdStep i ys y s).hsub ∧ t.esub = (kdStep i ys y s).esub) ∨
    (s.phase = .started ∧ t.hsub = (kdLoadHash s).hsub ∧ (t.esub = s.esub ∨ t.esub = (kdLoad2 s).esub)) ∨
    (t.phase = .idle ∧ t.hsub = 0 ∧ t.esub = 0)

theorem SubkeyWrite.kept {s t : State} (h : t.hsub = s.hsub) (e : t.esub = s.esub) : SubkeyWrite s t := .inl ⟨h, e⟩

theorem complete_subkeys (o : CmdOutcome) (s u : State) : SubkeyWrite s (complete o u) :=
  .inr (.inr (.inr ⟨rfl, rfl, rfl⟩))

theorem startStep_subkeys {s : State} (hp : s.phase = .started) : SubkeyWrite s (startStep s) := by
  unfold startStep startAead startHash
  repeat' split
  all_goals first
    | exact complete_subkeys _ _ _
    | exact .kept rfl rfl
    | exact .inr (.inr (.inl ⟨hp, rfl, .inl rfl⟩))
    | exact .inr (.inr (.inl ⟨hp, rfl, .inr rfl⟩))

theorem sequencerStep_subkeys {s t : State} (h : sequencerStep s = .next t) : SubkeyWrite s t := by
  unfold sequencerStep at h
  split at h
  case h_1 => cases h; exact .kept rfl rfl
  case h_2 hp => cases h; exact startStep_subkeys hp
  case h_3 => cases h; exact .kept rfl rfl
  case h_4 =>
    cases h; unfold keyedStep; split
    · exact complete_subkeys _ _ _
    · exact .kept rfl rfl
  case h_5 i _ =>
    unfold hashAadStep at h
    split at h
    · rcases absorbChunk_cases s.aadOff.toNat s.aadLen.toNat i (.hashingAad (i + 1)) s with ⟨_, e⟩ | ⟨_, e⟩ <;>
        rw [e] at h <;> cases h
      exact .kept rfl rfl
    · cases h; exact .kept rfl rfl
  case h_6 i _ =>
    unfold hashMsgStep at h
    split at h
    · rcases absorbChunk_cases s.msgOff.toNat s.msgLen.toNat i (.hashingMsg (i + 1)) s with ⟨_, e⟩ | ⟨_, e⟩ <;>
        rw [e] at h <;> cases h
      exact .kept rfl rfl
    · cases h; unfold hashMsgEnd; repeat' split
      all_goals exact .kept rfl rfl
  case h_7 => cases h; exact complete_subkeys _ _ _
  case h_8 c _ =>
    cases h; unfold decPass1Step; repeat' split
    all_goals exact .kept rfl rfl
  case h_9 u _ => cases h; unfold taggingStep; split <;> exact .kept rfl rfl
  case h_10 =>
    cases h; unfold compareStep; split
    · exact .kept rfl rfl
    · exact complete_subkeys _ _ _
  case h_11 c _ =>
    cases h; unfold keystreamStep keystreamEnd; repeat' split
    all_goals first | exact complete_subkeys _ _ _ | exact .kept rfl rfl
  case h_12 => cases h; exact complete_subkeys _ _ _

theorem takeAnswer_subkeys {y : Block} {s t : State} (h : takeAnswer y s = .next t) : SubkeyWrite s t := by
  unfold takeAnswer at h
  split at h
  case h_3 i ys hp => cases h; exact .inr (.inl ⟨i, ys, y, hp, rfl, rfl⟩)
  case h_8 c _ =>
    cases c with
    | block =>
      rw [answerPass1] at h
      rcases ctrPass1_cases y s with ⟨_, e⟩ | ⟨_, e⟩ <;> rw [e] at h <;> cases h
      exact .kept rfl rfl
    | _ => cases h; exact .kept rfl rfl
  case h_9 c _ => cases c <;> cases h <;> exact .kept rfl rfl
  case h_11 c _ =>
    cases c with
    | block =>
      rw [answerKeystream] at h
      rcases ctrWrite_cases y s with ⟨_, _, e⟩ | ⟨_, _, e⟩ <;> rw [e] at h <;> cases h
      exact .kept rfl rfl
    | _ => cases h; exact .kept rfl rfl
  all_goals cases h; exact .kept rfl rfl

/-- R130: no engine turn writes HSUB or ESUB but by an operation of the key derivation unit and by completion. -/
theorem engineTurn_subkeys {s t : State} (h : engineTurn s = .next t) : SubkeyWrite s t := by
  unfold engineTurn at h
  split at h
  · split at h
    · unfold portAnswer at h
      split at h
      · cases h; exact complete_subkeys _ _ _
      · exact takeAnswer_subkeys (s := endCall s) h
    · exact sequencerStep_subkeys h
  · cases h; exact .kept rfl rfl

end Sys2Proof.Machine
end

