-- ==== Sys2Proof/Laws/Flags.lean ====
section
/-! SUPPORT. What STATUS shows after each named update (10_state.md R28): the bits are read through their
accessors, so that no later proof computes with the eight bits. -/

namespace Sys2Proof.Machine

theorem State.busy_congr {s t : State} (h : t.status = s.status) : t.busy = s.busy := by simp only [State.busy, h]

theorem State.done_congr {s t : State} (h : t.status = s.status) : t.done = s.done := by simp only [State.done, h]

theorem State.outcomeBits_congr {s t : State} (h : t.status = s.status) : t.outcomeBits = s.outcomeBits := by
  simp only [State.outcomeBits, h]

/-! ### Completion (45_commands.md R192) -/

@[simp] theorem complete_busy (o : CmdOutcome) (s : State) : (complete o s).busy = false := by
  simp only [State.busy, complete_status]; generalize s.status = st; cases o <;> (revert st; decide)

@[simp] theorem complete_done (o : CmdOutcome) (s : State) : (complete o s).done = true := by
  simp only [State.done, complete_status]; generalize s.status = st; cases o <;> (revert st; decide)

@[simp] theorem complete_errBusy (o : CmdOutcome) (s : State) : (complete o s).errBusy = s.errBusy := by
  simp only [State.errBusy, complete_status]; generalize s.status = st; cases o <;> (revert st; decide)

/-- The outcome bits after completion are the outcome's one, if acceptance left them clear. -/
theorem complete_outcomeBits (o : CmdOutcome) {s : State} (h : s.outcomeBits = 0) :
    (complete o s).outcomeBits = (outcomeBit o).extractLsb' 2 5 := by
  simp only [State.outcomeBits, complete_status] at h ⊢
  generalize s.status = st at h
  cases o <;> (revert st; decide)

/-- The whole of STATUS[7:0] after a command that started with its outcome bits clear. -/
theorem complete_status_eq (o : CmdOutcome) {s : State} (h : s.outcomeBits = 0) :
    (complete o s).status = (s.status &&& 0x80) ||| outcomeBit o ||| 0x02 := by
  simp only [State.outcomeBits, complete_status] at h ⊢
  generalize s.status = st at h
  cases o <;> (revert st; decide)

/-- An outcome sets at most one bit. -/
theorem outcomeBit_single (o : CmdOutcome) : (outcomeBit o).extractLsb' 2 5 = 0 ∨
    (outcomeBit o).extractLsb' 2 5 = 1 ∨ (outcomeBit o).extractLsb' 2 5 = 2 ∨
    (outcomeBit o).extractLsb' 2 5 = 4 ∨ (outcomeBit o).extractLsb' 2 5 = 8 ∨
    (outcomeBit o).extractLsb' 2 5 = 16 := by
  cases o <;> decide

/-! ### Acceptance (45_commands.md R190, R191) -/

@[simp] theorem accept_busy (d : BitVec 32) (s : State) : (accept d s).busy = s.busy := by
  simp only [State.busy, accept_status]; generalize s.status = st; revert st; decide

@[simp] theorem accept_done (d : BitVec 32) (s : State) : (accept d s).done = false := by
  simp only [State.done, accept_status]; generalize s.status = st; revert st; decide

@[simp] theorem accept_errBusy (d : BitVec 32) (s : State) : (accept d s).errBusy = s.errBusy := by
  simp only [State.errBusy, accept_status]; generalize s.status = st; revert st; decide

@[simp] theorem accept_outcomeBits (d : BitVec 32) (s : State) : (accept d s).outcomeBits = 0 := by
  simp only [State.outcomeBits, accept_status]; generalize s.status = st; revert st; decide

@[simp] theorem startCommand_busy (d : BitVec 32) (s : State) : (startCommand d s).busy = true := by
  simp only [State.busy, startCommand_status]; generalize s.status = st; revert st; decide

@[simp] theorem startCommand_done (d : BitVec 32) (s : State) : (startCommand d s).done = false := by
  simp only [State.done, startCommand_status]; generalize s.status = st; revert st; decide

@[simp] theorem startCommand_errBusy (d : BitVec 32) (s : State) : (startCommand d s).errBusy = s.errBusy := by
  simp only [State.errBusy, startCommand_status]; generalize s.status = st; revert st; decide

@[simp] theorem startCommand_outcomeBits (d : BitVec 32) (s : State) : (startCommand d s).outcomeBits = 0 := by
  simp only [State.outcomeBits, startCommand_status]; generalize s.status = st; revert st; decide

/-! ### Responses and dropped writes (40_host_bus.md R95) -/

@[simp] theorem respond_busy (r : Response) (s : State) : (respond r s).busy = s.busy := rfl

@[simp] theorem respond_done (r : Response) (s : State) : (respond r s).done = s.done := rfl

@[simp] theorem respond_outcomeBits (r : Response) (s : State) : (respond r s).outcomeBits = s.outcomeBits := rfl

@[simp] theorem dropWrite_busy (s : State) : (dropWrite s).busy = s.busy := by
  simp only [State.busy, dropWrite_status]; generalize s.status = st; revert st; decide

@[simp] theorem dropWrite_done (s : State) : (dropWrite s).done = s.done := by
  simp only [State.done, dropWrite_status]; generalize s.status = st; revert st; decide

@[simp] theorem dropWrite_errBusy (s : State) : (dropWrite s).errBusy = true := by
  simp only [State.errBusy, dropWrite_status]; generalize s.status = st; revert st; decide

@[simp] theorem dropWrite_outcomeBits (s : State) : (dropWrite s).outcomeBits = s.outcomeBits := by
  simp only [State.outcomeBits, dropWrite_status]; generalize s.status = st; revert st; decide

/-! ### W1C writes of STATUS (10_state.md R28, 40_host_bus.md R92) -/

/-- Bit `b` of STATUS after a W1C write: cleared when `1 ≤ b` and `d[b] = 1`, kept otherwise. -/
theorem statusW1C_bit (st : BitVec 8) (d : Word) (b : Nat) (hb : b < 8) :
    (statusW1C st d).getLsbD b = (st.getLsbD b && !(decide (1 ≤ b) && d.getLsbD b)) := by
  unfold statusW1C
  interval_cases b <;> simp

end Sys2Proof.Machine
end

