-- ==== Sys2Proof/Laws/Invariant.lean ====
section
/-! SUPPORT. The pieces of the machine's invariant (Safety.lean, Inv): completion establishes it, a micro-step
that does not complete keeps it under the conditions named once in Inv.advance, and each micro-step
of the sequencer meets them. -/

namespace Sys2Proof.Machine

theorem keyInUse_short {ksz : Bool} (k : Key) (h : ksz = false) : (keyInUse ksz k).extractLsb' 128 128 = 0 := by
  subst h; ext i hi; simp [keyInUse]

theorem esubOf_short {ksz : Bool} (ys : List Half) (h : ksz = false) :
    (esubOf ksz ys).extractLsb' 128 128 = 0 := by
  subst h; ext i hi; simp [esubOf]

/-- `ct_equal` decides equality (45_commands.md R206), one byte at a time. -/
theorem ctEqual_bytes {x y : Block} (h : ctEqual x y = true) : x = y := by
  simp only [ctEqual, List.range, List.range.loop, List.foldl, decide_eq_true_eq] at h
  apply BitVec.eq_of_getLsbD_eq
  intro i hi
  have hb : ∀ j, j < 16 → byteAt x j ^^^ byteAt y j = 0 := by
    intro j hj
    interval_cases j <;> simp_all
  have := congrArg (fun b => b.getLsbD (i % 8)) (hb (i / 8) (by omega))
  simp only [byteAt, BitVec.getLsbD_xor, BitVec.getLsbD_extractLsb'] at this
  have h8 : i % 8 < 8 := by omega
  rw [show 8 * (i / 8) + i % 8 = i by omega] at this
  simp_all

/-- Completion of any command establishes the invariant. -/
theorem complete_inv (o : CmdOutcome) {s : State} (hp : s.params.wf = true)
    (hb : Memory.wf s.params.bufBytes s.buf = true) (h0 : s.outcomeBits = 0)
    (hd : s.optKsz = false → s.dke.extractLsb' 128 128 = 0) : Inv (complete o s) where
  params_wf := hp
  buf_wf := hb
  busy_iff := by simp
  reset_idle := by simp
  idle_zero := by simp [HiddenZero]
  phase_fits := by simp [phaseFits, phaseOf]
  regions_fit := by simp
  request_fits := by simp
  done_idle := by simp
  busy_no_outcome := by simp
  one_outcome := by rw [complete_outcomeBits o h0]; exact outcomeBit_single o
  esub_short := by simp
  dke_short := by simpa using hd
  release_verified := by simp

theorem Inv.no_outcome {s : State} (h : Inv s) (hb : s.phase ≠ .idle) : s.outcomeBits = 0 :=
  h.busy_no_outcome (h.busy_iff.mpr hb)

theorem Inv.after_complete {s : State} (h : Inv s) (hb : s.phase ≠ .idle) (o : CmdOutcome) : Inv (complete o s) :=
  complete_inv o h.params_wf h.buf_wf (h.no_outcome hb) h.dke_short

/-- A micro-step that does not complete the command: what must be shown of it. -/
theorem Inv.advance {s t : State} (h : Inv s) (hr : s.rstN = true) (hb : s.phase ≠ .idle) (k : Kept s t)
    (hs : t.status = s.status) (hbuf : Memory.wf s.params.bufBytes t.buf = true) (hp : t.phase ≠ .idle)
    (hf : phaseFits t = true) (hreg : t.phase ≠ .started → regionsFit t = true)
    (hreq : t.bcReq = none ∨ t.bcReq = wantedRequest t)
    (he : t.optKsz = false → t.esub.extractLsb' 128 128 = 0)
    (hd : t.optKsz = false → t.dke.extractLsb' 128 128 = 0)
    (hv : t.opc = 0x02 → (∃ c, t.phase = .keystream c) → t.tcalc = t.rt) : Inv t where
  params_wf := by rw [k.1]; exact h.params_wf
  buf_wf := by rw [k.1]; exact hbuf
  busy_iff := by rw [State.busy_congr hs, h.busy_iff]; exact ⟨fun _ => hp, fun _ => hb⟩
  reset_idle := by rw [k.2.1, hr]; simp
  idle_zero := fun e => absurd e hp
  phase_fits := hf
  regions_fit := fun _ => hreg
  request_fits := hreq
  done_idle := by rw [State.busy_congr hs, State.done_congr hs]; exact h.done_idle
  busy_no_outcome := by rw [State.busy_congr hs, State.outcomeBits_congr hs]; exact h.busy_no_outcome
  one_outcome := by rw [State.outcomeBits_congr hs]; exact h.one_outcome
  esub_short := he
  dke_short := hd
  release_verified := hv

theorem regionsFit_congr {s t : State} (k : Kept s t) (ho : t.opc = s.opc) : regionsFit t = regionsFit s := by
  obtain ⟨h1, h2, ⟨h3, h4, h5, h6, h7, h8, h9⟩, h10, h11, h12⟩ := k
  simp [regionsFit, regionCheckAead, regionCheckHash, *]

/-- The region check of the command in progress, past its first micro-step. -/
theorem Inv.regions {s t : State} (h : Inv s) (hb : s.phase ≠ .idle) (hst : s.phase ≠ .started) (k : Kept s t)
    (ho : t.opc = s.opc) : t.phase ≠ .started → regionsFit t = true :=
  fun _ => (regionsFit_congr k ho).trans (h.regions_fit hb hst)

/-! ### The micro-steps without a request outstanding -/

theorem startAead_inv {s : State} (h : Inv s) (hr : s.rstN = true) (hp : s.phase = .started) (hq : s.bcReq = none)
    (ho : s.opc = 0x01 ∨ s.opc = 0x02) : Inv (startAead s) := by
  have hb : s.phase ≠ .idle := by simp [hp]
  unfold startAead
  split
  case isTrue hc =>
    have hreg : regionsFit s = true := by rcases ho with ho | ho <;> simp [regionsFit, ho, hc]
    split
    · exact h.advance hr hb (by simp [Kept, SameInputs]) rfl h.buf_wf (by simp)
        (by rcases ho with ho | ho <;> simp [phaseFits, phaseOf, readsKey, ho])
        (fun _ => (regionsFit_congr (by simp [Kept, SameInputs]) rfl).trans hreg) (by simp [hq])
        (fun e => keyInUse_short _ e) h.dke_short (by simp)
    case isFalse hF =>
      exact h.advance hr hb (by simp [Kept, SameInputs]) rfl h.buf_wf (by simp)
        (by rcases ho with ho | ho <;> cases hk : s.optKsz <;> simp_all [phaseFits, phaseOf, kdCalls])
        (fun _ => (regionsFit_congr (by simp [Kept, SameInputs]) rfl).trans hreg) (by simp [hq])
        h.esub_short h.dke_short (by simp)
  case isFalse => exact h.after_complete hb _

theorem startHash_inv {s : State} (h : Inv s) (hr : s.rstN = true) (hp : s.phase = .started) (hq : s.bcReq = none)
    (ho : s.opc = 0x04) : Inv (startHash s) := by
  have hb : s.phase ≠ .idle := by simp [hp]
  unfold startHash
  split
  case isTrue hc =>
    have hreg : regionsFit s = true := by simp [regionsFit, ho, hc]
    exact h.advance hr hb (by simp [Kept, SameInputs]) rfl h.buf_wf (by simp) (by simp [phaseFits, phaseOf, readsKey, ho])
      (fun _ => (regionsFit_congr (by simp [Kept, SameInputs]) rfl).trans hreg) (by simp [hq])
      h.esub_short h.dke_short (by simp)
  case isFalse => exact h.after_complete hb _

theorem startStep_inv {s : State} (h : Inv s) (hr : s.rstN = true) (hp : s.phase = .started) (hq : s.bcReq = none) :
    Inv (startStep s) := by
  have hb : s.phase ≠ .idle := by simp [hp]
  unfold startStep
  split
  case isTrue ho => exact startAead_inv h hr hp hq (.inl ho)
  split
  case isTrue ho => exact startAead_inv h hr hp hq (.inr ho)
  split
  case isTrue ho =>
    exact h.advance hr hb (by simp [Kept, SameInputs]) rfl h.buf_wf (by simp)
      (by cases hk : s.optKsz <;> simp [phaseFits, phaseOf, kdCalls, ho]) (fun _ => by simp [regionsFit, ho])
      (by simp [hq]) h.esub_short h.dke_short (by simp)
  split
  case isTrue ho => exact startHash_inv h hr hp hq ho
  split
  case isTrue ho =>
    exact h.advance hr hb (by simp [Kept, SameInputs]) rfl h.buf_wf (by simp) (by simp [phaseFits, phaseOf, ho])
      (fun _ => by simp [regionsFit, ho]) (by simp [hq]) h.esub_short h.dke_short (by simp)
  case isFalse => exact h.after_complete hb _

theorem present_inv {s : State} (h : Inv s) (hr : s.rstN = true) (hb : s.phase ≠ .idle) (hst : s.phase ≠ .started)
    (k : Key) (b : Block) (hw : requestOf s = some (k, b)) : Inv (present k b s) :=
  h.advance hr hb (by simp [Kept, SameInputs]) rfl h.buf_wf (by simpa using hb) h.phase_fits
    (h.regions hb hst (by simp [Kept, SameInputs]) rfl)
    (.inr (by
      have : requestOf (present k b s) = requestOf s := rfl
      simp [wantedRequest, this, hw]))
    h.esub_short h.dke_short h.release_verified

theorem keyedStep_inv {s : State} (h : Inv s) (hr : s.rstN = true) (hp : s.phase = .keyed) (hq : s.bcReq = none) :
    Inv (keyedStep s) := by
  have hb : s.phase ≠ .idle := by simp [hp]
  have hf := h.phase_fits
  simp only [phaseFits, phaseOf, hp, readsKey, Bool.or_eq_true, decide_eq_true_eq] at hf
  unfold keyedStep
  split
  · exact complete_inv _ h.params_wf h.buf_wf (h.no_outcome hb) h.esub_short
  case isFalse ho =>
    exact h.advance hr hb (by simp [Kept, SameInputs]) rfl h.buf_wf (by simp)
      (show phaseOf s.opc s.opF s.optKsz (.hashingAad 0) = true by simp [phaseOf]; tauto)
      (h.regions hb (by simp [hp]) (by simp [Kept, SameInputs]) rfl)
      (by simp [hq]) h.esub_short h.dke_short (by simp)

/-- A micro-step of a keyed command that only moves the accumulator and the position. -/
theorem Inv.move {s t : State} (h : Inv s) (hr : s.rstN = true) (hb : s.phase ≠ .idle) (hst : s.phase ≠ .started)
    (k : Kept s t) (hs : t.status = s.status) (hbuf : t.buf = s.buf) (ho : t.opc = s.opc) (hk : t.optKsz = s.optKsz)
    (hp : t.phase ≠ .idle) (hf : phaseFits t = true) (hq : t.bcReq = none) (he : t.esub = s.esub)
    (hd : t.dke = s.dke) (hv : t.opc = 0x02 → (∃ c, t.phase = .keystream c) → t.tcalc = t.rt) : Inv t :=
  h.advance hr hb k hs (by rw [hbuf]; exact h.buf_wf) hp hf (h.regions hb hst k ho) (.inl hq)
    (by rw [hk, he]; exact h.esub_short) (by rw [hk, hd]; exact h.dke_short) hv

/-- The regions of a command past its first micro-step lie in BUF. -/
theorem Inv.region_bounds {s : State} (h : Inv s) (hb : s.phase ≠ .idle) (hst : s.phase ≠ .started)
    (ho : s.opc = 0x01 ∨ s.opc = 0x02 ∨ s.opc = 0x04) :
    s.aadOff.toNat + s.aadLen.toNat ≤ s.params.bufBytes ∧ s.msgOff.toNat + s.msgLen.toNat ≤ s.params.bufBytes ∧
      (s.opc ≠ 0x04 → s.outOff.toNat + s.msgLen.toNat ≤ s.params.bufBytes) := by
  have hreg := h.regions_fit hb hst
  rcases ho with ho | ho | ho <;>
    simp [regionsFit, ho, regionCheckAead, regionCheckHash, regionValid] at hreg ⊢ <;> omega

theorem chunkLen_le {off len i size : Nat} (hi : 16 * i < len) (h : off + len ≤ size) :
    off + 16 * i + chunkLen len i ≤ size := by
  unfold chunkLen; omega

theorem hashAadStep_inv {s t : State} {i : Nat} (h : Inv s) (hr : s.rstN = true) (hp : s.phase = .hashingAad i)
    (hq : s.bcReq = none) (e : hashAadStep i s = .next t) : Inv t := by
  have hb : s.phase ≠ .idle := by simp [hp]
  have hst : s.phase ≠ .started := by simp [hp]
  have hf := h.phase_fits
  simp only [phaseFits, phaseOf, hp, Bool.or_eq_true, decide_eq_true_eq] at hf
  unfold hashAadStep at e
  split at e
  · rcases absorbChunk_cases s.aadOff.toNat s.aadLen.toNat i (.hashingAad (i + 1)) s with ⟨_, g⟩ | ⟨_, g⟩ <;>
      rw [g] at e <;> cases e
    exact h.move hr hb hst (by simp [Kept, SameInputs]) rfl rfl rfl rfl (by simp)
      (show phaseOf s.opc s.opF s.optKsz (.hashingAad (i + 1)) = true by simpa [phaseOf] using hf) hq rfl rfl
      (by simp)
  · cases e
    refine h.move hr hb hst (by simp [Kept, SameInputs]) rfl rfl rfl rfl ?_ ?_ hq rfl rfl ?_
    · dsimp only; split <;> simp
    · show phaseOf s.opc s.opF s.optKsz (if s.opc = 0x02 then .decPass1 .init else .hashingMsg 0) = true
      by_cases ho : s.opc = 0x02
      · simp [ho, phaseOf]
      · rw [if_neg ho]; simp [phaseOf]; tauto
    · rintro - ⟨c, hc⟩; dsimp only at hc; split at hc <;> simp at hc

theorem hashMsgStep_inv {s t : State} {i : Nat} (h : Inv s) (hr : s.rstN = true) (hp : s.phase = .hashingMsg i)
    (hq : s.bcReq = none) (e : hashMsgStep i s = .next t) : Inv t := by
  have hb : s.phase ≠ .idle := by simp [hp]
  have hst : s.phase ≠ .started := by simp [hp]
  have hf := h.phase_fits
  simp only [phaseFits, phaseOf, hp, Bool.or_eq_true, decide_eq_true_eq] at hf
  unfold hashMsgStep at e
  split at e
  · rcases absorbChunk_cases s.msgOff.toNat s.msgLen.toNat i (.hashingMsg (i + 1)) s with ⟨_, g⟩ | ⟨_, g⟩ <;>
      rw [g] at e <;> cases e
    exact h.move hr hb hst (by simp [Kept, SameInputs]) rfl rfl rfl rfl (by simp)
      (show phaseOf s.opc s.opF s.optKsz (.hashingMsg (i + 1)) = true by simpa [phaseOf] using hf) hq rfl rfl
      (by simp)
  · cases e
    unfold hashMsgEnd
    split
    case isTrue ho =>
      split <;> exact h.move hr hb hst (by simp [Kept, SameInputs]) rfl rfl rfl rfl (by simp)
        (by simp [phaseFits, phaseOf, ho]) hq rfl rfl (by simp)
    case isFalse ho =>
      exact h.move hr hb hst (by simp [Kept, SameInputs]) rfl rfl rfl rfl (by simp)
        (show phaseOf s.opc s.opF s.optKsz (.tagging .len) = true by simp [phaseOf]; tauto) hq rfl rfl (by simp)

theorem decPass1Step_inv {s : State} {c : CtrStep} (h : Inv s) (hr : s.rstN = true) (hp : s.phase = .decPass1 c)
    (hq : s.bcReq = none) : Inv (decPass1Step c s) := by
  have hb : s.phase ≠ .idle := by simp [hp]
  have hst : s.phase ≠ .started := by simp [hp]
  have hf := h.phase_fits
  simp only [phaseFits, phaseOf, hp, decide_eq_true_eq] at hf
  cases c with
  | init =>
    exact h.move hr hb hst (by simp [decPass1Step, Kept, SameInputs]) rfl rfl rfl rfl (by simp [decPass1Step])
      (by simp [decPass1Step, phaseFits, phaseOf, hf]) hq rfl rfl (by simp [decPass1Step])
  | absorb x =>
    exact h.move hr hb hst (by simp [decPass1Step, Kept, SameInputs]) rfl rfl rfl rfl (by simp [decPass1Step])
      (by simp [decPass1Step, phaseFits, phaseOf, hf]) hq rfl rfl (by simp [decPass1Step])
  | block =>
    unfold decPass1Step
    dsimp only
    split
    case isTrue hl => exact present_inv h hr hb hst _ _ (by simp [requestOf, hp, requestOfCtr, hl])
    case isFalse =>
      exact h.move hr hb hst (by simp [Kept, SameInputs]) rfl rfl rfl rfl (by simp) (by simp [phaseFits, phaseOf, hf]) hq
        rfl rfl (by simp)

theorem taggingStep_inv {s : State} {u : TagStep} (h : Inv s) (hr : s.rstN = true) (hp : s.phase = .tagging u)
    (hq : s.bcReq = none) : Inv (taggingStep u s) := by
  have hb : s.phase ≠ .idle := by simp [hp]
  have hst : s.phase ≠ .started := by simp [hp]
  have hf := h.phase_fits
  simp only [phaseFits, phaseOf, hp] at hf
  cases u with
  | len =>
    exact h.move hr hb hst (by simp [taggingStep, tgLen, Kept, SameInputs]) rfl rfl rfl rfl
      (by simp [taggingStep, tgLen]) hf hq rfl rfl (by simp [taggingStep, tgLen])
  | xor x =>
    exact h.move hr hb hst (by simp [taggingStep, tgXor, Kept, SameInputs]) rfl rfl rfl rfl
      (by simp [taggingStep, tgXor]) hf hq rfl rfl (by simp [taggingStep, tgXor])
  | enc tin => exact present_inv h hr hb hst _ _ (by simp [requestOf, hp, requestOfTag])

theorem compareStep_inv {s : State} (h : Inv s) (hr : s.rstN = true) (hp : s.phase = .comparing)
    (hq : s.bcReq = none) : Inv (compareStep s) := by
  have hb : s.phase ≠ .idle := by simp [hp]
  have hst : s.phase ≠ .started := by simp [hp]
  have hf := h.phase_fits
  simp only [phaseFits, phaseOf, hp, decide_eq_true_eq] at hf
  unfold compareStep
  split
  case isTrue hc =>
    exact h.move hr hb hst (by simp [Kept, SameInputs]) rfl rfl rfl rfl (by simp)
      (by simp [phaseFits, phaseOf, hf, keystreamPosition]) hq rfl rfl (fun _ _ => ctEqual_bytes hc)
  case isFalse => exact h.after_complete hb _

theorem keystreamStep_inv {s : State} {c : CtrStep} (h : Inv s) (hr : s.rstN = true) (hp : s.phase = .keystream c)
    (hq : s.bcReq = none) : Inv (keystreamStep c s) := by
  have hb : s.phase ≠ .idle := by simp [hp]
  have hst : s.phase ≠ .started := by simp [hp]
  have hf := h.phase_fits
  simp only [phaseFits, phaseOf, hp, Bool.and_eq_true] at hf
  have hv : s.opc = 0x02 → s.tcalc = s.rt := fun e => h.release_verified e ⟨c, hp⟩
  cases c with
  | init =>
    exact h.move hr hb hst (by simp [keystreamStep, Kept, SameInputs]) rfl rfl rfl rfl (by simp [keystreamStep])
      (show phaseOf s.opc s.opF s.optKsz (.keystream .block) = true by
        simpa [phaseOf, keystreamPosition] using hf.1) hq rfl rfl
      (fun e _ => hv e)
  | absorb x => simp [keystreamPosition] at hf
  | block =>
    unfold keystreamStep
    dsimp only
    split
    case isTrue hl => exact present_inv h hr hb hst _ _ (by simp [requestOf, hp, requestOfCtr, hl])
    case isFalse =>
      unfold keystreamEnd
      split
      · exact h.after_complete hb _
      · exact complete_inv _ h.params_wf h.buf_wf (h.no_outcome hb) h.dke_short

/-- The invariant after a micro-step with no request outstanding. -/
theorem sequencerStep_inv {s t : State} (h : Inv s) (hr : s.rstN = true) (hq : s.bcReq = none)
    (e : sequencerStep s = .next t) : Inv t := by
  unfold sequencerStep at e
  split at e
  case h_1 hp => cases e; exact h
  case h_2 hp => cases e; exact startStep_inv h hr hp hq
  case h_3 i ys hp =>
    cases e
    exact present_inv h hr (by simp [hp]) (by simp [hp]) _ _ (by simp [requestOf, hp])
  case h_4 hp => cases e; exact keyedStep_inv h hr hp hq
  case h_5 i hp => exact hashAadStep_inv h hr hp hq e
  case h_6 i hp => exact hashMsgStep_inv h hr hp hq e
  case h_7 hp =>
    cases e
    exact complete_inv _ h.params_wf h.buf_wf (h.no_outcome (by simp [hp])) h.dke_short
  case h_8 c hp => cases e; exact decPass1Step_inv h hr hp hq
  case h_9 u hp => cases e; exact taggingStep_inv h hr hp hq
  case h_10 hp => cases e; exact compareStep_inv h hr hp hq
  case h_11 c hp => cases e; exact keystreamStep_inv h hr hp hq
  case h_12 hp =>
    cases e
    exact complete_inv _ h.params_wf (zeroBuf_wf _) (h.no_outcome (by simp [hp])) (by simp)

/-! ### The port's answer -/

theorem kdStep_inv {s : State} {i : Nat} {ys : List Half} (y : Block) (h : Inv s) (hr : s.rstN = true)
    (hp : s.phase = .derivingKeys i ys) (hq : s.bcReq = none) : Inv (kdStep i ys y s) := by
  have hb : s.phase ≠ .idle := by simp [hp]
  have hst : s.phase ≠ .started := by simp [hp]
  have hf := h.phase_fits
  simp only [phaseFits, phaseOf, hp, Bool.or_eq_true, Bool.and_eq_true, decide_eq_true_eq] at hf
  have hk : Kept s (kdStep i ys y s) := by simp [kdStep, Kept, SameInputs]
  refine h.advance hr hb hk rfl h.buf_wf ?_ ?_ (h.regions hb hst hk rfl) (.inl hq) ?_ h.dke_short ?_
  · unfold kdStep; dsimp only; split <;> simp
  · show phaseOf s.opc s.opF s.optKsz
      (if i + 1 = kdCalls s.optKsz then .keyed else .derivingKeys (i + 1) (ys ++ [lowHalf y])) = true
    obtain ⟨⟨ho, hi⟩, hl⟩ := hf
    split
    · simp [phaseOf, readsKey]; tauto
    · simp only [phaseOf, Bool.or_eq_true, Bool.and_eq_true, decide_eq_true_eq, List.length_append,
        List.length_singleton]
      exact ⟨⟨ho, by omega⟩, by omega⟩
  · intro e
    show (if i + 1 = kdCalls s.optKsz then esubOf s.optKsz (ys ++ [lowHalf y]) else s.esub).extractLsb' 128 128 = 0
    split
    · exact esubOf_short _ e
    · exact h.esub_short e
  · rintro - ⟨c, hc⟩
    unfold kdStep at hc; dsimp only at hc; split at hc <;> simp at hc

/-- The sequencer's taking of an answer keeps the invariant, with a request of its phase just answered. -/
theorem takeAnswer_inv {s t : State} {y : Block} (h : Inv s) (hr : s.rstN = true) (hq : s.bcReq = none)
    (e : takeAnswer y s = .next t) : Inv t := by
  unfold takeAnswer at e
  split at e
  case h_3 i ys hp => cases e; exact kdStep_inv y h hr hp hq
  case h_8 c hp =>
    have hb : s.phase ≠ .idle := by simp [hp]
    have hst : s.phase ≠ .started := by simp [hp]
    have hf := h.phase_fits
    simp only [phaseFits, phaseOf, hp, decide_eq_true_eq] at hf
    cases c with
    | init => cases e; exact h
    | absorb x => cases e; exact h
    | block =>
      rw [answerPass1] at e
      rcases ctrPass1_cases y s with ⟨_, g⟩ | ⟨_, g⟩ <;> rw [g] at e <;> cases e
      exact h.move hr hb hst (by simp [Kept, SameInputs]) rfl rfl rfl rfl (by simp)
        (by simp [phaseFits, phaseOf, hf]) hq rfl rfl (by simp)
  case h_9 u hp =>
    have hb : s.phase ≠ .idle := by simp [hp]
    have hst : s.phase ≠ .started := by simp [hp]
    have hf := h.phase_fits
    simp only [phaseFits, phaseOf, hp, Bool.or_eq_true, decide_eq_true_eq] at hf
    cases u with
    | len => cases e; exact h
    | xor x => cases e; exact h
    | enc tin =>
      cases e
      refine h.move hr hb hst (by simp [tgEnc, Kept, SameInputs]) rfl rfl rfl rfl ?_ ?_ hq rfl rfl ?_
      · unfold tgEnc; dsimp only; split <;> simp
      · show phaseOf s.opc s.opF s.optKsz (if s.opc = 0x02 then .comparing else .keystream .init) = true
        rcases hf with ho | ho <;> simp [ho, phaseOf, keystreamPosition]
      · intro ho
        rintro ⟨c, hc⟩
        have ho' : s.opc = 0x02 := ho
        simp [tgEnc, ho'] at hc
  case h_11 c hp =>
    have hb : s.phase ≠ .idle := by simp [hp]
    have hst : s.phase ≠ .started := by simp [hp]
    cases c with
    | init => cases e; exact h
    | absorb x => cases e; exact h
    | block =>
      rw [answerKeystream] at e
      rcases ctrWrite_cases y s with ⟨_, hle, g⟩ | ⟨_, _, g⟩ <;> rw [g] at e <;> cases e
      exact h.advance hr hb (by simp [Kept, SameInputs]) rfl
        (bufSetBytes_wf _ h.buf_wf (by simpa using hle)) hb h.phase_fits
        (h.regions hb hst (by simp [Kept, SameInputs]) rfl) (.inl hq) h.esub_short h.dke_short h.release_verified
  all_goals cases e; exact h

theorem endCall_inv {s : State} (h : Inv s) : Inv (endCall s) where
  params_wf := h.params_wf
  buf_wf := h.buf_wf
  busy_iff := h.busy_iff
  reset_idle := h.reset_idle
  idle_zero := h.idle_zero
  phase_fits := h.phase_fits
  regions_fit := h.regions_fit
  request_fits := .inl rfl
  done_idle := h.done_idle
  busy_no_outcome := h.busy_no_outcome
  one_outcome := h.one_outcome
  esub_short := h.esub_short
  dke_short := h.dke_short
  release_verified := h.release_verified

/-- With a request outstanding a command is in progress, and not at its first micro-step. -/
theorem Inv.request_busy {s : State} {r : BcRequest} (h : Inv s) (hq : s.bcReq = some r) :
    s.phase ≠ .idle ∧ s.phase ≠ .started := by
  have := h.request_fits
  rw [hq] at this
  refine ⟨fun e => ?_, fun e => ?_⟩ <;> simp [wantedRequest, requestOf, e] at this

theorem portAnswer_inv {s t : State} {r : BcRequest} (h : Inv s) (hr : s.rstN = true) (hq : s.bcReq = some r)
    (e : portAnswer r s = .next t) : Inv t := by
  unfold portAnswer at e
  split at e
  · cases e; exact (endCall_inv h).after_complete (h.request_busy hq).1 _
  · exact takeAnswer_inv (endCall_inv h) hr rfl e

/-- The engine's turn keeps the invariant. -/
theorem engineTurn_inv {s t : State} (h : Inv s) (e : engineTurn s = .next t) : Inv t := by
  unfold engineTurn at e
  split at e
  case isTrue hr =>
    split at e
    case h_1 r hq => exact portAnswer_inv h hr hq e
    case h_2 hq => exact sequencerStep_inv h hr hq e
  case isFalse => cases e; exact h

end Sys2Proof.Machine
end

