-- ==== Sys2Proof/Laws/Bus.lean ====
section
/-! SUPPORT. What the host's instructions can do, said once: the targets of an offset, the cases of a command
word and of a write, and that each keeps the invariant. -/

namespace Sys2Proof.Machine

/-! ### Targets (20_memory.md R51, R55, R56) -/

theorem low2_zero_iff (a : BitVec 16) : a.extractLsb' 0 2 = 0 ↔ a.toNat % 4 = 0 := by
  rw [← BitVec.toNat_inj]; simp

/-- A window target is a whole word of BUF. -/
theorem targetOf_buf {p : Params} {a : BitVec 16} {o : Nat} (h : targetOf p a = .buf o) :
    o + 4 ≤ p.bufBytes ∧ a.toNat = windowBase + o ∧ o % 4 = 0 := by
  have hw : windowBase = 4 * 0x2000 := rfl
  have hb : p.bufBytes = 16 * p.bufBlocks := rfl
  unfold targetOf at h
  by_cases hz : a.extractLsb' 0 2 = 0
  · have hz' := (low2_zero_iff a).mp hz
    rw [if_neg (by simpa using hz)] at h
    by_cases hn : a.toNat < windowBase
    · rw [if_pos hn] at h
      cases hr : regAt a.toNat <;> rw [hr] at h <;> cases h
    · rw [if_neg hn] at h
      by_cases hlt : a.toNat - windowBase < p.bufBytes
      · rw [if_pos hlt] at h
        injection h with h
        omega
      · rw [if_neg hlt] at h; cases h
  · rw [if_pos hz] at h; cases h

theorem targetOf_window {p : Params} {a : BitVec 16} {o : Nat} (ha : a.toNat = windowBase + o) (h4 : o % 4 = 0)
    (ho : o < p.bufBytes) : targetOf p a = .buf o := by
  have hw : windowBase = 4 * 0x2000 := rfl
  have hz : a.extractLsb' 0 2 = 0 := (low2_zero_iff a).mpr (by omega)
  have hn : ¬ a.toNat < windowBase := by omega
  have hlt : a.toNat - windowBase < p.bufBytes := by omega
  unfold targetOf
  rw [if_neg (by simpa using hz), if_neg hn, if_pos hlt, show a.toNat - windowBase = o by omega]

/-- Every entry of the register map is a register target. -/
theorem targetOf_reg (p : Params) (e : Nat × Reg) (h : e ∈ regMap) :
    targetOf p (BitVec.ofNat 16 e.1) = .reg e.2 := by
  revert e
  simp only [regMap, List.cons_append, List.nil_append, List.forall_mem_cons]
  repeat' apply And.intro
  all_goals first | rfl | simp

theorem regLookup_mem {a : Nat} {r : Reg} {l : List (Nat × Reg)} (h : regLookup a l = some r) : (a, r) ∈ l := by
  induction l with
  | nil => cases h
  | cons e t ih =>
    obtain ⟨o, q⟩ := e
    rw [regLookup] at h
    split at h
    · next ho => cases h; exact ho ▸ List.mem_cons_self
    · exact List.mem_cons_of_mem _ (ih h)

/-- A register target is an entry of the register map. -/
theorem targetOf_reg_mem {p : Params} {a : BitVec 16} {r : Reg} (h : targetOf p a = .reg r) :
    (a.toNat, r) ∈ regMap := by
  unfold targetOf at h
  repeat' split at h
  all_goals first | (cases h; exact regLookup_mem ‹_›) | cases h

theorem regLookup_none {a : Nat} {l : List (Nat × Reg)} (h : ∀ e ∈ l, e.1 ≠ a) : regLookup a l = none := by
  induction l with
  | nil => rfl
  | cons e t ih =>
    obtain ⟨o, r⟩ := e
    rw [regLookup, if_neg (h (o, r) (by simp)), ih (fun e he => h e (by simp [he]))]

/-- Misaligned and unmapped offsets are no targets. -/
theorem targetOf_error {p : Params} {a : BitVec 16}
    (h : a.toNat % 4 ≠ 0 ∨ (a.toNat < windowBase ∧ ∀ e ∈ regMap, e.1 ≠ a.toNat) ∨ windowBase + p.bufBytes ≤ a.toNat) :
    targetOf p a = .error := by
  unfold targetOf
  by_cases hz : a.extractLsb' 0 2 = 0
  · have hz' := (low2_zero_iff a).mp hz
    rw [if_neg (not_not.mpr hz)]
    rcases h with h | ⟨hlt, h⟩ | h
    · omega
    · rw [if_pos hlt, regAt, regLookup_none h]
    · rw [if_neg (by omega), if_neg (by omega)]
  · rw [if_pos hz]

/-! ### Commands -/

/-- A transaction word with W = 1 is the word of the fields it decodes to. -/
theorem transactionWord_fields {ht : BitVec 53} (h : ht.getLsbD 52 = true) :
    ht = transactionWord true (ht.extractLsb' 36 16) (ht.extractLsb' 32 4) (ht.extractLsb' 0 32) := by
  apply BitVec.eq_of_getLsbD_eq
  intro i hi
  simp only [transactionWord, BitVec.getLsbD_append, BitVec.getLsbD_extractLsb']
  interval_cases i <;> simp
  simpa using h

theorem submitWith_busy {k : State → State} {s : State} (h : s.busy = true) :
    submitWith k s = .next (dropWrite s) := by simp [submitWith, h]

theorem submitWith_idle {k : State → State} {s : State} (h : s.busy = false) :
    submitWith k s = .next (respond (.write false) (k s)) := by simp [submitWith, h]

theorem commandWord_op (op : BitVec 8) (f : Bool) : (commandWord op f).extractLsb' 0 8 = op := by
  revert op f; decide

theorem commandWord_f (op : BitVec 8) (f : Bool) : (commandWord op f).getLsbD 8 = f := by
  revert op f; decide

/-- Everything a command word can do. -/
theorem submitCommand_cases (d : BitVec 32) (s : State) :
    (s.busy = true ∧ submitCommand d s = .next (dropWrite s)) ∨
      (s.busy = false ∧
        ((∃ o c, submitCommand d s = .next (respond (.write false) (complete o (accept c s)))) ∨
          ∃ c, multiStep (c.extractLsb' 0 8) = true ∧
            submitCommand d s = .next (respond (.write false) (startCommand c s)))) := by
  cases hb : s.busy with
  | true =>
    refine .inl ⟨rfl, ?_⟩
    unfold submitCommand
    split <;> exact submitWith_busy hb
  | false =>
    refine .inr ⟨rfl, ?_⟩
    unfold submitCommand
    split
    · exact .inl ⟨.ok, _, submitWith_idle hb⟩
    · exact .inr ⟨_, by rw [commandWord_op]; decide, submitWith_idle hb⟩
    · exact .inr ⟨_, by rw [commandWord_op]; decide, submitWith_idle hb⟩
    · exact .inr ⟨_, by decide, submitWith_idle hb⟩
    · exact .inr ⟨_, by rw [commandWord_op]; decide, submitWith_idle hb⟩
    · exact .inr ⟨_, by decide, submitWith_idle hb⟩
    all_goals exact .inl ⟨.illegalCommand, _, submitWith_idle hb⟩

/-- Everything a write can do: the error response, a dropped write, a command word, a register write, a window
write. -/
theorem execWr_cases (a : BitVec 16) (strb : BitVec 4) (d : Word) (s : State) :
    execWr a strb d s = .next (writeError s) ∨
      (s.busy = true ∧ execWr a strb d s = .next (dropWrite s)) ∨
      (s.busy = false ∧ execWr a strb d s = submitCommand d s) ∨
      (s.busy = false ∧ ∃ r, r ≠ .cmd ∧ execWr a strb d s = .next (respond (.write false) (writeReg d s r))) ∨
      (s.busy = false ∧ ∃ o, o + 4 ≤ s.params.bufBytes ∧ execWr a strb d s = .next (writeBuf o strb d s)) := by
  unfold execWr
  cases ht : targetOf s.params a with
  | error => exact .inl rfl
  | reg r =>
    dsimp only
    split
    · exact .inl rfl
    · cases hb : s.busy with
      | true => exact .inr (.inl ⟨by simp, rfl⟩)
      | false =>
        simp only [Bool.false_eq_true, if_false]
        unfold writeEffect
        by_cases hr : r = .cmd
        · rw [if_pos hr]; exact .inr (.inr (.inl ⟨by simp, rfl⟩))
        · rw [if_neg hr]; exact .inr (.inr (.inr (.inl ⟨by simp, r, hr, rfl⟩)))
  | buf o =>
    dsimp only
    cases hb : s.busy with
    | true => exact .inr (.inl ⟨by simp, rfl⟩)
    | false =>
      simp only [Bool.false_eq_true, if_false]
      exact .inr (.inr (.inr (.inr ⟨by simp, o, (targetOf_buf ht).1, rfl⟩)))

/-! ### The invariant -/

theorem Inv.after_respond {s : State} (h : Inv s) (r : Response) : Inv (respond r s) where
  params_wf := h.params_wf
  buf_wf := h.buf_wf
  busy_iff := h.busy_iff
  reset_idle := h.reset_idle
  idle_zero := h.idle_zero
  phase_fits := h.phase_fits
  regions_fit := h.regions_fit
  request_fits := h.request_fits
  done_idle := h.done_idle
  busy_no_outcome := h.busy_no_outcome
  one_outcome := h.one_outcome
  esub_short := h.esub_short
  dke_short := h.dke_short
  release_verified := h.release_verified

theorem Inv.after_drop {s : State} (h : Inv s) : Inv (dropWrite s) where
  params_wf := h.params_wf
  buf_wf := h.buf_wf
  busy_iff := by rw [dropWrite_busy]; exact h.busy_iff
  reset_idle := h.reset_idle
  idle_zero := h.idle_zero
  phase_fits := h.phase_fits
  regions_fit := h.regions_fit
  request_fits := h.request_fits
  done_idle := by rw [dropWrite_busy, dropWrite_done]; exact h.done_idle
  busy_no_outcome := by rw [dropWrite_busy, dropWrite_outcomeBits]; exact h.busy_no_outcome
  one_outcome := by rw [dropWrite_outcomeBits]; exact h.one_outcome
  esub_short := h.esub_short
  dke_short := h.dke_short
  release_verified := h.release_verified

theorem Inv.idle {s : State} (h : Inv s) (hb : s.busy = false) : s.phase = .idle := by
  by_contra hp; rw [h.busy_iff.mpr hp] at hb; cases hb

theorem Inv.idle_request {s : State} (h : Inv s) (hb : s.busy = false) : s.bcReq = none := by
  rcases h.request_fits with e | e
  · exact e
  · rw [e]; simp [wantedRequest, requestOf, h.idle hb]

/-- A command that completes in its acceptance step (45_commands.md R209, R211). -/
theorem Inv.after_acceptComplete {s : State} (h : Inv s) (o : CmdOutcome) (d : BitVec 32) :
    Inv (complete o (accept d s)) :=
  complete_inv o h.params_wf h.buf_wf (accept_outcomeBits d s) (by simp)

/-- The acceptance of a multi-step command (R190). -/
theorem Inv.after_start {s : State} (h : Inv s) (hr : s.rstN = true) (hb : s.busy = false) (d : BitVec 32)
    (hm : multiStep (d.extractLsb' 0 8) = true) : Inv (startCommand d s) where
  params_wf := h.params_wf
  buf_wf := h.buf_wf
  busy_iff := by simp
  reset_idle := by simp [hr]
  idle_zero := by simp
  phase_fits := hm
  regions_fit := by simp
  request_fits := .inl (h.idle_request hb)
  done_idle := by simp
  busy_no_outcome := by simp
  one_outcome := by simp
  esub_short := by simp
  dke_short := by simp
  release_verified := by simp

theorem submitCommand_inv {s t : State} {d : BitVec 32} (h : Inv s) (hr : s.rstN = true)
    (e : submitCommand d s = .next t) : Inv t := by
  rcases submitCommand_cases d s with ⟨_, g⟩ | ⟨hb, ⟨o, c, g⟩ | ⟨c, hm, g⟩⟩ <;> rw [g] at e <;> cases e
  · exact h.after_drop
  · exact (h.after_acceptComplete o c).after_respond _
  · exact (h.after_start hr hb c hm).after_respond _

/-- What a register write keeps. -/
theorem writeReg_kept (d : Word) (s : State) (r : Reg) :
    (writeReg d s r).params = s.params ∧ (writeReg d s r).buf = s.buf ∧ (writeReg d s r).rstN = s.rstN ∧
      (writeReg d s r).phase = s.phase ∧ (writeReg d s r).bcReq = s.bcReq ∧
      (writeReg d s r).optKsz = s.optKsz ∧ (writeReg d s r).esub = s.esub ∧ (writeReg d s r).dke = s.dke ∧
      (HiddenZero s → HiddenZero (writeReg d s r)) ∧ (writeReg d s r).busy = s.busy ∧
      ((writeReg d s r).done = true → s.done = true) ∧
      ((writeReg d s r).outcomeBits = s.outcomeBits ∨ ∃ m, (writeReg d s r).outcomeBits = s.outcomeBits &&& m) := by
  cases r
  case status =>
    refine ⟨rfl, rfl, rfl, rfl, rfl, rfl, rfl, rfl, id, ?_, ?_, .inr ⟨~~~(d.extractLsb' 2 5), ?_⟩⟩
    · exact (statusW1C_bit _ _ 0 (by omega)).trans (by simp [State.busy])
    · show (statusW1C s.status d).getLsbD 1 = true → _
      rw [statusW1C_bit _ _ 1 (by omega)]; simp [State.done]; intros; assumption
    · ext i hi
      show (((statusW1C s.status d).extractLsb' 2 5))[i] = _
      have := statusW1C_bit s.status d (2 + i) (by omega)
      simp [State.outcomeBits] at this ⊢
      simpa [hi, show 1 ≤ 2 + i by omega] using this
  all_goals exact ⟨rfl, rfl, rfl, rfl, rfl, rfl, rfl, rfl, id, rfl, id, .inl rfl⟩

theorem single_and (x m : BitVec 5) (h : x = 0 ∨ x = 1 ∨ x = 2 ∨ x = 4 ∨ x = 8 ∨ x = 16) :
    x &&& m = 0 ∨ x &&& m = 1 ∨ x &&& m = 2 ∨ x &&& m = 4 ∨ x &&& m = 8 ∨ x &&& m = 16 := by
  revert x m; decide

theorem writeReg_inv {s : State} (h : Inv s) (hb : s.busy = false) (d : Word) (r : Reg) : Inv (writeReg d s r) := by
  obtain ⟨k1, k2, k3, k4, k5, k6, k7, k8, k9, k10, k11, k12⟩ := writeReg_kept d s r
  have hp := h.idle hb
  have hq := h.idle_request hb
  exact
    { params_wf := by rw [k1]; exact h.params_wf
      buf_wf := by rw [k1, k2]; exact h.buf_wf
      busy_iff := by rw [k10, k4]; exact h.busy_iff
      reset_idle := by rw [k4]; exact fun _ => hp
      idle_zero := fun _ => k9 (h.idle_zero hp)
      phase_fits := by simp [phaseFits, phaseOf, k4, hp]
      regions_fit := by rw [k4]; exact fun e => absurd hp e
      request_fits := .inl (by rw [k5, hq])
      done_idle := by rw [k10]; exact fun _ => hb
      busy_no_outcome := by rw [k10, hb]; simp
      one_outcome := by
        rcases k12 with e | ⟨m, e⟩
        · rw [e]; exact h.one_outcome
        · rw [e]; exact single_and _ m h.one_outcome
      esub_short := by rw [k6, k7]; exact h.esub_short
      dke_short := by rw [k6, k8]; exact h.dke_short
      release_verified := by rintro - ⟨c, hc⟩; rw [k4, hp] at hc; cases hc }

theorem writeBuf_inv {s : State} (h : Inv s) {o : Nat} (ho : o + 4 ≤ s.params.bufBytes) (strb : BitVec 4)
    (d : Word) : Inv (writeBuf o strb d s) where
  params_wf := h.params_wf
  buf_wf := bufSetWord_wf strb d h.buf_wf ho
  busy_iff := h.busy_iff
  reset_idle := h.reset_idle
  idle_zero := h.idle_zero
  phase_fits := h.phase_fits
  regions_fit := h.regions_fit
  request_fits := h.request_fits
  done_idle := h.done_idle
  busy_no_outcome := h.busy_no_outcome
  one_outcome := h.one_outcome
  esub_short := h.esub_short
  dke_short := h.dke_short
  release_verified := h.release_verified

theorem execWr_inv {s t : State} {a : BitVec 16} {strb : BitVec 4} {d : Word} (h : Inv s) (hr : s.rstN = true)
    (e : execWr a strb d s = .next t) : Inv t := by
  rcases execWr_cases a strb d s with g | ⟨_, g⟩ | ⟨_, g⟩ | ⟨hb, r, _, g⟩ | ⟨hb, o, ho, g⟩ <;> rw [g] at e
  · cases e; exact h.after_respond _
  · cases e; exact h.after_drop
  · exact submitCommand_inv h hr e
  · cases e; exact (writeReg_inv h hb d r).after_respond _
  · cases e; exact writeBuf_inv h ho strb d

/-- A host transaction keeps the invariant. -/
theorem hostTurn_inv {s t : State} {ht : BitVec 53} (h : Inv s) (e : hostTurn ht s = .next t) : Inv t := by
  unfold hostTurn at e
  split at e
  case isTrue hr =>
    unfold decodeTransaction at e
    split at e
    · exact execWr_inv h hr e
    · cases e; exact h.after_respond _
  · cases e

end Sys2Proof.Machine
end

