-- ==== Sys2Proof/Laws/Functional.lean ====
section
/-! SUPPORT. The pure functions byte by byte: blocks and their bytes, `xorChunk`, `ctrApply`
(44_ctr_keystream.md R173, R174). -/

namespace Sys2Proof.Machine

/-! ### Bytes of a block -/

theorem byteAt_bit {n : Nat} (x : BitVec n) (i b : Nat) (h : b < 8) :
    (byteAt x i).getLsbD b = x.getLsbD (8 * i + b) := by simp [byteAt, h]

theorem byteAt_xor {n : Nat} (x y : BitVec n) (i : Nat) : byteAt (x ^^^ y) i = byteAt x i ^^^ byteAt y i := by
  apply BitVec.eq_of_getLsbD_eq; intro b hb
  simp [byteAt, hb]

/-- A block is its sixteen bytes. -/
theorem block_ext {x y : Block} (h : ∀ i, i < 16 → byteAt x i = byteAt y i) : x = y := by
  apply BitVec.eq_of_getLsbD_eq; intro b hb
  have e := congrArg (fun z => z.getLsbD (b % 8)) (h (b / 8) (by omega))
  simp only [byteAt_bit _ _ _ (Nat.mod_lt b (by decide : 8 > 0))] at e
  rwa [Nat.div_add_mod] at e

@[simp] theorem blockBytes_length (x : Block) (n : Nat) : (blockBytes x n).length = n := by simp [blockBytes]

/-! ### Chunks under a keystream block -/

theorem xorChunk_length' (d : List Byte) (k : Block) : (xorChunk d k).length = d.length := by
  simp [xorChunk]

theorem xorChunk_getElem (d : List Byte) (k : Block) (j : Nat) (h : j < (xorChunk d k).length) :
    (xorChunk d k)[j] = d[j]'(by rwa [xorChunk_length'] at h) ^^^ byteAt k j := by
  simp [xorChunk, blockBytes]

theorem chunkOf_length (bs : List Byte) (i : Nat) : (chunkOf bs i).length = chunkLen bs.length i := by
  simp [chunkOf, chunkLen]

/-- Byte `k` of `ctrApply`: the data byte under the keystream byte. -/
theorem ctrApply_bytes (msb ksz : Bool) (t : Block) (ek : Key) (d : List Byte) :
    ctrApply msb ksz t ek d =
      d.mapIdx fun k b => b ^^^ byteAt (keystreamBlock msb ksz t ek (k / 16)) (k % 16) := by
  suffices h : ∀ n i, (hn : i + n = chunkCount d.length) →
      ((List.range' i n).flatMap fun j => xorChunk (chunkOf d j) (keystreamBlock msb ksz t ek j)) =
        (d.mapIdx fun k b => b ^^^ byteAt (keystreamBlock msb ksz t ek (k / 16)) (k % 16)).drop (16 * i) by
    have := h (chunkCount d.length) 0 (by omega)
    rw [ctrApply, List.range_eq_range', this]; simp
  intro n
  induction n with
  | zero =>
    intro i hn
    symm
    simp only [List.range'_zero, List.flatMap_nil, List.drop_eq_nil_iff, List.length_mapIdx]
    unfold chunkCount at hn; omega
  | succ n ih =>
    intro i hn
    rw [List.range'_succ, List.flatMap_cons, ih (i + 1) (by omega)]
    have hi : 16 * i < d.length := by unfold chunkCount at hn; omega
    apply List.ext_getElem
    · simp [xorChunk_length', chunkOf_length, chunkLen]; omega
    · intro k h1 h2
      rw [List.getElem_append]
      split
      · next h =>
        rw [xorChunk_length', chunkOf_length, chunkLen] at h
        simp only [xorChunk_getElem, List.getElem_drop, List.getElem_mapIdx, chunkOf, List.getElem_take]
        rw [show (16 * i + k) / 16 = i by omega, show (16 * i + k) % 16 = k by omega]
      · next h =>
        rw [xorChunk_length', chunkOf_length, chunkLen] at h
        have hl : 16 ≤ d.length - 16 * i := by
          simp [xorChunk_length', chunkOf_length, chunkLen] at h1 h2; omega
        simp only [List.getElem_drop, List.getElem_mapIdx, xorChunk_length', chunkOf_length, chunkLen,
          Nat.min_eq_left hl, show 16 * (i + 1) + (k - 16) = 16 * i + k by omega]

theorem ctrApply_length (msb ksz : Bool) (t : Block) (ek : Key) (d : List Byte) :
    (ctrApply msb ksz t ek d).length = d.length := by rw [ctrApply_bytes]; simp

theorem ctrApply_getD (msb ksz : Bool) (t : Block) (ek : Key) (d : List Byte) {k : Nat} (h : k < d.length) :
    (ctrApply msb ksz t ek d).getD k 0 =
      d.getD k 0 ^^^ byteAt (keystreamBlock msb ksz t ek (k / 16)) (k % 16) := by
  rw [ctrApply_bytes]
  simp [List.getD_eq_getElem?_getD, h]

end Sys2Proof.Machine
end

