-- ==== Sys2Proof/Laws/Run.lean ====
section
/-! SUPPORT. Runs of the machine with an empty agenda: one step is the engine's turn, runs compose, a
block-cipher call is two steps, and each phase of a command is one lemma that says where its micro-steps
lead. -/

namespace Sys2Proof.Machine

/-! ### Steps and composition -/

theorem runSteps_zero (s : State) : runSteps 0 s = .next s := rfl

theorem step_engine {s : State} (h : s.turns = []) : step s = engineTurn s := by simp [step, h]

theorem core_step_engine {s t : State} (h : s.turns = []) (e : engineTurn s = .next t) :
    Sys2Proof.core.step s = .next t := (step_engine h).trans e

theorem runSteps_succ {n : Nat} {s t : State} (h : s.turns = []) (e : engineTurn s = .next t) :
    runSteps (n + 1) s = runSteps n t := by
  simp only [runSteps, Host.Core.run, core_step_engine h e]; rfl

theorem runSteps_add {m : Nat} (n : Nat) {s t : State} (e : runSteps m s = .next t) :
    runSteps (m + n) s = runSteps n t := by
  induction m generalizing s with
  | zero => cases e; rw [Nat.zero_add]
  | succ m ih =>
    rw [Nat.add_right_comm]
    simp only [runSteps, Host.Core.run] at e ⊢
    cases h : Sys2Proof.core.step s with
    | next u => rw [h] at e; exact ih e
    | fault r => rw [h] at e; cases e
    | refused r => rw [h] at e; cases e

theorem runSteps_trans {m n : Nat} {s t u : State} (h : runSteps m s = .next t) (g : runSteps n t = .next u) :
    runSteps (m + n) s = .next u := by rw [runSteps_add n h, g]

theorem runSteps_one {s t : State} (h : s.turns = []) (e : engineTurn s = .next t) : runSteps 1 s = .next t := by
  rw [runSteps_succ h e, runSteps_zero]

/-! ### The engine's turn, by what is outstanding -/

theorem engineTurn_sequencer {s : State} (hr : s.rstN = true) (hq : s.bcReq = none) :
    engineTurn s = sequencerStep s := by simp [engineTurn, hr, hq]

theorem engineTurn_port {s : State} {r : BcRequest} (hr : s.rstN = true) (hq : s.bcReq = some r) :
    engineTurn s = portAnswer r s := by simp [engineTurn, hr, hq]

/-- A call that does not fail is two steps: the request, and its answer taken. -/
theorem runSteps_call {s t : State} {r : BcRequest} (hr : s.rstN = true) (hq : s.bcReq = none) (ht : s.turns = [])
    (hp : sequencerStep s = .next { s with bcReq := some r }) (hf : nextFails s = false)
    (ha : takeAnswer (Config.blockEncrypt r.ksz r.key r.block) (endCall s) = .next t) : runSteps 2 s = .next t := by
  rw [runSteps_succ ht ((engineTurn_sequencer hr hq).trans hp)]
  refine runSteps_one ht ?_
  rw [engineTurn_port (s := { s with bcReq := some r }) hr rfl, portAnswer,
    show nextFails { s with bcReq := some r } = false from hf]
  exact ha

/-- A call that fails is two steps too, and ends the command. -/
theorem runSteps_failing_call {s : State} {r : BcRequest} (hr : s.rstN = true) (hq : s.bcReq = none)
    (ht : s.turns = []) (hp : sequencerStep s = .next { s with bcReq := some r }) (hf : nextFails s = true) :
    runSteps 2 s = .next (complete .primitiveFailure (endCall s)) := by
  rw [runSteps_succ ht ((engineTurn_sequencer hr hq).trans hp)]
  refine runSteps_one ht ?_
  rw [engineTurn_port (s := { s with bcReq := some r }) hr rfl, portAnswer,
    show nextFails { s with bcReq := some r } = true from hf]
  rfl

/-! ### Draws -/

theorem nextFails_eq_drawAt (s : State) : nextFails s = drawAt s 0 := by
  unfold nextFails drawAt; cases s.answers <;> simp

/-- The draws after `n` calls are the later draws from before. -/
theorem drawAt_after {s t : State} {n : Nat} (ha : t.answers = s.answers.drop n) (hc : t.calls = s.calls + n) (k : Nat) :
    drawAt t k = drawAt s (n + k) := by
  simp only [drawAt, ha, hc, List.getD_eq_getElem?_getD, List.getElem?_drop, Nat.add_assoc]

theorem NoFail.mono {s : State} {m n : Nat} (h : NoFail s n) (hm : m ≤ n) : NoFail s m :=
  fun k hk => h k (Nat.lt_of_lt_of_le hk hm)

theorem NoFail.after {s t : State} {m n : Nat} (h : NoFail s (m + n)) (ha : t.answers = s.answers.drop m)
    (hc : t.calls = s.calls + m) : NoFail t n := fun k hk => by
  rw [drawAt_after ha hc]; exact h _ (by omega)

theorem NoFail.head {s : State} {n : Nat} (h : NoFail s n) (hn : 0 < n) : nextFails s = false := by
  rw [nextFails_eq_drawAt]; exact h 0 hn

end Sys2Proof.Machine
end

