-- ==== Sys2Proof/Laws/Phases.lean ====
section
/-! SUPPORT. The phases of a command as runs: hashing a region (41_polyval.md R116), the derivation calls
(42_key_derivation.md R132, R133), pass 1 of DECRYPT and the keystream pass (44_ctr_keystream.md R173). Each lemma
starts at any position of its phase and says the exact state it leads to. -/

namespace Sys2Proof.Machine

/-! ### Regions as blocks -/

/-- Block `i` of a region of BUF, right-zero-padded. -/
def regionBlock (m : Buffer) (off len i : Nat) : Block := packBlock (bufGetBytes m (off + 16 * i) (chunkLen len i))

theorem chunkOf_bufGetBytes (m : Buffer) (off len i : Nat) :
    chunkOf (bufGetBytes m off len) i = bufGetBytes m (off + 16 * i) (chunkLen len i) := by
  apply List.ext_getElem
  · simp [chunkOf, chunkLen]
  · intro k h1 h2
    simp [chunkOf, bufGetBytes, Nat.add_assoc]

theorem pad16_region (m : Buffer) (off len : Nat) :
    pad16 (bufGetBytes m off len) = (List.range (chunkCount len)).map (regionBlock m off len) := by
  simp [pad16, chunkOf_bufGetBytes, regionBlock]

theorem lt_of_chunk {len i n : Nat} (h : i + (n + 1) = chunkCount len) : 16 * i < len := by
  unfold chunkCount at h; omega

theorem not_lt_of_chunkCount {len i : Nat} (h : i = chunkCount len) : ¬ 16 * i < len := by
  unfold chunkCount at h; omega

theorem chunk_le {off len i size : Nat} (hi : 16 * i < len) (h : off + len ≤ size) :
    off + 16 * i + chunkLen len i ≤ size := by unfold chunkLen; omega

/-- The accumulator after blocks `i` to `i + n - 1` of a region. -/
def absorbed (h acc : Block) (m : Buffer) (off len i n : Nat) : Block :=
  polyvalFrom h acc ((List.range' i n).map (regionBlock m off len))

theorem absorbed_zero (h acc : Block) (m : Buffer) (off len i : Nat) : absorbed h acc m off len i 0 = acc := rfl

theorem absorbed_succ (h acc : Block) (m : Buffer) (off len i n : Nat) :
    absorbed h acc m off len i (n + 1) =
      absorbed h (dot (acc ^^^ regionBlock m off len i) h) m off len (i + 1) n := by
  simp [absorbed, polyvalFrom, List.range'_succ]

theorem absorbed_all (h acc : Block) (m : Buffer) (off len : Nat) :
    absorbed h acc m off len 0 (chunkCount len) = polyvalFrom h acc (pad16 (bufGetBytes m off len)) := by
  rw [absorbed, pad16_region, List.range_eq_range']

/-! ### Hashing a region -/

theorem hashAad_step {s : State} {i : Nat} (hr : s.rstN = true) (hq : s.bcReq = none) (hp : s.phase = .hashingAad i)
    (hv : s.aadOff.toNat + s.aadLen.toNat ≤ s.params.bufBytes) (hi : 16 * i < s.aadLen.toNat) :
    engineTurn s = .next { s with
      acc := dot (s.acc ^^^ regionBlock s.buf s.aadOff.toNat s.aadLen.toNat i) s.hsub
      phase := .hashingAad (i + 1) } := by
  rw [engineTurn_sequencer hr hq, sequencerStep, hp]
  simp only [hashAadStep, if_pos hi]
  rcases absorbChunk_cases s.aadOff.toNat s.aadLen.toNat i (.hashingAad (i + 1)) s with ⟨_, e⟩ | ⟨h, _⟩
  · rw [e]; rfl
  · exact absurd (chunk_le hi hv) (by omega)

theorem run_hashAad (n : Nat) {s : State} {i : Nat} (hr : s.rstN = true) (hq : s.bcReq = none) (ht : s.turns = [])
    (hp : s.phase = .hashingAad i) (hv : s.aadOff.toNat + s.aadLen.toNat ≤ s.params.bufBytes)
    (hn : i + n = chunkCount s.aadLen.toNat) :
    runSteps n s = .next { s with
      acc := absorbed s.hsub s.acc s.buf s.aadOff.toNat s.aadLen.toNat i n
      phase := .hashingAad (i + n) } := by
  induction n generalizing s i with
  | zero => rw [runSteps_zero, absorbed_zero, Nat.add_zero, ← hp]
  | succ n ih =>
    rw [runSteps_succ ht (hashAad_step hr hq hp hv (lt_of_chunk hn)),
      ih (i := i + 1) (by exact hr) (by exact hq) (by exact ht) rfl (by exact hv) (by show i + 1 + n = chunkCount s.aadLen.toNat; omega),
      absorbed_succ, show i + (n + 1) = i + 1 + n by omega]

theorem hashMsg_step {s : State} {i : Nat} (hr : s.rstN = true) (hq : s.bcReq = none) (hp : s.phase = .hashingMsg i)
    (hv : s.msgOff.toNat + s.msgLen.toNat ≤ s.params.bufBytes) (hi : 16 * i < s.msgLen.toNat) :
    engineTurn s = .next { s with
      acc := dot (s.acc ^^^ regionBlock s.buf s.msgOff.toNat s.msgLen.toNat i) s.hsub
      phase := .hashingMsg (i + 1) } := by
  rw [engineTurn_sequencer hr hq, sequencerStep, hp]
  simp only [hashMsgStep, if_pos hi]
  rcases absorbChunk_cases s.msgOff.toNat s.msgLen.toNat i (.hashingMsg (i + 1)) s with ⟨_, e⟩ | ⟨h, _⟩
  · rw [e]; rfl
  · exact absurd (chunk_le hi hv) (by omega)

theorem run_hashMsg (n : Nat) {s : State} {i : Nat} (hr : s.rstN = true) (hq : s.bcReq = none) (ht : s.turns = [])
    (hp : s.phase = .hashingMsg i) (hv : s.msgOff.toNat + s.msgLen.toNat ≤ s.params.bufBytes)
    (hn : i + n = chunkCount s.msgLen.toNat) :
    runSteps n s = .next { s with
      acc := absorbed s.hsub s.acc s.buf s.msgOff.toNat s.msgLen.toNat i n
      phase := .hashingMsg (i + n) } := by
  induction n generalizing s i with
  | zero => rw [runSteps_zero, absorbed_zero, Nat.add_zero, ← hp]
  | succ n ih =>
    rw [runSteps_succ ht (hashMsg_step hr hq hp hv (lt_of_chunk hn)),
      ih (i := i + 1) (by exact hr) (by exact hq) (by exact ht) rfl (by exact hv) (by show i + 1 + n = chunkCount s.msgLen.toNat; omega),
      absorbed_succ, show i + (n + 1) = i + 1 + n by omega]

/-! ### The derivation calls -/

/-- The halves of calls 0 to `i - 1`. -/
def halvesOf (s : State) (i : Nat) : List Half := kdHalves s.optKsz s.optNprof s.key s.nonce i

theorem halvesOf_succ (s : State) (i : Nat) : halvesOf s (i + 1) = halvesOf s i ++
    [lowHalf (Config.blockEncrypt s.optKsz (keyInUse s.optKsz s.key) (kdb s.optNprof s.nonce i))] := by
  simp [halvesOf, kdHalves, List.range_succ]

/-- The state after `i` derivation calls, none failing and not the last. -/
def derivedTo (s : State) (i : Nat) : State :=
  { s with
    hsub := if 2 ≤ i then hsubOf (halvesOf s 2) else s.hsub
    answers := s.answers.drop i
    calls := s.calls + i
    phase := .derivingKeys i (halvesOf s i) }

/-- The state after the last derivation call. -/
def derivedAll (s : State) : State :=
  { s with
    hsub := hsubOf (halvesOf s (kdCalls s.optKsz))
    esub := esubOf s.optKsz (halvesOf s (kdCalls s.optKsz))
    answers := s.answers.drop (kdCalls s.optKsz)
    calls := s.calls + kdCalls s.optKsz
    phase := .keyed }

theorem hsubOf_halves (s : State) {i : Nat} (h : 2 ≤ i) : hsubOf (halvesOf s i) = hsubOf (halvesOf s 2) := by
  obtain ⟨k, rfl⟩ := Nat.exists_eq_add_of_le h
  simp [hsubOf, halvesOf, kdHalves, List.getD_eq_getElem?_getD,
    show (0 : Nat) < 2 + k by omega, show (1 : Nat) < 2 + k by omega]

theorem kdCalls_ge (ksz : Bool) : 4 ≤ kdCalls ksz := by cases ksz <;> decide

theorem sequencer_deriving {s : State} {i : Nat} {ys : List Half} (hp : s.phase = .derivingKeys i ys) :
    sequencerStep s = .next { s with
      bcReq := some ⟨s.optKsz, keyInUse s.optKsz s.key, kdb s.optNprof s.nonce i⟩ } := by
  have e : sequencerStep s = .next (kdPresent i s) := by rw [sequencerStep, hp]
  rw [e]; rfl

theorem run_derive_step {s : State} {i : Nat} (hr : s.rstN = true) (hq : s.bcReq = none) (ht : s.turns = [])
    (hi : i + 1 < kdCalls s.optKsz) (hf : drawAt s i = false) :
    runSteps 2 (derivedTo s i) = .next (derivedTo s (i + 1)) := by
  refine runSteps_call (s := derivedTo s i) hr hq ht (sequencer_deriving rfl) ?_ ?_
  · rw [nextFails_eq_drawAt, drawAt_after (s := s) (n := i) rfl rfl]; exact hf
  · simp only [takeAnswer, endCall, derivedTo, kdStep, halvesOf_succ s i]
    have h1 : i + 1 ≠ kdCalls s.optKsz := by omega
    simp only [List.tail_drop, Nat.add_assoc, hq]
    congr 2
    · by_cases h : i = 1
      · subst h; simp [halvesOf_succ s 1]
      · by_cases h2 : 2 ≤ i
        · simp [h, h2, show 2 ≤ i + 1 by omega]
        · simp [h, show ¬ 2 ≤ i by omega, show ¬ 2 ≤ i + 1 by omega]
    · exact if_neg h1
    · exact if_neg h1

theorem run_derive_last {s : State} {i : Nat} (hr : s.rstN = true) (hq : s.bcReq = none) (ht : s.turns = [])
    (hi : i + 1 = kdCalls s.optKsz) (hf : drawAt s i = false) :
    runSteps 2 (derivedTo s i) = .next (derivedAll s) := by
  refine runSteps_call (s := derivedTo s i) hr hq ht (sequencer_deriving rfl) ?_ ?_
  · rw [nextFails_eq_drawAt, drawAt_after (s := s) (n := i) rfl rfl]; exact hf
  · have h4 := kdCalls_ge s.optKsz
    have h1 : i ≠ 1 := by omega
    have h2 : 2 ≤ i := by omega
    simp only [takeAnswer, endCall, derivedTo, kdStep, if_neg h1, if_pos h2, derivedAll, ← hi,
      halvesOf_succ s i, List.tail_drop, Nat.add_assoc, hq, if_true]
    rw [← halvesOf_succ s i, hsubOf_halves s (show 2 ≤ i + 1 by omega)]

theorem run_derive_to (n : Nat) {s : State} (hr : s.rstN = true) (hq : s.bcReq = none) (ht : s.turns = [])
    (hn : n < kdCalls s.optKsz) (hf : NoFail s n) :
    runSteps (2 * n) (derivedTo s 0) = .next (derivedTo s n) := by
  induction n with
  | zero => rfl
  | succ n ih =>
    exact runSteps_trans (ih (by omega) (hf.mono (by omega)))
      (run_derive_step hr hq ht hn (hf n (by omega)))

/-- The whole derivation, from its first position. -/
theorem run_derive {s : State} (hr : s.rstN = true) (hq : s.bcReq = none) (ht : s.turns = [])
    (hp : s.phase = .derivingKeys 0 []) (hf : NoFail s (kdCalls s.optKsz)) :
    runSteps (2 * kdCalls s.optKsz) s = .next (derivedAll s) := by
  have h4 := kdCalls_ge s.optKsz
  obtain ⟨n, hn⟩ := Nat.exists_eq_add_of_le (show 1 ≤ kdCalls s.optKsz by omega)
  have e0 : derivedTo s 0 = s := by
    simp [derivedTo, halvesOf, kdHalves, ← hp]
  have h := runSteps_trans (run_derive_to n hr hq ht (by omega) (hf.mono (by omega)))
    (run_derive_last hr hq ht (show n + 1 = kdCalls s.optKsz by omega) (hf n (by omega)))
  rw [e0] at h
  rw [show 2 * kdCalls s.optKsz = 2 * n + 2 by omega]; exact h

/-! ### Pass 1 of DECRYPT -/

/-- Chunk `i` of the message of a state. -/
def msgChunk (s : State) (i : Nat) : List Byte :=
  bufGetBytes s.buf (s.msgOff.toNat + 16 * i) (chunkLen s.msgLen.toNat i)

/-- The keystream block of index `i` under the state's initial counter block. -/
def ksBlock (s : State) (i : Nat) : Block :=
  Config.blockEncrypt s.optKsz (keyInUse s.optKsz s.esub) (counterBlock s.cb0 i)

theorem blk_lt {s : State} {i : Nat} (hi : i ≤ chunkCount s.msgLen.toNat) : i < 2 ^ 32 := by
  have := s.msgLen.isLt; unfold chunkCount at hi; omega

theorem ofNat_blk {s : State} {i : Nat} (hi : i ≤ chunkCount s.msgLen.toNat) :
    (BitVec.ofNat 32 i).toNat = i := by
  rw [BitVec.toNat_ofNat]; exact Nat.mod_eq_of_lt (blk_lt hi)

theorem ofNat_succ (i : Nat) : BitVec.ofNat 32 i + 1 = BitVec.ofNat 32 (i + 1) := by
  apply BitVec.eq_of_toNat_eq; simp

/-- The candidate blocks `i` to `i + n - 1`. -/
def candidates (s : State) (i n : Nat) : List Block :=
  (List.range' i n).map fun j => packBlock (xorChunk (msgChunk s j) (ksBlock s j))

/-- Pass 1 before chunk `i + n`, having started before chunk `i`. -/
def pass1To (s : State) (i n : Nat) : State :=
  { s with
    acc := polyvalFrom s.hsub s.acc (candidates s i n)
    blk := BitVec.ofNat 32 (i + n)
    answers := s.answers.drop n
    calls := s.calls + n
    phase := .decPass1 .block }

theorem sequencer_pass1 {s : State} {i : Nat} (hp : s.phase = .decPass1 .block) (hb : s.blk = BitVec.ofNat 32 i)
    (hi : 16 * i < s.msgLen.toNat) :
    sequencerStep s = .next { s with
      bcReq := some ⟨s.optKsz, keyInUse s.optKsz s.esub, counterBlock s.cb0 i⟩ } := by
  have e : (BitVec.ofNat 32 i).toNat = i := ofNat_blk (s := s) (by unfold chunkCount; omega)
  have e' : sequencerStep s = .next (decPass1Step .block s) := by rw [sequencerStep, hp]
  have h : 16 * s.blk.toNat < s.msgLen.toNat := by rw [hb, e]; exact hi
  have h2 : counterBlock s.cb0 s.blk.toNat = counterBlock s.cb0 i := by rw [hb, e]
  rw [e', decPass1Step, if_pos h, ctrPresent, h2]; rfl

theorem run_pass1_step {s : State} {i : Nat} (hr : s.rstN = true) (hq : s.bcReq = none) (ht : s.turns = [])
    (hp : s.phase = .decPass1 .block) (hb : s.blk = BitVec.ofNat 32 i)
    (hv : s.msgOff.toNat + s.msgLen.toNat ≤ s.params.bufBytes) (hi : 16 * i < s.msgLen.toNat)
    (hf : nextFails s = false) : runSteps 3 s = .next (pass1To s i 1) := by
  have e : (BitVec.ofNat 32 i).toNat = i := ofNat_blk (s := s) (by unfold chunkCount; omega)
  refine runSteps_trans (m := 2) (t := { s with
    answers := s.answers.drop 1
    calls := s.calls + 1
    blk := BitVec.ofNat 32 (i + 1)
    phase := .decPass1 (.absorb (packBlock (xorChunk (msgChunk s i) (ksBlock s i)))) })
    (runSteps_call hr hq ht (sequencer_pass1 hp hb hi) hf ?_) (runSteps_one ht ?_)
  · have hp' : (endCall s).phase = .decPass1 .block := hp
    rw [takeAnswer, hp']
    simp only [answerPass1]
    rcases ctrPass1_cases (ksBlock s i) (endCall s) with ⟨_, e'⟩ | ⟨h, _⟩
    · rw [ksBlock] at e'
      rw [e']
      simp only [endCall, hb, e, ofNat_succ, List.drop_one, ← hq, msgChunk, ksBlock]
    · exfalso
      have hb' : (endCall s).blk.toNat = i := by rw [endCall_blk, hb, e]
      rw [hb'] at h
      exact absurd (chunk_le hi hv) (by simpa using h)
  · rw [engineTurn_sequencer (by exact hr) (by exact hq), sequencerStep]
    rfl

theorem run_pass1 (n : Nat) {s : State} {i : Nat} (hr : s.rstN = true) (hq : s.bcReq = none) (ht : s.turns = [])
    (hp : s.phase = .decPass1 .block) (hb : s.blk = BitVec.ofNat 32 i)
    (hv : s.msgOff.toNat + s.msgLen.toNat ≤ s.params.bufBytes) (hn : i + n ≤ chunkCount s.msgLen.toNat)
    (hf : NoFail s n) : runSteps (3 * n) s = .next (pass1To s i n) := by
  induction n generalizing s i with
  | zero =>
    rw [Nat.mul_zero, runSteps_zero]
    simp [pass1To, candidates, polyvalFrom, ← hb, ← hp]
  | succ n ih =>
    have hi : 16 * i < s.msgLen.toNat := by unfold chunkCount at hn; omega
    have h1 := run_pass1_step hr hq ht hp hb hv hi (hf.head (by omega))
    rw [show 3 * (n + 1) = 3 + 3 * n by omega]
    refine runSteps_trans h1 ?_
    rw [ih (s := pass1To s i 1) (i := i + 1) hr hq ht rfl rfl hv
      (by show i + 1 + n ≤ chunkCount s.msgLen.toNat; omega)
      (NoFail.after (s := s) (m := 1) (by rw [Nat.add_comm]; exact hf) rfl rfl)]
    simp only [pass1To, candidates, List.range'_succ, List.map_cons, polyvalFrom, List.foldl_cons, List.range'_zero,
      List.map_nil, List.foldl_nil, List.drop_drop, Nat.add_assoc, Nat.add_comm 1 n]
    rfl

/-! ### The keystream pass -/

/-- Byte `k` of OUT: the message byte of the start under the keystream byte. -/
def outByte (s : State) (k : Nat) : Byte :=
  bufGet s.buf (s.msgOff.toNat + k) ^^^ byteAt (ksBlock s (k / 16)) (k % 16)

/-- BUF after the first `n` bytes of OUT were written, from the buffer at the start of the pass. -/
def Written (s : State) (n : Nat) (m : Buffer) : Prop :=
  (∀ k, k < n → bufGet m (s.outOff.toNat + k) = outByte s k) ∧
    ∀ a, a < s.outOff.toNat ∨ s.outOff.toNat + n ≤ a → bufGet m a = bufGet s.buf a

/-- The keystream pass before chunk `i`, with this buffer. -/
def passTo (s : State) (i : Nat) (m : Buffer) : State :=
  { s with
    buf := m
    blk := BitVec.ofNat 32 i
    answers := s.answers.drop i
    calls := s.calls + i
    phase := .keystream .block }

theorem sequencer_pass {s : State} {i : Nat} {m : Buffer} (hi : 16 * i < s.msgLen.toNat) :
    sequencerStep (passTo s i m) = .next { passTo s i m with
      bcReq := some ⟨s.optKsz, keyInUse s.optKsz s.esub, counterBlock s.cb0 i⟩ } := by
  have e : (BitVec.ofNat 32 i).toNat = i := ofNat_blk (s := s) (by unfold chunkCount; omega)
  have e' : sequencerStep (passTo s i m) = .next (keystreamStep .block (passTo s i m)) := rfl
  have h : 16 * (passTo s i m).blk.toNat < (passTo s i m).msgLen.toNat := by
    show 16 * (BitVec.ofNat 32 i).toNat < s.msgLen.toNat; rw [e]; exact hi
  have h2 : counterBlock (passTo s i m).cb0 (passTo s i m).blk.toNat = counterBlock s.cb0 i := by
    show counterBlock s.cb0 (BitVec.ofNat 32 i).toNat = _; rw [e]
  rw [e', keystreamStep, if_pos h, ctrPresent, h2]; rfl

theorem placement {s : State} (h : outPlacementOk s.msgOff s.outOff s.msgLen = true) :
    s.outOff = s.msgOff ∨ s.msgLen.toNat = 0 ∨ s.outOff.toNat + s.msgLen.toNat ≤ s.msgOff.toNat ∨
      s.msgOff.toNat + s.msgLen.toNat ≤ s.outOff.toNat := of_decide_eq_true h

/-- A message byte not yet reached is still the byte of the start: 20_memory.md R67. -/
theorem Written.msg {s : State} {n : Nat} {m : Buffer} (h : Written s n m) (hn : n ≤ s.msgLen.toNat)
    (hp : outPlacementOk s.msgOff s.outOff s.msgLen = true) {k : Nat} (hk : n ≤ k) (hl : k < s.msgLen.toNat) :
    bufGet m (s.msgOff.toNat + k) = bufGet s.buf (s.msgOff.toNat + k) := by
  refine h.2 _ ?_
  rcases placement hp with e | e | e | e
  · rw [e]; omega
  · omega
  · omega
  · omega

theorem run_pass_step {s : State} {i : Nat} {m : Buffer} (hr : s.rstN = true) (hq : s.bcReq = none)
    (ht : s.turns = []) (hv : s.msgOff.toNat + s.msgLen.toNat ≤ s.params.bufBytes)
    (ho : s.outOff.toNat + s.msgLen.toNat ≤ s.params.bufBytes)
    (hpl : outPlacementOk s.msgOff s.outOff s.msgLen = true) (hi : 16 * i < s.msgLen.toNat)
    (hf : drawAt s i = false) (hw : Written s (16 * i) m) :
    ∃ m', runSteps 2 (passTo s i m) = .next (passTo s (i + 1) m') ∧
      Written s (min (16 * (i + 1)) s.msgLen.toNat) m' := by
  have e : (BitVec.ofNat 32 i).toNat = i := ofNat_blk (s := s) (by unfold chunkCount; omega)
  have hb' : (endCall (passTo s i m)).blk.toNat = i := e
  refine ⟨bufSetBytes m (s.outOff.toNat + 16 * i)
    (xorChunk (bufGetBytes m (s.msgOff.toNat + 16 * i) (chunkLen s.msgLen.toNat i)) (ksBlock s i)),
    runSteps_call (s := passTo s i m) hr hq ht (sequencer_pass hi) ?_ ?_, ?_, ?_⟩
  · rw [nextFails_eq_drawAt, drawAt_after (s := s) (n := i) rfl rfl]; exact hf
  · have e1 : takeAnswer (Config.blockEncrypt s.optKsz (keyInUse s.optKsz s.esub) (counterBlock s.cb0 i))
      (endCall (passTo s i m)) = ctrWrite (ksBlock s i) (endCall (passTo s i m)) := rfl
    rw [e1]
    rcases ctrWrite_cases (ksBlock s i) (endCall (passTo s i m)) with ⟨_, _, e'⟩ | ⟨h, _⟩
    · rw [e', outChunk, hb']
      simp only [endCall, passTo, List.tail_drop, Nat.add_assoc, ofNat_succ, hq]
    · exfalso
      rw [hb'] at h
      rcases h with h | h
      · exact absurd (chunk_le hi hv) (by simpa [passTo] using h)
      · exact absurd (chunk_le hi ho) (by simpa [passTo] using h)
  · intro k hk
    have hk2 : k < s.msgLen.toNat := by omega
    by_cases h1 : k < 16 * i
    · rw [bufGet_bufSetBytes_other _ _ _ _ (by omega)]; exact hw.1 k h1
    · obtain ⟨j, rfl⟩ := Nat.exists_eq_add_of_le (Nat.le_of_not_lt h1)
      have hj : j < (xorChunk (bufGetBytes m (s.msgOff.toNat + 16 * i) (chunkLen s.msgLen.toNat i))
          (ksBlock s i)).length := by
        rw [xorChunk_length', bufGetBytes_length, chunkLen]; omega
      rw [← Nat.add_assoc, bufGet_bufSetBytes_at _ _ _ _ hj, xorChunk_getElem, bufGetBytes_getElem, outByte,
        show (16 * i + j) / 16 = i by omega, show (16 * i + j) % 16 = j by omega, Nat.add_assoc,
        hw.msg (by omega) hpl (by omega) hk2]
  · intro a ha
    have hl : (xorChunk (bufGetBytes m (s.msgOff.toNat + 16 * i) (chunkLen s.msgLen.toNat i))
        (ksBlock s i)).length = min 16 (s.msgLen.toNat - 16 * i) := by
      rw [xorChunk_length', bufGetBytes_length, chunkLen]
    rw [bufGet_bufSetBytes_other _ _ _ _ (by rw [hl]; omega)]
    exact hw.2 a (by omega)

/-- The keystream pass up to chunk `n`. -/
theorem run_pass (n : Nat) {s : State} (hr : s.rstN = true) (hq : s.bcReq = none)
    (ht : s.turns = []) (hp : s.phase = .keystream .block) (hb : s.blk = 0)
    (hv : s.msgOff.toNat + s.msgLen.toNat ≤ s.params.bufBytes)
    (ho : s.outOff.toNat + s.msgLen.toNat ≤ s.params.bufBytes)
    (hpl : outPlacementOk s.msgOff s.outOff s.msgLen = true) (hn : n ≤ chunkCount s.msgLen.toNat)
    (hf : NoFail s n) :
    ∃ m, runSteps (2 * n) s = .next (passTo s n m) ∧ Written s (min (16 * n) s.msgLen.toNat) m := by
  induction n with
  | zero =>
    refine ⟨s.buf, ?_, fun k hk => absurd hk (by omega), fun a _ => rfl⟩
    rw [Nat.mul_zero, runSteps_zero]
    have e : (BitVec.ofNat 32 0 : BitVec 32) = s.blk := hb.symm
    simp only [passTo, e, ← hp, List.drop_zero, Nat.add_zero]
  | succ n ih =>
    obtain ⟨m, h, hw⟩ := ih (by omega) (hf.mono (by omega))
    have hi : 16 * n < s.msgLen.toNat := by unfold chunkCount at hn; omega
    rw [Nat.min_eq_left (by omega)] at hw
    obtain ⟨m', h', hw'⟩ := run_pass_step hr hq ht hv ho hpl hi (hf n (by omega)) hw
    exact ⟨m', runSteps_trans h h', hw'⟩

end Sys2Proof.Machine
end

