-- ==== Sys2Proof/Laws/Commands.lean ====
section
/-! SUPPORT. From acceptance to the hash: what a state right after the acceptance of a multi-step command is
(45_commands.md R190, R191), the key set-up of ENCRYPT and DECRYPT (R195), and the tag generator (43_tag_generator.md). -/

namespace Sys2Proof.Machine

/-- The state right after the acceptance of a multi-step command (R190, R191). -/
def acceptedState (op : BitVec 8) (f : Bool) (s : State) : State :=
  respond (.write false) (startCommand (commandWord op f) s)

@[simp] theorem accepted_opc (op : BitVec 8) (f : Bool) (s : State) : (acceptedState op f s).opc = op := by
  simp [acceptedState, commandWord_op]

@[simp] theorem accepted_opF (op : BitVec 8) (f : Bool) (s : State) : (acceptedState op f s).opF = f := by
  exact commandWord_f op f

/-- A command word while BUSY = 0 is accepted. -/
theorem submit_accepted {op : BitVec 8} {f : Bool} {s : State} (h : s.busy = false) :
    submitWith (startCommand (commandWord op f)) s = .next (acceptedState op f s) := by
  simp [submitWith, h, acceptedState]

/-- The subkeys in place (R195): the state at the position `keyed` of an ENCRYPT or DECRYPT. -/
def keyedState (f : Bool) (t : State) : State :=
  { t with
    hsub := (subkeys f t.optKsz t.optNprof t.hkey t.key t.nonce).1
    esub := (subkeys f t.optKsz t.optNprof t.hkey t.key t.nonce).2
    answers := t.answers.drop (keyCalls f t.optKsz)
    calls := t.calls + keyCalls f t.optKsz
    phase := .keyed }

theorem sequencer_started {t : State} (hp : t.phase = .started) : sequencerStep t = .next (startStep t) := by
  rw [sequencerStep, hp]

/-- The key set-up of ENCRYPT and DECRYPT, region check passed, no call failing. -/
theorem run_keyed_aead {t : State} {f : Bool} (hr : t.rstN = true) (hq : t.bcReq = none) (ht : t.turns = [])
    (hp : t.phase = .started) (ho : t.opc = 0x01 ∨ t.opc = 0x02) (hF : t.opF = f) (hc : regionCheckAead t = true)
    (hf : NoFail t (keyCalls f t.optKsz)) :
    runSteps (1 + 2 * keyCalls f t.optKsz) t = .next (keyedState f t) := by
  have hst : startStep t = startAead t := by unfold startStep; rcases ho with h | h <;> simp [h]
  have h1 : engineTurn t = .next (startAead t) := by
    rw [engineTurn_sequencer hr hq, sequencer_started hp, hst]
  subst hF
  cases hF : t.opF with
  | true =>
    rw [startAead, if_pos hc, if_pos hF] at h1
    refine (runSteps_one ht h1).trans ?_
    simp [keyedState, kdLoad2, subkeys, keyCalls]
  | false =>
    rw [startAead, if_pos hc, if_neg (by simp [hF])] at h1
    rw [hF] at hf
    rw [Nat.add_comm, runSteps_succ ht h1]
    exact run_derive (s := { t with phase := .derivingKeys 0 [] }) hr hq ht rfl hf

/-- The position `keyed` of ENCRYPT or DECRYPT: PV.INIT, and in DECRYPT the received tag taken. -/
theorem step_keyed {t : State} (hr : t.rstN = true) (hq : t.bcReq = none) (hp : t.phase = .keyed)
    (ho : t.opc ≠ 0x03) :
    engineTurn t = .next { t with
      acc := 0
      rt := if t.opc = 0x02 then t.tag else t.rt
      phase := .hashingAad 0 } := by
  have e : sequencerStep t = .next (keyedStep t) := by rw [sequencerStep, hp]
  rw [engineTurn_sequencer hr hq, e, keyedStep, if_neg ho]; rfl

theorem step_hashAad_end {t : State} {i : Nat} (hr : t.rstN = true) (hq : t.bcReq = none)
    (hp : t.phase = .hashingAad i) (hi : i = chunkCount t.aadLen.toNat) :
    engineTurn t = .next { t with phase := if t.opc = 0x02 then .decPass1 .init else .hashingMsg 0 } := by
  have e : sequencerStep t = hashAadStep i t := by rw [sequencerStep, hp]
  rw [engineTurn_sequencer hr hq, e, hashAadStep, if_neg (not_lt_of_chunkCount hi)]

theorem step_hashMsg_end {t : State} {i : Nat} (hr : t.rstN = true) (hq : t.bcReq = none)
    (hp : t.phase = .hashingMsg i) (hi : i = chunkCount t.msgLen.toNat) :
    engineTurn t = .next (hashMsgEnd t) := by
  have e : sequencerStep t = hashMsgStep i t := by rw [sequencerStep, hp]
  rw [engineTurn_sequencer hr hq, e, hashMsgStep, if_neg (not_lt_of_chunkCount hi)]

theorem step_hashMsg_tagging {t : State} {i : Nat} (hr : t.rstN = true) (hq : t.bcReq = none)
    (hp : t.phase = .hashingMsg i) (hi : i = chunkCount t.msgLen.toNat) (ho : t.opc ≠ 0x04) :
    engineTurn t = .next { t with phase := .tagging .len } := by
  rw [step_hashMsg_end hr hq hp hi, hashMsgEnd, if_neg ho]

/-- The tag of a state whose accumulator has absorbed the data (43_tag_generator.md R150 to R154). -/
def tagOf (t : State) : Block :=
  Config.blockEncrypt t.optKsz (keyInUse t.optKsz t.esub)
    (tagInput t.optNprof t.nonce (dot (t.acc ^^^ lengthBlock t.aadLen.toNat t.msgLen.toNat) t.hsub))

/-- The tag generator up to TG.ENC's request. -/
def taggedState (t : State) : State :=
  { t with
    acc := dot (t.acc ^^^ lengthBlock t.aadLen.toNat t.msgLen.toNat) t.hsub
    phase := .tagging (.enc
      (tagInput t.optNprof t.nonce (dot (t.acc ^^^ lengthBlock t.aadLen.toNat t.msgLen.toNat) t.hsub))) }

theorem run_tag_input {t : State} (hr : t.rstN = true) (hq : t.bcReq = none) (ht : t.turns = [])
    (hp : t.phase = .tagging .len) : runSteps 2 t = .next (taggedState t) := by
  have e : sequencerStep t = .next (tgLen t) := by rw [sequencerStep, hp]; rfl
  have e1 : engineTurn t = .next (tgLen t) := by rw [engineTurn_sequencer hr hq, e]
  rw [runSteps_succ ht e1]
  refine runSteps_one (s := tgLen t) ht ?_
  rw [engineTurn_sequencer (s := tgLen t) hr hq]; rfl

theorem sequencer_tag (t : State) : sequencerStep (taggedState t) = .next { taggedState t with
    bcReq := some ⟨t.optKsz, keyInUse t.optKsz t.esub,
      tagInput t.optNprof t.nonce (dot (t.acc ^^^ lengthBlock t.aadLen.toNat t.msgLen.toNat) t.hsub)⟩ } := rfl

/-- The tag generator with its call answered (R155). -/
theorem run_tag {t : State} (hr : t.rstN = true) (hq : t.bcReq = none) (ht : t.turns = [])
    (hp : t.phase = .tagging .len) (hf : nextFails t = false) :
    runSteps 4 t = .next { taggedState t with
      tcalc := tagOf t
      answers := t.answers.drop 1
      calls := t.calls + 1
      phase := if t.opc = 0x02 then .comparing else .keystream .init } := by
  refine runSteps_trans (run_tag_input hr hq ht hp)
    (runSteps_call (s := taggedState t) hr hq ht (sequencer_tag t) hf ?_)
  have e : takeAnswer (tagOf t) (endCall (taggedState t)) = .next (tgEnc (tagOf t) (endCall (taggedState t))) := rfl
  refine Eq.trans (show _ = _ from e) ?_
  simp only [tgEnc, endCall, taggedState, List.drop_one, hq]

theorem step_ctr_init {t : State} (hr : t.rstN = true) (hq : t.bcReq = none) (hp : t.phase = .keystream .init) :
    engineTurn t = .next { t with
      cb0 := ctrBlock0 t.params.ctrMsb (if t.opc = 0x02 then t.rt else t.tcalc)
      blk := 0
      phase := .keystream .block } := by
  have e : sequencerStep t = .next (keystreamStep .init t) := by rw [sequencerStep, hp]
  rw [engineTurn_sequencer hr hq, e]; rfl

theorem step_ctr_init_enc {t : State} (hr : t.rstN = true) (hq : t.bcReq = none) (hp : t.phase = .keystream .init)
    (ho : t.opc ≠ 0x02) :
    engineTurn t = .next { t with
      cb0 := ctrBlock0 t.params.ctrMsb t.tcalc
      blk := 0
      phase := .keystream .block } := by
  rw [step_ctr_init hr hq hp, if_neg ho]

theorem step_pass1_init {t : State} (hr : t.rstN = true) (hq : t.bcReq = none) (hp : t.phase = .decPass1 .init) :
    engineTurn t = .next { t with
      cb0 := ctrBlock0 t.params.ctrMsb t.rt
      blk := 0
      phase := .decPass1 .block } := by
  have e : sequencerStep t = .next (decPass1Step .init t) := by rw [sequencerStep, hp]
  rw [engineTurn_sequencer hr hq, e]; rfl

theorem step_compare {t : State} (hr : t.rstN = true) (hq : t.bcReq = none) (hp : t.phase = .comparing) :
    engineTurn t = .next (compareStep t) := by
  have e : sequencerStep t = .next (compareStep t) := by rw [sequencerStep, hp]
  rw [engineTurn_sequencer hr hq, e]

theorem step_pass_end {t : State} {i : Nat} (hr : t.rstN = true) (hq : t.bcReq = none)
    (hp : t.phase = .keystream .block) (hb : t.blk = BitVec.ofNat 32 i) (hi : i = chunkCount t.msgLen.toNat) :
    engineTurn t = .next (keystreamEnd t) := by
  have e : sequencerStep t = .next (keystreamStep .block t) := by rw [sequencerStep, hp]
  have hn : ¬ 16 * t.blk.toNat < t.msgLen.toNat := by
    rw [hb, ofNat_blk (s := t) (by omega)]; exact not_lt_of_chunkCount hi
  rw [engineTurn_sequencer hr hq, e, keystreamStep, if_neg hn]

theorem step_pass1_end {t : State} {i : Nat} (hr : t.rstN = true) (hq : t.bcReq = none)
    (hp : t.phase = .decPass1 .block) (hb : t.blk = BitVec.ofNat 32 i) (hi : i = chunkCount t.msgLen.toNat) :
    engineTurn t = .next { t with phase := .tagging .len } := by
  have e : sequencerStep t = .next (decPass1Step .block t) := by rw [sequencerStep, hp]
  have hn : ¬ 16 * t.blk.toNat < t.msgLen.toNat := by
    rw [hb, ofNat_blk (s := t) (by omega)]; exact not_lt_of_chunkCount hi
  rw [engineTurn_sequencer hr hq, e, decPass1Step, if_neg hn]

/-! ### The data hashed -/

/-- The bounds the region check gives. -/
theorem aead_bounds {t : State} (hc : regionCheckAead t = true) :
    t.aadOff.toNat + t.aadLen.toNat ≤ t.params.bufBytes ∧ t.msgOff.toNat + t.msgLen.toNat ≤ t.params.bufBytes ∧
      t.outOff.toNat + t.msgLen.toNat ≤ t.params.bufBytes ∧ outPlacementOk t.msgOff t.outOff t.msgLen = true := by
  simp only [regionCheckAead, regionValid, Bool.and_eq_true, decide_eq_true_eq] at hc
  exact ⟨hc.1.1.1, hc.1.1.2, hc.1.2, hc.2⟩

/-- The AAD hashed: the end of HASHING_AAD of an ENCRYPT or DECRYPT. -/
def aadHashed (f : Bool) (t : State) : State :=
  { keyedState f t with
    acc := polyvalFrom (keyedState f t).hsub 0 (pad16 (aadBytes t))
    rt := if t.opc = 0x02 then t.tag else t.rt
    phase := .hashingAad (chunkCount t.aadLen.toNat) }

theorem run_aad_hashed {t : State} {f : Bool} (hr : t.rstN = true) (hq : t.bcReq = none) (ht : t.turns = [])
    (hp : t.phase = .started) (ho : t.opc = 0x01 ∨ t.opc = 0x02) (hF : t.opF = f) (hc : regionCheckAead t = true)
    (hf : NoFail t (keyCalls f t.optKsz)) :
    runSteps (setupSteps f t.optKsz + chunkCount t.aadLen.toNat) t = .next (aadHashed f t) := by
  have r1 := run_keyed_aead hr hq ht hp ho hF hc hf
  have h3 : t.opc ≠ 0x03 := by rcases ho with h | h <;> rw [h] <;> decide
  have r2 := runSteps_trans r1 (runSteps_one ht (step_keyed (t := keyedState f t) hr hq rfl h3))
  have r3 := runSteps_trans r2
    (run_hashAad (chunkCount t.aadLen.toNat) (i := 0) hr hq ht rfl (aead_bounds hc).1 (Nat.zero_add _))
  unfold aadHashed aadBytes
  rw [← absorbed_all, setupSteps, r3]
  simp only [Nat.zero_add]; rfl

/-- The data of an ENCRYPT hashed: TAGGING comes next. -/
def encHashed (f : Bool) (t : State) : State :=
  { keyedState f t with
    acc := polyvalFrom (keyedState f t).hsub (polyvalFrom (keyedState f t).hsub 0 (pad16 (aadBytes t)))
      (pad16 (msgBytes t))
    phase := .tagging .len }

theorem run_enc_hashed {t : State} {f : Bool} (hr : t.rstN = true) (hq : t.bcReq = none) (ht : t.turns = [])
    (hp : t.phase = .started) (ho : t.opc = 0x01) (hF : t.opF = f) (hc : regionCheckAead t = true)
    (hf : NoFail t (keyCalls f t.optKsz)) :
    runSteps (setupSteps f t.optKsz + (chunkCount t.aadLen.toNat + 1) + (chunkCount t.msgLen.toNat + 1)) t =
      .next (encHashed f t) := by
  have r1 := run_aad_hashed hr hq ht hp (.inl ho) hF hc hf
  have h2 : ¬ t.opc = 0x02 := by rw [ho]; decide
  have r2 := runSteps_trans r1 (runSteps_one ht (step_hashAad_end (t := aadHashed f t) hr hq rfl rfl))
  have r3 := runSteps_trans r2 (run_hashMsg (chunkCount t.msgLen.toNat) (i := 0) hr hq ht (if_neg h2)
    (aead_bounds hc).2.1 (Nat.zero_add _))
  have r4 := runSteps_trans r3 (runSteps_one ht (step_hashMsg_tagging hr hq rfl (Nat.zero_add _)
    (show t.opc ≠ 0x04 by rw [ho]; decide)))
  unfold encHashed
  rw [msgBytes, ← absorbed_all, ← Nat.add_assoc, ← Nat.add_assoc, r4]
  simp only [aadHashed, if_neg h2]; rfl

/-- The AAD of a DECRYPT hashed, and pass 1 about to begin. -/
def decReady (f : Bool) (t : State) : State :=
  { keyedState f t with
    acc := polyvalFrom (keyedState f t).hsub 0 (pad16 (aadBytes t))
    rt := t.tag
    cb0 := ctrBlock0 t.params.ctrMsb t.tag
    blk := 0
    phase := .decPass1 .block }

theorem run_dec_ready {t : State} {f : Bool} (hr : t.rstN = true) (hq : t.bcReq = none) (ht : t.turns = [])
    (hp : t.phase = .started) (ho : t.opc = 0x02) (hF : t.opF = f) (hc : regionCheckAead t = true)
    (hf : NoFail t (keyCalls f t.optKsz)) :
    runSteps (setupSteps f t.optKsz + (chunkCount t.aadLen.toNat + 1) + 1) t = .next (decReady f t) := by
  have r1 := run_aad_hashed hr hq ht hp (.inr ho) hF hc hf
  have r2 := runSteps_trans r1 (runSteps_one ht (step_hashAad_end (t := aadHashed f t) hr hq rfl rfl))
  have r3 := runSteps_trans r2 (runSteps_one ht (step_pass1_init hr hq (if_pos ho)))
  rw [← Nat.add_assoc, r3]
  simp only [decReady, aadHashed, if_pos ho]; rfl

/-! ### The keystream pass about to begin -/

/-- An ENCRYPT with its tag computed, at its first keystream block (45_commands.md R200). -/
def encPass (f : Bool) (t : State) : State :=
  { taggedState (encHashed f t) with
    tcalc := tagOf (encHashed f t)
    answers := t.answers.drop (keyCalls f t.optKsz + 1)
    calls := t.calls + (keyCalls f t.optKsz + 1)
    cb0 := ctrBlock0 t.params.ctrMsb (tagOf (encHashed f t))
    blk := 0
    phase := .keystream .block }

theorem run_enc_pass {t : State} {f : Bool} (hr : t.rstN = true) (hq : t.bcReq = none) (ht : t.turns = [])
    (hp : t.phase = .started) (ho : t.opc = 0x01) (hF : t.opF = f) (hc : regionCheckAead t = true)
    (hf : NoFail t (keyCalls f t.optKsz + 1)) :
    runSteps (setupSteps f t.optKsz + (chunkCount t.aadLen.toNat + 1) + (chunkCount t.msgLen.toNat + 1) + 4 + 1) t =
      .next (encPass f t) := by
  have r1 := run_enc_hashed hr hq ht hp ho hF hc (hf.mono (by omega))
  have h2 : ¬ t.opc = 0x02 := by rw [ho]; decide
  have r2 := runSteps_trans r1 (run_tag (t := encHashed f t) hr hq ht rfl
    (NoFail.head (NoFail.after hf rfl rfl) (by omega)))
  have r3 := runSteps_trans r2 (runSteps_one ht (step_ctr_init_enc hr hq (if_neg h2) h2))
  have ha : (encHashed f t).answers.drop 1 = t.answers.drop (keyCalls f t.optKsz + 1) := List.drop_drop ..
  have hca : (encHashed f t).calls + 1 = t.calls + (keyCalls f t.optKsz + 1) := Nat.add_assoc ..
  rw [r3, encPass, ← ha, ← hca]; rfl

/-- A DECRYPT with pass 1 done (R204). -/
def decHashed (f : Bool) (t : State) : State :=
  { pass1To (decReady f t) 0 (chunkCount t.msgLen.toNat) with phase := .tagging .len }

theorem run_dec_hashed {t : State} {f : Bool} (hr : t.rstN = true) (hq : t.bcReq = none) (ht : t.turns = [])
    (hp : t.phase = .started) (ho : t.opc = 0x02) (hF : t.opF = f) (hc : regionCheckAead t = true)
    (hf : NoFail t (keyCalls f t.optKsz + chunkCount t.msgLen.toNat)) :
    runSteps (setupSteps f t.optKsz + (chunkCount t.aadLen.toNat + 1) + (3 * chunkCount t.msgLen.toNat + 2)) t =
      .next (decHashed f t) := by
  have r1 := run_dec_ready hr hq ht hp ho hF hc (hf.mono (by omega))
  have r2 := runSteps_trans r1 (run_pass1 (chunkCount t.msgLen.toNat) (s := decReady f t) (i := 0) hr hq ht rfl rfl
    (aead_bounds hc).2.1 (Nat.le_of_eq (Nat.zero_add _)) (NoFail.after hf rfl rfl))
  have r3 := runSteps_trans r2 (runSteps_one ht (step_pass1_end hr hq rfl rfl (Nat.zero_add _)))
  rw [show ∀ a b c : Nat, a + b + (3 * c + 2) = a + b + 1 + 3 * c + 1 by intros; omega, r3]; rfl

/-- A DECRYPT with the expected tag computed, at COMPARING. -/
def decTagged (f : Bool) (t : State) : State :=
  { taggedState (decHashed f t) with
    tcalc := tagOf (decHashed f t)
    answers := t.answers.drop (keyCalls f t.optKsz + chunkCount t.msgLen.toNat + 1)
    calls := t.calls + (keyCalls f t.optKsz + chunkCount t.msgLen.toNat + 1)
    phase := .comparing }

theorem run_dec_tagged {t : State} {f : Bool} (hr : t.rstN = true) (hq : t.bcReq = none) (ht : t.turns = [])
    (hp : t.phase = .started) (ho : t.opc = 0x02) (hF : t.opF = f) (hc : regionCheckAead t = true)
    (hf : NoFail t (keyCalls f t.optKsz + chunkCount t.msgLen.toNat + 1)) :
    runSteps (setupSteps f t.optKsz + (chunkCount t.aadLen.toNat + 1) + (3 * chunkCount t.msgLen.toNat + 2) + 4) t =
      .next (decTagged f t) := by
  have r1 := run_dec_hashed hr hq ht hp ho hF hc (hf.mono (by omega))
  have ha : (decHashed f t).answers = t.answers.drop (keyCalls f t.optKsz + chunkCount t.msgLen.toNat) := by
    simp only [decHashed, pass1To, decReady, keyedState, List.drop_drop]
  have hca : (decHashed f t).calls = t.calls + (keyCalls f t.optKsz + chunkCount t.msgLen.toNat) := by
    simp only [decHashed, pass1To, decReady, keyedState, Nat.add_assoc]
  have r2 := runSteps_trans r1 (run_tag (t := decHashed f t) hr hq ht rfl
    (NoFail.head (NoFail.after hf ha hca) (by omega)))
  have ho' : (decHashed f t).opc = 0x02 := ho
  rw [r2, if_pos ho', ha, hca, List.drop_drop, Nat.add_assoc]; rfl

/-- A verified DECRYPT at the first keystream block of pass 2. -/
def decPass (f : Bool) (t : State) : State :=
  { decTagged f t with
    cb0 := ctrBlock0 t.params.ctrMsb t.tag
    blk := 0
    phase := .keystream .block }

theorem compareStep_match {t : State} (h : ctEqual t.tcalc t.rt = true) :
    compareStep t = { t with phase := .keystream .init } := if_pos h

theorem compareStep_mismatch {t : State} (h : ctEqual t.tcalc t.rt = false) :
    compareStep t = complete .authenticationFailure t := if_neg (by rw [h]; decide)

theorem decTagged_tcalc (f : Bool) (t : State) : (decTagged f t).tcalc = tagOf (decHashed f t) := rfl

theorem decTagged_rt (f : Bool) (t : State) : (decTagged f t).rt = t.tag := rfl

theorem decTagged_phase (f : Bool) (t : State) : (decTagged f t).phase = .comparing := rfl

/-- The fields of a DECRYPT at COMPARING that are still those of its acceptance. -/
theorem decTagged_kept (f : Bool) (t : State) :
    (decTagged f t).rstN = t.rstN ∧ (decTagged f t).bcReq = t.bcReq ∧ (decTagged f t).turns = t.turns ∧
      (decTagged f t).opc = t.opc ∧ (decTagged f t).params = t.params := by
  simp only [decTagged, taggedState, decHashed, pass1To, decReady, keyedState, and_self]

theorem decTagged_outputs (f : Bool) (t : State) :
    (decTagged f t).tag = t.tag ∧ (decTagged f t).buf = t.buf ∧ (decTagged f t).result = t.result ∧
      (decTagged f t).dkh = t.dkh ∧ (decTagged f t).dke = t.dke ∧
      (decTagged f t).esub = (subkeys f t.optKsz t.optNprof t.hkey t.key t.nonce).2 := by
  simp only [decTagged, taggedState, decHashed, pass1To, decReady, keyedState, and_self]

theorem step_verified {t : State} {f : Bool} (hr : t.rstN = true) (hq : t.bcReq = none) (ht : t.turns = [])
    (ho : t.opc = 0x02) (h : ctEqual (tagOf (decHashed f t)) t.tag = true) :
    runSteps 2 (decTagged f t) = .next (decPass f t) := by
  obtain ⟨k1, k2, k3, k4, k5⟩ := decTagged_kept f t
  rw [← decTagged_tcalc, ← decTagged_rt f] at h
  have h2 := decTagged_rt f t
  have h3 := decTagged_phase f t
  rw [decPass, ← k5, ← h2]
  rw [hr] at k1; rw [hq] at k2; rw [ht] at k3; rw [ho] at k4
  generalize decTagged f t = u at *
  have r1 : engineTurn u = .next { u with phase := .keystream .init } := by
    rw [step_compare k1 k2 h3, compareStep_match h]
  rw [runSteps_succ k3 r1]
  refine runSteps_one (by exact k3) ?_
  rw [step_ctr_init (by exact k1) (by exact k2) rfl, if_pos (by exact k4)]

theorem step_rejected {t : State} {f : Bool} (hr : t.rstN = true) (hq : t.bcReq = none) (ht : t.turns = [])
    (h : ctEqual (tagOf (decHashed f t)) t.tag = false) :
    runSteps 1 (decTagged f t) = .next (complete .authenticationFailure (decTagged f t)) := by
  obtain ⟨k1, k2, k3, _, _⟩ := decTagged_kept f t
  rw [← decTagged_tcalc, ← decTagged_rt f] at h
  have h3 := decTagged_phase f t
  rw [hr] at k1; rw [hq] at k2; rw [ht] at k3
  generalize decTagged f t = u at *
  exact runSteps_one k3 (by rw [step_compare k1 k2 h3, compareStep_mismatch h])

/-! ### The pure functions of the machine's states -/

theorem aadBytes_length (t : State) : (aadBytes t).length = t.aadLen.toNat := bufGetBytes_length ..

theorem msgBytes_length (t : State) : (msgBytes t).length = t.msgLen.toNat := bufGetBytes_length ..

theorem dot_polyvalFrom (h : Block) (xs ys : List Block) (l : Block) :
    dot (polyvalFrom h (polyvalFrom h 0 xs) ys ^^^ l) h = polyval h (xs ++ ys ++ [l]) := by
  simp [polyval, polyvalFrom, List.foldl_append]

/-- ENCRYPT's computed tag is `computeTag` of its inputs (43_tag_generator.md R154). -/
theorem tagOf_encHashed (f : Bool) (t : State) : tagOf (encHashed f t) =
    computeTag t.optKsz t.optNprof
      (aeadHash (subkeys f t.optKsz t.optNprof t.hkey t.key t.nonce).1 (aadBytes t) (msgBytes t)) t.nonce
      (subkeys f t.optKsz t.optNprof t.hkey t.key t.nonce).2 := by
  rw [computeTag, aeadHash, aadBytes_length, msgBytes_length, ← dot_polyvalFrom]; rfl

/-- The bytes a pass leaves under the initial counter block of a tag are `ctrApply`'s. -/
theorem outByte_eq {s : State} {tag : Block} (hc : s.cb0 = ctrBlock0 s.params.ctrMsb tag) {k : Nat}
    (hk : k < s.msgLen.toNat) :
    outByte s k = (ctrApply s.params.ctrMsb s.optKsz tag s.esub (msgBytes s)).getD k 0 := by
  rw [ctrApply_getD _ _ _ _ _ (by rw [msgBytes_length]; exact hk), outByte, ksBlock, keystreamBlock, hc]
  congr 1
  rw [List.getD_eq_getElem?_getD, List.getElem?_eq_getElem (by rw [msgBytes_length]; exact hk)]
  exact (bufGetBytes_getElem ..).symm

theorem chunkOf_ctrApply (msb ksz : Bool) (t : Block) (ek : Key) (d : List Byte) (i : Nat) :
    chunkOf (ctrApply msb ksz t ek d) i = xorChunk (chunkOf d i) (keystreamBlock msb ksz t ek i) := by
  apply List.ext_getElem
  · rw [chunkOf_length, xorChunk_length', chunkOf_length, ctrApply_length]
  · intro k h1 h2
    have hk : k < 16 := by
      rw [chunkOf_length, chunkLen] at h1; omega
    simp only [xorChunk_getElem, chunkOf, List.getElem_take, List.getElem_drop, ctrApply_bytes, List.getElem_mapIdx]
    rw [show (16 * i + k) / 16 = i by omega, show (16 * i + k) % 16 = k by omega]

/-- The blocks pass 1 absorbs are those of the candidate plaintext (41_polyval.md R118). -/
theorem candidates_eq {s : State} {tag : Block} (hc : s.cb0 = ctrBlock0 s.params.ctrMsb tag) :
    candidates s 0 (chunkCount s.msgLen.toNat) =
      pad16 (ctrApply s.params.ctrMsb s.optKsz tag s.esub (msgBytes s)) := by
  rw [pad16, ctrApply_length, msgBytes_length, candidates, List.range_eq_range']
  apply List.map_congr_left
  intro i _
  rw [chunkOf_ctrApply, msgBytes, chunkOf_bufGetBytes, ksBlock, hc]; rfl

/-- DECRYPT's expected tag is `computeTag` of its inputs and the candidate plaintext (45_commands.md R204). -/
theorem tagOf_decHashed (f : Bool) (t : State) : tagOf (decHashed f t) =
    computeTag t.optKsz t.optNprof
      (aeadHash (subkeys f t.optKsz t.optNprof t.hkey t.key t.nonce).1 (aadBytes t)
        (ctrApply t.params.ctrMsb t.optKsz t.tag (subkeys f t.optKsz t.optNprof t.hkey t.key t.nonce).2
          (msgBytes t))) t.nonce
      (subkeys f t.optKsz t.optNprof t.hkey t.key t.nonce).2 := by
  rw [computeTag, aeadHash, aadBytes_length, ctrApply_length, msgBytes_length, ← dot_polyvalFrom]
  have e := candidates_eq (s := decReady f t) (tag := t.tag) rfl
  have e2 : (decReady f t).esub = (subkeys f t.optKsz t.optNprof t.hkey t.key t.nonce).2 := rfl
  have e3 : msgBytes (decReady f t) = msgBytes t := rfl
  have e4 : (decReady f t).params = t.params := rfl
  have e5 : (decReady f t).optKsz = t.optKsz := rfl
  have e6 : (decReady f t).msgLen = t.msgLen := rfl
  rw [e2, e3, e4, e5, e6] at e
  rw [← e]; rfl

/-! ### A command in progress, and its completion -/

/-- A state of a running command: the accepted state, but for the units' registers, the outputs, BUF, the phase, the
outstanding request, and `n` calls made since. -/
def InProgress (op : BitVec 8) (f : Bool) (n : Nat) (s u : State) : Prop :=
  u = { acceptedState op f s with
    acc := u.acc
    hsub := u.hsub
    esub := u.esub
    cb0 := u.cb0
    blk := u.blk
    tcalc := u.tcalc
    rt := u.rt
    result := u.result
    dkh := u.dkh
    dke := u.dke
    tag := u.tag
    buf := u.buf
    bcReq := u.bcReq
    phase := u.phase
    answers := s.answers.drop n
    calls := s.calls + n }

theorem InProgress.inputs {op : BitVec 8} {f : Bool} {n : Nat} {s u : State} (h : InProgress op f n s u) :
    u.params = s.params ∧ u.rstN = s.rstN ∧ u.turns = s.turns ∧ SameInputs s u ∧ u.opc = op ∧ u.opF = f ∧
      u.optKsz = s.ksz ∧ u.optNprof = s.nprof ∧ u.answers = s.answers.drop n ∧ u.calls = s.calls + n := by
  have e : u = _ := h
  exact ⟨(congrArg State.params e :), (congrArg State.rstN e :), (congrArg State.turns e :),
    ⟨(congrArg State.ctrl e :), (congrArg State.aadOff e :), (congrArg State.aadLen e :), (congrArg State.msgOff e :),
      (congrArg State.msgLen e :), (congrArg State.outOff e :), (congrArg State.nonce e :)⟩,
    ((congrArg State.opc e :)).trans (accepted_opc op f s), ((congrArg State.opF e :)).trans (accepted_opF op f s),
    (congrArg State.optKsz e :), (congrArg State.optNprof e :), (congrArg State.answers e :), (congrArg State.calls e :)⟩

/-- The completion of a key-reading command (45_commands.md R192, R193). -/
theorem InProgress.completed {op : BitVec 8} {f : Bool} {n : Nat} {s u : State} (h : InProgress op f n s u)
    (o : CmdOutcome) (hz : zeroizesKeys o op = true) :
    complete o u =
      { finished op f o n s with tag := u.tag, buf := u.buf, result := u.result, dkh := u.dkh, dke := u.dke } := by
  obtain ⟨_, _, _, _, ho, hF, hk, hn, _, _⟩ := h.inputs
  have hs : statusCompleted o u.status = (s.status &&& 0x80) ||| outcomeBit o ||| 0x02 := by
    rw [show u.status = statusBusy (statusAccepted s.status) by have e : u = _ := h; exact (congrArg State.status e :)]
    generalize s.status = st
    cases o <;> (revert st; decide)
  unfold complete finished
  rw [ho, hz, hs, if_pos rfl, if_pos rfl]
  rw [InProgress] at h
  rw [← hF, ← hk, ← hn, ← ho, h]
  rfl

theorem decTagged_inProgress (f : Bool) (s : State) :
    InProgress 0x02 f (keyCalls f s.ksz + chunkCount s.msgLen.toNat + 1) s (decTagged f (acceptedState 0x02 f s)) := by
  simp only [InProgress, decTagged, taggedState, decHashed, pass1To, decReady, keyedState]; rfl

theorem decPass_inProgress (f : Bool) (s : State) :
    InProgress 0x02 f (keyCalls f s.ksz + chunkCount s.msgLen.toNat + 1) s (decPass f (acceptedState 0x02 f s)) := by
  have h := decTagged_inProgress f s
  unfold InProgress decPass at *
  rw [h]

theorem decPass_outputs (f : Bool) (t : State) :
    (decPass f t).tag = t.tag ∧ (decPass f t).buf = t.buf ∧ (decPass f t).result = t.result ∧
      (decPass f t).dkh = t.dkh ∧ (decPass f t).dke = t.dke ∧
      (decPass f t).esub = (subkeys f t.optKsz t.optNprof t.hkey t.key t.nonce).2 ∧
      (decPass f t).phase = .keystream .block ∧ (decPass f t).blk = 0 ∧
      (decPass f t).cb0 = ctrBlock0 t.params.ctrMsb t.tag ∧ (decPass f t).bcReq = t.bcReq := by
  simp only [decPass, decTagged, taggedState, decHashed, pass1To, decReady, keyedState, and_self]

theorem encPass_inProgress (f : Bool) (s : State) :
    InProgress 0x01 f (keyCalls f s.ksz + 1) s (encPass f (acceptedState 0x01 f s)) := by
  simp only [InProgress, encPass, taggedState, encHashed, keyedState]; rfl

end Sys2Proof.Machine
end

