-- ==== Sys2Proof/Laws/PerInstr.lean ====
section
/-! SUPPORT. Statements made per instruction. RoundTrip: the bits of an instruction, numbered as spec/opcode_table.json
numbers them, are read back as that instruction, and the transaction word by which the host issues them carries
every operand bit. -/

namespace Sys2Proof

open Sys2Proof.Machine

/-- How many bits the table gives a form. -/
def Laws.formBits : Format → Nat
  | .command => 32
  | .transaction => 53

/-- The table word of the instruction decodes to it, and its bits fit the form. -/
def Laws.RoundTrip.Statement (i : Instr) : Prop :=
  decodeTableWord (Laws.formBits (encode i).format) (encode i).toNat = some i ∧
    (encode i).toNat < 2 ^ Laws.formBits (encode i).format

theorem Laws.bytesOfNat_seven (n : Nat) : bytesOfNat 7 n =
    [BitVec.ofNat 8 n, BitVec.ofNat 8 (n / 256), BitVec.ofNat 8 (n / 256 / 256), BitVec.ofNat 8 (n / 256 / 256 / 256),
      BitVec.ofNat 8 (n / 256 / 256 / 256 / 256), BitVec.ofNat 8 (n / 256 / 256 / 256 / 256 / 256),
      BitVec.ofNat 8 (n / 256 / 256 / 256 / 256 / 256 / 256)] := rfl

theorem Laws.byte_of_shift (w : BitVec 53) (k : Nat) : BitVec.ofNat 8 (w.toNat / 2 ^ k) = w.extractLsb' k 8 := by
  apply BitVec.eq_of_toNat_eq
  simp [Nat.shiftRight_eq_div_pow]

/-- Seven bytes of a transaction word, put together again. -/
theorem Laws.join_bytes (w : BitVec 53) :
    (w.extractLsb' 48 8).extractLsb' 0 5 ++ w.extractLsb' 40 8 ++ w.extractLsb' 32 8 ++ w.extractLsb' 24 8 ++
      w.extractLsb' 16 8 ++ w.extractLsb' 8 8 ++ w.extractLsb' 0 8 = w := by
  apply BitVec.eq_of_getLsbD_eq
  intro i hi
  simp only [BitVec.getLsbD_append, BitVec.getLsbD_extractLsb']
  interval_cases i <;> rfl

theorem Laws.decodeTable_transaction (w : BitVec 53) : decodeTableWord 53 w.toNat = some (decodeTransaction w) := by
  have hw : w.toNat < 2 ^ 56 := Nat.lt_of_lt_of_le w.isLt (by decide)
  have hz : (w.extractLsb' 48 8).extractLsb' 5 3 = 0#3 := by
    apply BitVec.eq_of_getLsbD_eq
    intro i hi
    have : 53 ≤ 48 + (5 + i) := by omega
    simp [this]
  have e : ∀ a b c : Nat, a * b = c → ∀ n : Nat, n / a / b = n / c := fun a b c h n => by
    rw [Nat.div_div_eq_div_mul, h]
  have hb : bytesOfNat 7 w.toNat = [w.extractLsb' 0 8, w.extractLsb' 8 8, w.extractLsb' 16 8, w.extractLsb' 24 8,
      w.extractLsb' 32 8, w.extractLsb' 40 8, w.extractLsb' 48 8] := by
    rw [bytesOfNat_seven, e 256 256 (2 ^ 16) rfl, e (2 ^ 16) 256 (2 ^ 24) rfl, e (2 ^ 24) 256 (2 ^ 32) rfl,
      e (2 ^ 32) 256 (2 ^ 40) rfl, e (2 ^ 40) 256 (2 ^ 48) rfl]
    simp only [byte_of_shift w _, show (256 : Nat) = 2 ^ 8 from rfl]
    rw [← byte_of_shift w 0]; simp
  simp only [decodeTableWord, formatOfBits, Format.bytes, show ¬ (53 ≤ 32) by decide, if_false, hb, decodeBytes, hz,
    join_bytes]
  exact if_pos hw

theorem Laws.RoundTrip.nop : Laws.RoundTrip.Statement .nop := ⟨by decide, by decide⟩

theorem Laws.RoundTrip.encrypt (f : Bool) : Laws.RoundTrip.Statement (.encrypt f) := by
  cases f <;> exact ⟨by decide, by decide⟩

theorem Laws.RoundTrip.decrypt (f : Bool) : Laws.RoundTrip.Statement (.decrypt f) := by
  cases f <;> exact ⟨by decide, by decide⟩

theorem Laws.RoundTrip.derive : Laws.RoundTrip.Statement .derive := ⟨by decide, by decide⟩

theorem Laws.RoundTrip.pvHash (l : Bool) : Laws.RoundTrip.Statement (.pvHash l) := by
  cases l <;> exact ⟨by decide, by decide⟩

theorem Laws.RoundTrip.clear : Laws.RoundTrip.Statement .clear := ⟨by decide, by decide⟩

/-- The fields of a transaction word, out again. -/
theorem Laws.fields_of_word (write : Bool) (a : BitVec 16) (s : BitVec 4) (d : Word) :
    (transactionWord write a s d).getLsbD 52 = write ∧ (transactionWord write a s d).extractLsb' 36 16 = a ∧
      (transactionWord write a s d).extractLsb' 32 4 = s ∧ (transactionWord write a s d).extractLsb' 0 32 = d := by
  refine ⟨?_, ?_, ?_, ?_⟩
  · simp only [transactionWord, BitVec.getLsbD_append]; cases write <;> rfl
  all_goals
    apply BitVec.eq_of_getLsbD_eq
    intro i hi
    simp only [transactionWord, BitVec.getLsbD_append, BitVec.getLsbD_extractLsb']
    repeat' split
    all_goals first | omega | simp [*]

theorem Laws.RoundTrip.rd (addr : BitVec 16) (strb : BitVec 4) (data : Word) :
    Laws.RoundTrip.Statement (.rd addr strb data) := by
  obtain ⟨hw, ha, hs, hd⟩ := fields_of_word false addr strb data
  refine ⟨(decodeTable_transaction (transactionWord false addr strb data)).trans ?_,
    (transactionWord false addr strb data).isLt⟩
  simp only [decodeTransaction, hw, ha, hs, hd]; rfl

theorem Laws.RoundTrip.wr (addr : BitVec 16) (strb : BitVec 4) (data : Word) :
    Laws.RoundTrip.Statement (.wr addr strb data) := by
  obtain ⟨hw, ha, hs, hd⟩ := fields_of_word true addr strb data
  refine ⟨(decodeTable_transaction (transactionWord true addr strb data)).trans ?_,
    (transactionWord true addr strb data).isLt⟩
  simp only [decodeTransaction, hw, ha, hs, hd]; rfl

end Sys2Proof
end

