-- ==== Sys2Proof/WellFormed.lean ====
section
/-! DEFINITION. Which instructions the assembler of 30_encoding.md R77 writes.
The operand types admit exactly the bit patterns of the encodings, so every term has an encoding and
every term runs; the one freedom the assembler does not use is the STRB and DATA of a read, which R75
ignores and R77 writes as zeros (`RD t` is `0_tttt_0_00000000`). -/

namespace Sys2Proof

/-- The canonical form of R77: a read carries STRB = 0 and DATA = 0. -/
def Instr.wellFormed : Instr → Bool
  | .nop => true
  | .encrypt _ => true
  | .decrypt _ => true
  | .derive => true
  | .pvHash _ => true
  | .clear => true
  | .rd _ strb data => strb == 0 && data == 0
  | .wr _ _ _ => true

end Sys2Proof
end

