-- ==== Sys2Proof/Tests/Slice0.lean ====
section
/-! SUPPORT. Tests of single steps and of the pure functions, with values from spec/95_test_vectors.md and the examples
of the rules, and for each statement with hypotheses a witness that meets them all. -/

namespace Sys2Proof.Tests

open Sys2Proof Sys2Proof.Machine

/-! ### Decoding: the words of 30_encoding.md R71, R75 and R77, written out -/

theorem test_decode_commands :
    decodeCommand 0b00000000000000000000000_0_00000000 = .ok .nop ∧
    decodeCommand 0b00000000000000000000000_0_00000001 = .ok (.encrypt false) ∧
    decodeCommand 0b00000000000000000000000_1_00000001 = .ok (.encrypt true) ∧
    decodeCommand 0b00000000000000000000000_0_00000010 = .ok (.decrypt false) ∧
    decodeCommand 0b00000000000000000000000_1_00000010 = .ok (.decrypt true) ∧
    decodeCommand 0b00000000000000000000000_0_00000011 = .ok .derive ∧
    decodeCommand 0b00000000000000000000000_0_00000100 = .ok (.pvHash false) ∧
    decodeCommand 0b00000000000000000000000_1_00000100 = .ok (.pvHash true) ∧
    decodeCommand 0b00000000000000000000000_0_00001111 = .ok .clear := by decide

/-- V-ERR-10, V-ERR-11, V-ERR-12, and the other limits of R73. -/
theorem test_decode_illegal :
    decodeCommand 0x00010001 = .error .reservedBits ∧ decodeCommand 0x80000000 = .error .reservedBits ∧
    decodeCommand 0x00000200 = .error .reservedBits ∧ decodeCommand 0x00000103 = .error .flagNotAllowed ∧
    decodeCommand 0x00000100 = .error .flagNotAllowed ∧ decodeCommand 0x0000010F = .error .flagNotAllowed ∧
    decodeCommand 0x00000005 = .error .reservedOpcode ∧ decodeCommand 0x0000000E = .error .reservedOpcode ∧
    decodeCommand 0x00000010 = .error .reservedOpcode ∧ decodeCommand 0x000000FF = .error .reservedOpcode := by decide

/-- V-HB-1, V-HB-4, V-HB-5, V-HB-12: HT words as R77 renders them. -/
theorem test_decode_transactions :
    decodeTransaction 0x00000000000000 = .rd 0x0000 0x0 0x00000000 ∧
    decodeTransaction 0x08002000000000 = .rd 0x8002 0x0 0x00000000 ∧
    decodeTransaction 0x10008300000007 = .wr 0x0008 0x3 0x00000007 ∧
    decodeTransaction 0x180104AABBCCDD = .wr 0x8010 0x4 0xAABBCCDD := by decide

/-- Truncated bytes, and bits above bit 52, are refused by name. -/
theorem test_decode_bytes :
    decodeBytes .command [0x01, 0x01, 0x00, 0x00, 0xAA] = .ok (.encrypt true, [0xAA]) ∧
    decodeBytes .command [0x01, 0x01, 0x00] = .error .truncated ∧
    decodeBytes .transaction [0x05, 0x00, 0x00, 0x00, 0x8F, 0x00, 0x10] = .ok (.wr 0x0008 0xF 0x00000005, []) ∧
    decodeBytes .transaction [0x05, 0x00, 0x00, 0x00, 0x8F, 0x00, 0x20] = .error .beyondTransactionWord := by decide

/-- R77 writes a read with STRB = 0 and DATA = 0; the check refuses the other spellings. -/
theorem test_wellFormed :
    Instr.wellFormed (.rd 0x0010 0 0) = true ∧ Instr.wellFormed (.rd 0 1 0) = false ∧
    Instr.wellFormed (.rd 0 0 1) = false ∧ Instr.wellFormed (.wr 0 0 1) = true := by decide

/-! ### The pure functions -/

/-- V-PV-1: H. -/
def hPv : Block := 0x7b754bba26f8311d7642925847936225

/-- V-PV-1: X1. -/
def x1 : Block := 0x62a2012dbb621740b6df838c66954f4f

/-- V-PV-1: X2. -/
def x2 : Block := 0x62f3c9d3205fe4bb06d02127dd4da2d1

/-- V-PV-1: the accumulator after X1. -/
theorem test_polyval_one : polyval hPv [x1] = 0x776d08511501169c9850ff3745c6dace := by decide +kernel

/-- V-PV-1: RESULT. -/
theorem test_polyval_two : polyval hPv [x1, x2] = 0x7eb7e5f56c86b7e5fa1961847bb4a3f7 := by decide +kernel

/-- V-PV-3: R is the neutral element. -/
theorem test_dot_R : dot x1 0xc2000000000000000000000000000001 = x1 := by decide +kernel

/-- V-PV-4: padding and LB(5, 3). -/
theorem test_padding :
    pad16 [0x01, 0x02, 0x03, 0x04, 0x05] = [0x0504030201] ∧ pad16 [0xaa, 0xbb, 0xcc] = [0xccbbaa] ∧ pad16 [] = [] ∧
    lengthBlock 5 3 = 0x00000000000000180000000000000028 := by decide

/-- V-KD-1, V-KD-2, V-KD-3: KDB under both profiles. -/
theorem test_kdb :
    kdb false 0x03 3 = 0x0000000000000000_00000003_00000003 ∧
    kdb false 0x1f1e1d1c1b1a19181716151413121110 0 = 0x1b1a19181716151413121110_00000000 ∧
    kdb true 0x1f1e1d1c1b1a19181716151413121110 0 = 0x1f1e1d1c1b1a191817161514_00000000 := by decide

/-- V-TG-2: TIN under both profiles. -/
theorem test_tagInput :
    tagInput false 0x100f0e0d0c0b0a090807060504030201 0xffeeddccbbaa99887766554433221100 =
      0x7feeddccb7a193817f61534137211301 ∧
    tagInput true 0x100f0e0d0c0b0a090807060504030201 0xffeeddccbbaa99887766554433221100 =
      0x6fe1d3c1b7a193817f61534137211301 := by decide

/-- V-CTR-1, V-CTR-2, V-CTR-3: CB0, and the wrap of the counter. -/
theorem test_counter :
    ctrBlock0 true 0x25de56ca9e439eb45b70253fd8e220dc = 0xa5de56ca9e439eb45b70253fd8e220dc ∧
    ctrBlock0 true 0xffffffff = 0x800000000000000000000000ffffffff ∧
    counterBlock 0x800000000000000000000000ffffffff 1 = 0x80000000000000000000000000000000 ∧
    ctrBlock0 false 0xffffffff = 0x000000000000000000000000ffffffff := by decide

/-! ### Single steps -/

/-- Reset with these draws for the next block-cipher calls. -/
def withAnswers (bs : List Bool) : State := { State.reset with answers := bs }

/-- A command of this code, accepted on the reset state. -/
def accepted (op : BitVec 8) (f : Bool) : State := { State.reset with status := 0x01, opc := op, opF := f, phase := .started }

/-- A field of a next state. -/
def field {α : Type} (f : State → α) : Result → Option α
  | .next t => some (f t)
  | .fault _ => none
  | .refused _ => none

/-- Whether a step is the refusal of a transaction in reset. -/
def isResetRefusal : Result → Bool
  | .next _ => false
  | .fault _ => false
  | .refused r => r = .transactionInReset

/-- A field of what a transaction word leaves. -/
def after {α : Type} (f : State → α) (s : State) (ht : BitVec 53) : Option α :=
  field f (step { s with turns := [.host ht] })

/-- V-ERR-13, V-ERR-14, V-ERR-12: NOP, NOP over a prior STATUS, an illegal word. -/
theorem test_nop_illegal :
    after State.status State.reset 0x1000CF00000000 = some 0x02 ∧
    after State.status { State.reset with status := 0xA2 } 0x1000CF00000000 = some 0x82 ∧
    after State.status { State.reset with key := 5 } 0x1000CF00000005 = some 0x42 ∧
    after State.key { State.reset with key := 5 } 0x1000CF00010001 = some 5 := by decide

/-- V-HB-1, V-HB-2, V-HB-3, V-HB-4. -/
theorem test_rd :
    after State.resp State.reset 0x00000000000000 = some (.read 0x56495347 false) ∧
    after State.resp State.reset 0x00004000000000 = some (.read 0x01070800 false) ∧
    after State.resp State.reset 0x00014000000000 = some (.read 0 true) ∧
    after State.resp State.reset 0x08002000000000 = some (.read 0 true) := by decide

/-- V-HB-7, V-HB-10, V-HB-11: KEY0 reads zero, and reads while BUSY = 1. -/
theorem test_rd_hidden :
    after State.resp { State.reset with key := 0x43424140 } 0x00040000000000 = some (.read 0 false) ∧
    after State.resp { accepted 0x01 false with tag := 0x12345678 } 0x00070000000000 = some (.read 0 false) ∧
    after State.resp (accepted 0x01 false) 0x00010000000000 = some (.read 0x00000001 false) := by decide

/-- V-HB-5, V-HB-6, V-HB-8, V-HB-9, V-HB-14. -/
theorem test_wr :
    after (fun t => (t.ctrl, t.resp, t.status)) { State.reset with ctrl := 1 } 0x10008300000007 =
      some (0x1, .write true, 0x00) ∧
    after State.ctrl State.reset 0x10008FFFFFFFFF = some 0x7 ∧
    after State.status { State.reset with status := 0x02 } 0x10010F00000001 = some 0x02 ∧
    after (fun t => (t.tag, t.resp, t.status)) (accepted 0x01 false) 0x10070F12345678 = some (0, .write false, 0x81) ∧
    after (fun t => (t.result, t.resp)) State.reset 0x10080F00000001 = some (0, .write false) := by decide

/-- V-HB-12, V-HB-13: a strobed byte write, and the last word of the window. -/
theorem test_wr_rd_window :
    after (fun t => [0x10, 0x11, 0x12, 0x13].map (bufGet t.buf)) { State.reset with buf := { base := .zero, cells := [] } }
      0x180104AABBCCDD = some [0x00, 0x00, 0xBB, 0x00] ∧
    after State.resp { State.reset with buf := { base := .zero, cells := [(0x7FFC, 0x11), (0x7FFF, 0x44)] } }
      0x0FFFC000000000 = some (.read 0x44000011 false) := by decide

/-- Acceptance latches code, F and options, and sets BUSY (R190, R191), for a two-key ENCRYPT with KSZ = 1. -/
theorem test_accept :
    after (fun t => (t.opc, t.opF, t.optKsz, t.optNprof, t.status, t.phase)) { State.reset with ctrl := 1, status := 0x86 }
      0x1000CF00000101 = some (0x01, true, true, false, 0x81, .started) := by decide

/-- A field of what the engine's turn leaves. -/
def engineAfter {α : Type} (f : State → α) (s : State) : Option α := field f (engineTurn s)

/-- V-ERR-1, V-ERR-2, V-ERR-6 and V-PV-8: the region check ends the command, keys zeroized. -/
theorem test_region_errors :
    engineAfter (fun t => (t.status, t.key)) { accepted 0x01 false with key := 7, msgOff := 0x7FF0, msgLen := 0x11 } =
      some (0x12, 0) ∧
    engineAfter State.status { accepted 0x02 true with msgLen := 0x20, outOff := 0x10 } = some 0x12 ∧
    engineAfter State.status { accepted 0x01 false with aadOff := 0x8001 } = some 0x12 ∧
    engineAfter State.status { accepted 0x04 false with msgOff := 0xFFFFFFF0, msgLen := 0x20 } = some 0x12 := by decide

/-- V-ERR-3, V-ERR-4, V-ERR-5: these pass the region check. -/
theorem test_region_ok :
    engineAfter State.phase { accepted 0x01 true with msgLen := 0x20 } = some .keyed ∧
    engineAfter State.phase { accepted 0x02 true with msgOff := 0x7FF0, msgLen := 0x10 } = some .keyed ∧
    engineAfter State.phase { accepted 0x01 false with aadOff := 0x8000 } = some (.derivingKeys 0 []) := by decide

/-- V-KD-5: the third call of a DERIVE answers FAIL. -/
theorem test_derive_fails :
    engineAfter (fun t => (t.status, t.key, t.hkey, t.dkh))
      { accepted 0x03 false with
        key := 1, hkey := 1, phase := .derivingKeys 2 [0, 0], answers := [true],
        bcReq := some { ksz := false, key := 1, block := 2 } } = some (0x22, 0, 0, 0) := by decide

/-- V-AD-1, V-AD-2: the comparison, and what a mismatch leaves. -/
theorem test_compare :
    engineAfter (fun t => (t.status, t.phase))
      { accepted 0x02 false with
        phase := .comparing, tcalc := 0x25de56ca9e439eb45b70253fd8e220dc, rt := 0x25de56ca9e439eb45b70253fd8e220dc } =
      some (0x01, .keystream .init) ∧
    engineAfter (fun t => (t.status, t.phase, t.tcalc))
      { accepted 0x02 false with
        phase := .comparing, tcalc := 0x25de56ca9e439eb45b70253fd8e220dc, rt := 0x24de56ca9e439eb45b70253fd8e220dc } =
      some (0x0A, .idle, 0) := by decide

/-- V-PV-7: RESULT of empty inputs is zero under any HKEY; the completion of PV_HASH. -/
theorem test_pvHash_end :
    engineAfter (fun t => (t.status, t.result, t.hkey)) { accepted 0x04 false with phase := .hashed, acc := 5, hkey := 9 } =
      some (0x02, 5, 0) ∧
    hashResult false { State.reset with hkey := 9 } = 0 := by decide

/-- R210: CLEAR's own turn. -/
theorem test_clear :
    engineAfter (fun t => (t.status, t.key, t.tag, bufGet t.buf 3, t.nonce))
      { accepted 0x0F false with
        phase := .clearing, key := 1, tag := 2, nonce := 4, buf := { base := .drawn 0, cells := [(3, 9)] } } =
      some (0x02, 0, 0, 0, 4) := by decide

/-- R240, R260: `irq` with IE and DONE; a falling `rst_n` in a running command, and a transaction in reset. -/
theorem test_irq_reset :
    State.irq { State.reset with ctrl := 4, status := 0x02 } = true ∧ State.irq { State.reset with status := 0x02 } = false ∧
    field (fun t => (t.status, t.tag, t.phase, t.rstN, t.buf.base))
      (step { accepted 0x01 false with tag := 7, turns := [.resetLow] }) = some (0x00, 0, .idle, false, .drawn 1) ∧
    isResetRefusal (step { State.reset with rstN := false, turns := [.host 0] }) = true := by decide

/-! ### Witnesses: states and operands that meet the hypotheses of each statement

`test_meets_<Name>` is about `Obligations.<Name>`. A statement without hypotheses has none. -/

/-- A step that answers a next state. -/
theorem next_of_field {r : Result} (h : field (fun _ => ()) r = some ()) : ∃ t, r = .next t := by
  cases r with
  | next t => exact ⟨t, rfl⟩
  | fault _ => cases h
  | refused _ => cases h

theorem next_with_of_field {α : Type} {f : State → α} {v : α} {r : Result} (h : field f r = some v) :
    ∃ t, r = .next t ∧ f t = v := by
  cases r with
  | next t => exact ⟨t, rfl, Option.some.inj h⟩
  | fault _ => cases h
  | refused _ => cases h

theorem noFail_prefix {s : State} {m n : Nat} {r : List Bool} (ha : s.answers = List.replicate m false ++ r)
    (h : n ≤ m) : NoFail s n := fun k hk => by
  have hm : k < m := Nat.lt_of_lt_of_le hk h
  simp [drawAt, ha, List.getD_eq_getElem?_getD, List.getElem?_append, hm]

theorem draw_after_prefix {s : State} {m : Nat} (ha : s.answers = List.replicate m false ++ [true]) :
    drawAt s m = true := by simp [drawAt, ha, List.getD_eq_getElem?_getD]

theorem test_meets_IllegalWords :
    (∃ e, decodeCommand 0x00010001 = .error e) ∧ (∃ e, decodeCommand 0x00000005 = .error e) ∧
    (∃ e, decodeCommand 0x00000100 = .error e) ∧ State.reset.busy = false :=
  ⟨⟨.reservedBits, by decide⟩, ⟨.reservedOpcode, by decide⟩, ⟨.flagNotAllowed, by decide⟩, by decide⟩

theorem test_meets_StepRunsDecoded :
    State.reset.rstN = true ∧ (∃ ht rest, { State.reset with turns := [Turn.host 0x10008F00000005] }.turns = .host ht :: rest) ∧
    State.reset.turns = [] := ⟨rfl, ⟨_, _, rfl⟩, rfl⟩

theorem test_meets_StepRunsTableWord :
    decodeTableWord 32 0x0000000F = some .clear ∧ decodeTableWord 53 0x1FFFFFFFFFFFFF = some (.wr 0xFFFF 0xF 0xFFFFFFFF) := by
  decide

theorem test_meets_CommandIsWriteToCmd :
    decodeCommand 0x00000104 = .ok (.pvHash true) ∧ (accepted 0x01 false).busy = true := by decide

/-- BUSY = 0, the premise of the read and write statements, of NOP and of acceptance. -/
theorem test_meets_idle : State.reset.busy = false ∧ (withAnswers [true]).busy = false := by decide

theorem test_meets_ReadsWhileBusy :
    (accepted 0x02 true).busy = true ∧ registerOffset 0x000C = true ∧ registerOffset 0x00BC = true ∧
    0x000C#16 ∉ [0x0000#16, 0x0004#16, 0x0008#16, 0x0010#16] ∧ 0x00BC#16 ∉ [0x0000#16, 0x0004#16, 0x0008#16, 0x0010#16] ∧
    windowOffset Params.reference 0x8000 = true ∧ windowOffset Params.reference 0xFFFC = true := by decide

theorem test_meets_ReadWindow_WriteWindow :
    State.reset.busy = false ∧ (0x8000#16).toNat = 0x8000 + 0 ∧ (0xFFFC#16).toNat = 0x8000 + 0x7FFC ∧ 0x7FFC % 4 = 0 ∧
    0x7FFC < State.reset.params.bufBytes ∧ Memory.wf State.reset.params.bufBytes State.reset.buf = true := by decide

/-- The unmapped offsets at the edges of the map, misaligned ones, and the end of a smaller buffer. -/
theorem test_meets_BusErrors :
    [0x0014#16, 0x002C#16, 0x00C0#16, 0x7FFC#16, 0x0001#16, 0x0012#16, 0x8002#16].all (fun a =>
      !registerOffset a && !windowOffset Params.reference a) = true ∧
    windowOffset { bufBlocks := 1, ctrMsb := true } 0x8010 = false ∧ registerOffset 0x8010 = false ∧
    registerOffset 0x0008 = true ∧ registerOffset 0x00BC = true ∧ (0x0#4) ≠ 0xF ∧ (0x7#4) ≠ 0xF := by decide

theorem test_meets_BusyWrites :
    (accepted 0x01 false).busy = true ∧ wellFormedWrite Params.reference 0x0010 0xF = true ∧
    wellFormedWrite Params.reference 0xFFFC 0x0 = true ∧
    (∃ t, step { State.reset with status := 0x80, turns := [.host 0x10010F00000080] } = .next t ∧ t.errBusy = false) ∧
    (∃ t, step { State.reset with status := 0x80, turns := [.resetLow] } = .next t ∧ t.errBusy = false) ∧
    State.errBusy { State.reset with status := 0x80 } = true :=
  ⟨by decide, by decide, by decide, next_with_of_field (f := State.errBusy) (by decide),
    next_with_of_field (f := State.errBusy) (by decide), by decide⟩

theorem test_meets_BusyTransactionsDoNotDisturb :
    (accepted 0x01 false).busy = true ∧ (∃ t, exec (.wr 0x000C 0xF 0) (accepted 0x01 false) = .next t) ∧
    (∃ u, engineTurn (accepted 0x01 false) = .next u) :=
  ⟨by decide, next_of_field (by decide), next_of_field (by decide)⟩

theorem test_meets_Acceptance :
    (Instr.clear, 0x0F#8, false) ∈ [(Instr.encrypt false, 0x01#8, false), (.encrypt true, 0x01, true),
      (.decrypt false, 0x02, false), (.decrypt true, 0x02, true), (.derive, 0x03, false), (.pvHash false, 0x04, false),
      (.pvHash true, 0x04, true), (.clear, 0x0F, false)] ∧ State.reset.busy = false := by decide

/-! #### Whole commands -/

/-- One message byte, the last of the buffer, in place, with seven draws that do not fail. -/
def oneByte : State :=
  { withAnswers (List.replicate 7 false) with msgOff := 0x7FFF, msgLen := 1, outOff := 0x7FFF, nonce := 3, key := 1 }

theorem oneByte_ready : Ready oneByte := ⟨rfl, by decide, rfl, rfl⟩

theorem oneByte_noFail {n : Nat} (h : n ≤ 7) : NoFail oneByte n := noFail_prefix (r := []) rfl h

/-- Both variants, and with no message at all. -/
theorem test_meets_EncryptRun :
    Ready oneByte ∧ regionCheckAead oneByte = true ∧
    NoFail oneByte (encryptCalls false oneByte.ksz oneByte.msgLen.toNat) ∧
    NoFail oneByte (encryptCalls true oneByte.ksz oneByte.msgLen.toNat) ∧
    regionCheckAead { oneByte with msgOff := 0x8000, msgLen := 0, aadOff := 0x7FF0, aadLen := 0x10 } = true :=
  ⟨oneByte_ready, by decide, oneByte_noFail (by decide), oneByte_noFail (by decide), by decide⟩

theorem ctEqual_self (x : Block) : ctEqual x x = true := by simp [ctEqual]

/-- `oneByte` with what an ENCRYPT of it makes in the place of its message and tag. -/
def encrypted (f : Bool) : State :=
  { oneByte with
    tag := (encResult f oneByte).2
    buf := bufSetBytes oneByte.buf 0x7FFF (encResult f oneByte).1 }

theorem oneByte_msg : msgBytes oneByte = [bufGet oneByte.buf 0x7FFF] := rfl

theorem encrypted_msg (f : Bool) : msgBytes (encrypted f) = (encResult f oneByte).1 := by
  have hl : (encResult f oneByte).1.length = 1 := by
    rw [encResult, encFn, ctrApply_length, oneByte_msg]; rfl
  apply List.ext_getElem
  · rw [msgBytes, bufGetBytes_length, hl]; rfl
  · intro k h1 h2
    refine (bufGetBytes_getElem (encrypted f).buf 0x7FFF 1 k (by rw [bufGetBytes_length]; omega)).trans ?_
    refine (bufGet_bufSetBytes_at oneByte.buf 0x7FFF k (encResult f oneByte).1 h2).trans ?_
    simp

/-- The hypotheses of DecryptVerified, with a message. -/
theorem encrypted_verifies (f : Bool) : decResult f (encrypted f) = some (msgBytes oneByte) := by
  have hp : ctrApply oneByte.params.ctrMsb oneByte.ksz (encResult f oneByte).2 (cmdSubkeys f oneByte).2
      (encResult f oneByte).1 = msgBytes oneByte := by
    rw [show (encResult f oneByte).1 = ctrApply oneByte.params.ctrMsb oneByte.ksz (encResult f oneByte).2
      (cmdSubkeys f oneByte).2 (msgBytes oneByte) from rfl, oneByte_msg]
    simp [ctrApply_bytes]
  rw [show decResult f (encrypted f) = decFn oneByte.params.ctrMsb oneByte.ksz oneByte.nprof (cmdSubkeys f oneByte).1
      (cmdSubkeys f oneByte).2 oneByte.nonce [] (msgBytes (encrypted f)) (encResult f oneByte).2 from rfl,
    encrypted_msg, decFn]
  simp only [hp]
  exact if_pos (ctEqual_self _)

theorem test_meets_DecryptVerified (f : Bool) :
    Ready (encrypted f) ∧ regionCheckAead (encrypted f) = true ∧ decResult f (encrypted f) = some (msgBytes oneByte) ∧
    NoFail (encrypted f) (decryptCalls f (encrypted f).ksz true (encrypted f).msgLen.toNat) :=
  ⟨⟨rfl, oneByte_ready.2.1, rfl, rfl⟩, show regionCheckAead oneByte = true by decide, encrypted_verifies f,
    show NoFail oneByte (decryptCalls f oneByte.ksz true oneByte.msgLen.toNat) from
      oneByte_noFail (by cases f <;> decide)⟩

/-- No message, and a received tag that differs from the computed one in its lowest bit. -/
def wrongTag (f : Bool) : State :=
  { oneByte with msgLen := 0, tag := (encResult f { oneByte with msgLen := 0 }).2 ^^^ 1 }

theorem wrongTag_rejected (f : Bool) : decResult f (wrongTag f) = none := by
  have hp : ctrApply oneByte.params.ctrMsb oneByte.ksz (wrongTag f).tag (cmdSubkeys f oneByte).2
      (msgBytes (wrongTag f)) = [] := by
    rw [show msgBytes (wrongTag f) = [] from rfl]; simp [ctrApply, chunkCount]
  rw [show decResult f (wrongTag f) = decFn oneByte.params.ctrMsb oneByte.ksz oneByte.nprof (cmdSubkeys f oneByte).1
      (cmdSubkeys f oneByte).2 oneByte.nonce [] (msgBytes (wrongTag f)) (wrongTag f).tag from rfl, decFn]
  simp only [hp]
  rw [show computeTag oneByte.ksz oneByte.nprof (aeadHash (cmdSubkeys f oneByte).1 [] []) oneByte.nonce
      (cmdSubkeys f oneByte).2 = (encResult f { oneByte with msgLen := 0 }).2 from rfl,
    show (wrongTag f).tag = (encResult f { oneByte with msgLen := 0 }).2 ^^^ 1 from rfl]
  generalize (encResult f { oneByte with msgLen := 0 }).2 = x
  refine if_neg ?_
  rw [show ctEqual x (x ^^^ 1) = ctEqual 0 1 by
    simp [ctEqual, byteAt_xor]; decide]
  decide

theorem test_meets_DecryptRejected (f : Bool) :
    Ready (wrongTag f) ∧ regionCheckAead (wrongTag f) = true ∧ decResult f (wrongTag f) = none ∧
    NoFail (wrongTag f) (decryptCalls f (wrongTag f).ksz false (wrongTag f).msgLen.toNat) :=
  ⟨⟨rfl, oneByte_ready.2.1, rfl, rfl⟩, show regionCheckAead { oneByte with msgLen := 0 } = true by decide,
    wrongTag_rejected f,
    show NoFail oneByte (decryptCalls f oneByte.ksz false 0) from oneByte_noFail (by cases f <;> decide)⟩

/-- No failing call; and a failing one as the first, the third (V-KD-5) and the last. -/
theorem test_meets_DeriveRun :
    Ready oneByte ∧ NoFail oneByte (kdCalls oneByte.ksz) ∧
    ∀ k ∈ [0, 2, 3], Ready (withAnswers (List.replicate k false ++ [true])) ∧
      k < kdCalls (withAnswers (List.replicate k false ++ [true])).ksz ∧
      NoFail (withAnswers (List.replicate k false ++ [true])) k ∧
      drawAt (withAnswers (List.replicate k false ++ [true])) k = true :=
  ⟨oneByte_ready, oneByte_noFail (by decide), fun k hk => ⟨⟨rfl, by simp [withAnswers, State.busy, State.reset], rfl, rfl⟩,
    by revert k; decide, noFail_prefix (r := [true]) rfl (Nat.le_refl _), draw_after_prefix rfl⟩⟩

theorem test_meets_PvHashRun_ClearRun :
    Ready { State.reset with aadOff := 0x7FFB, aadLen := 5, msgLen := 0x8000 } ∧
    regionCheckHash { State.reset with aadOff := 0x7FFB, aadLen := 5, msgLen := 0x8000 } = true :=
  ⟨⟨rfl, by decide, rfl, rfl⟩, by decide⟩

/-- V-ERR-1, V-ERR-2, V-ERR-6, V-PV-8. -/
theorem test_meets_InvalidLength :
    Ready State.reset ∧ regionCheckAead { State.reset with msgOff := 0x7FF0, msgLen := 0x11 } = false ∧
    regionCheckAead { State.reset with msgLen := 0x20, outOff := 0x10 } = false ∧
    regionCheckAead { State.reset with aadOff := 0x8001 } = false ∧
    regionCheckHash { State.reset with msgOff := 0xFFFFFFF0, msgLen := 0x20 } = false :=
  ⟨⟨rfl, by decide, rfl, rfl⟩, by decide, by decide, by decide, by decide⟩

/-- V-ERR-8's inputs with the failing call at position `k`. -/
def failing (k : Nat) : State :=
  { withAnswers (List.replicate k false ++ [true]) with msgLen := 0x20, outOff := 0x100 }

theorem failing_meets (k : Nat) : Ready (failing k) ∧ regionCheckAead (failing k) = true ∧ NoFail (failing k) k ∧
    drawAt (failing k) k = true :=
  ⟨⟨rfl, by simp [failing, withAnswers, State.busy, State.reset], rfl, rfl⟩,
    show regionCheckAead { State.reset with msgLen := 0x20, outOff := 0x100 } = true by decide,
    noFail_prefix (r := [true]) rfl (Nat.le_refl _), draw_after_prefix rfl⟩

/-- A derivation call, the tag call, and the last keystream call (V-ERR-8), in both variants. -/
theorem test_meets_EncryptFails :
    (∀ k ∈ [0, 4, 6], k < encryptCalls false (failing k).ksz (failing k).msgLen.toNat) ∧
    (∀ k ∈ [0, 2], k < encryptCalls true (failing k).ksz (failing k).msgLen.toNat) ∧
    ∀ k, Ready (failing k) ∧ regionCheckAead (failing k) = true ∧ NoFail (failing k) k ∧ drawAt (failing k) k = true := by
  refine ⟨?_, ?_, failing_meets⟩
  · intro k hk; rw [show (failing k).ksz = false by simp [failing, withAnswers, State.ksz, State.reset], show (failing k).msgLen = 0x20 from rfl]; revert k; decide
  · intro k hk; rw [show (failing k).ksz = false by simp [failing, withAnswers, State.ksz, State.reset], show (failing k).msgLen = 0x20 from rfl]; revert k; decide

/-- `encrypted`, whose second pass's only call answers FAIL. -/
def failingRelease : State := { encrypted false with answers := List.replicate 6 false ++ [true] }

/-- The tag call (V-ERR-9), whatever the comparison would say, and a call of the second pass. -/
theorem test_meets_DecryptFails :
    (∀ v, 6 < decryptCalls false (failing 6).ksz v (failing 6).msgLen.toNat) ∧ Ready (failing 6) ∧
    regionCheckAead (failing 6) = true ∧ NoFail (failing 6) 6 ∧ drawAt (failing 6) 6 = true ∧
    Ready failingRelease ∧ regionCheckAead failingRelease = true ∧
    6 < decryptCalls false failingRelease.ksz (decResult false failingRelease).isSome failingRelease.msgLen.toNat ∧
    NoFail failingRelease 6 ∧ drawAt failingRelease 6 = true := by
  obtain ⟨h1, h2, h3, h4⟩ := failing_meets 6
  refine ⟨fun v => by cases v <;> decide, h1, h2, h3, h4, ⟨rfl, oneByte_ready.2.1, rfl, rfl⟩,
    show regionCheckAead oneByte = true by decide, ?_, noFail_prefix (r := [true]) rfl (Nat.le_refl _),
    draw_after_prefix rfl⟩
  rw [show decResult false failingRelease = decResult false (encrypted false) from rfl, encrypted_verifies]
  decide

theorem test_meets_VariantsAgree :
    Ready oneByte ∧ regionCheckAead oneByte = true ∧
    NoFail oneByte (decryptCalls false oneByte.ksz true oneByte.msgLen.toNat) :=
  ⟨oneByte_ready, by decide, oneByte_noFail (by decide)⟩

/-! #### The pure functions -/

/-- Indices at the ends of their ranges. -/
theorem test_meets_CountersDistinct :
    Params.reference.wf = true ∧ 0 < Params.reference.bufBytes / 16 ∧ 2047 < Params.reference.bufBytes / 16 ∧
    (0 : Nat) ≠ 2047 := by decide

/-- A prefix shared and a tag that differs in bit 127 only (V-CTR-4). -/
theorem test_meets_KeystreamLaws :
    (List.replicate 17 (0#8)).take (16 * 1) = (List.replicate 16 (0#8) ++ [1]).take (16 * 1) ∧
    (0x25de56ca9e439eb45b70253fd8e220dc#128).extractLsb' 0 127 =
      (0xa5de56ca9e439eb45b70253fd8e220dc#128).extractLsb' 0 127 := by decide

/-! #### Invariants and whole-machine rules -/

/-- A busy state, nothing outstanding, that meets the invariant. -/
theorem inv_of {s : State} (hp : s.phase ≠ .idle) (hb : s.status = 0x01) (hw : s.params = Params.reference)
    (hm : Memory.wf s.params.bufBytes s.buf = true) (hr : s.rstN = true) (hf : phaseFits s = true)
    (hg : regionsFit s = true) (hq : s.bcReq = none ∨ s.bcReq = wantedRequest s)
    (he : s.esub = 0) (hd : s.dke = 0) (hv : s.opc = 0x02 → s.tcalc = s.rt ∨ ∀ c, s.phase ≠ .keystream c) : Inv s where
  params_wf := by rw [hw]; decide
  buf_wf := hm
  busy_iff := by simp [State.busy, hb, hp]
  reset_idle := fun h => by rw [hr] at h; cases h
  idle_zero := fun h => absurd h hp
  phase_fits := hf
  regions_fit := fun _ _ => hg
  request_fits := hq
  done_idle := fun h => by simp [State.done, hb] at h
  busy_no_outcome := fun _ => by simp [State.outcomeBits, hb]
  one_outcome := by simp [State.outcomeBits, hb]
  esub_short := fun _ => by rw [he]; decide
  dke_short := fun _ => by rw [hd]; decide
  release_verified := fun ho ⟨c, hc⟩ => (hv ho).elim id fun h => absurd hc (h c)

theorem accepted_inv (op : BitVec 8) (f : Bool) (h : multiStep op = true) : Inv (accepted op f) :=
  inv_of (by simp [accepted]) rfl rfl rfl rfl h
    (by
      unfold regionsFit
      rw [show regionCheckAead (accepted op f) = true from rfl, show regionCheckHash (accepted op f) = true from rfl]
      split <;> [rfl; (split <;> rfl)])
    (.inl rfl) rfl rfl (fun _ => .inl rfl)

/-- A busy state, and a step of it. -/
theorem test_meets_StepKeepsInv :
    Inv (accepted 0x02 true) ∧ ∃ t, step (accepted 0x02 true) = .next t :=
  ⟨accepted_inv _ _ rfl, next_of_field (by decide)⟩

/-- Also a busy state that the host cannot reach: any state with the invariant will do. -/
theorem test_meets_StepAnswers : Inv (accepted 0x0F false) := accepted_inv _ _ rfl

/-- A write to OUT_OFF changes it. -/
theorem test_meets_InputsChangeByHostOnly :
    ∃ t, step { State.reset with turns := [.host 0x10028F00000007] } = .next t ∧ t.outOff = 7 :=
  next_with_of_field (f := State.outOff) (by decide)

/-- CLEAR's turn, with a byte of BUF that is not zero. -/
def clearing : State :=
  { accepted 0x0F false with phase := .clearing, tag := 1, result := 1, dkh := 1, buf := { base := .drawn 0, cells := [(3, 9)] } }

theorem clearing_inv : Inv clearing :=
  inv_of (by simp [clearing]) rfl rfl (by decide) rfl (by decide) (by decide) (.inl rfl) rfl rfl (fun _ => .inl rfl)

/-- KEYSTREAM with the request of its only chunk outstanding: MSG byte 0 is zero, OUT byte 16 is `v`. -/
def releasing (op : BitVec 8) (v : Byte) : State :=
  { accepted op false with
    phase := .keystream .block
    msgLen := 1
    outOff := 16
    buf := { base := .drawn 0, cells := [(0, 0), (16, v)] }
    answers := [false]
    bcReq := some { ksz := false, key := keyInUse false 0, block := counterBlock 0 0 } }

theorem releasing_inv (op : BitVec 8) (v : Byte) (h : op = 0x01 ∨ op = 0x02) : Inv (releasing op v) := by
  refine inv_of (by simp [releasing]) rfl rfl rfl rfl ?_ ?_ (.inr ?_) rfl rfl (fun _ => .inl rfl)
  · rcases h with rfl | rfl <;> rfl
  · rcases h with rfl | rfl <;> rfl
  · rfl

theorem releasing_step (op : BitVec 8) (v : Byte) :
    ∃ t, engineTurn (releasing op v) = .next t ∧
      bufGet t.buf 16 = byteAt (Config.blockEncrypt false (keyInUse false 0) (counterBlock 0 0)) 0 := by
  refine ⟨_, rfl, ?_⟩
  generalize Config.blockEncrypt false (keyInUse false 0) (counterBlock 0 0) = y
  exact (show _ = (0 : Byte) ^^^ byteAt y 0 from rfl).trans (by simp)

/-- A byte of BUF that an engine turn changes: in CLEAR, and in KEYSTREAM of either command. -/
theorem test_meets_EngineWritesOutOnly :
    (Inv clearing ∧ ∃ t, engineTurn clearing = .next t ∧ bufGet t.buf 3 ≠ bufGet clearing.buf 3) ∧
    ∀ op, op = 0x01 ∨ op = 0x02 → ∃ v, Inv (releasing op v) ∧
      ∃ t, engineTurn (releasing op v) = .next t ∧ bufGet t.buf 16 ≠ bufGet (releasing op v).buf 16 := by
  refine ⟨⟨clearing_inv, ?_⟩, fun op h => ?_⟩
  · obtain ⟨t, e, h⟩ := next_with_of_field (f := fun t => bufGet t.buf 3) (r := engineTurn clearing) (v := 0) (by decide)
    exact ⟨t, e, by rw [h]; decide⟩
  · refine ⟨byteAt (Config.blockEncrypt false (keyInUse false 0) (counterBlock 0 0)) 0 ^^^ 1, releasing_inv _ _ h, ?_⟩
    obtain ⟨t, e, g⟩ := releasing_step op (byteAt (Config.blockEncrypt false (keyInUse false 0) (counterBlock 0 0)) 0 ^^^ 1)
    refine ⟨t, e, ?_⟩
    rw [g]
    generalize byteAt (Config.blockEncrypt false (keyInUse false 0) (counterBlock 0 0)) 0 = y
    show y ≠ y ^^^ 1
    revert y; decide

/-- The end of an ENCRYPT with an empty message. -/
def encryptEnd : State := { accepted 0x01 false with phase := .keystream .block, tcalc := 5, key := 1, hkey := 1 }

theorem encryptEnd_inv : Inv encryptEnd :=
  inv_of (by simp [encryptEnd]) rfl rfl rfl rfl rfl rfl (.inl rfl) rfl rfl (fun h => absurd h (by decide))

/-- The end of a DERIVE. -/
def deriveEnd : State := { accepted 0x03 false with phase := .keyed, hsub := 5, key := 1 }

theorem deriveEnd_inv : Inv deriveEnd :=
  inv_of (by simp [deriveEnd]) rfl rfl rfl rfl rfl rfl (.inl rfl) rfl rfl (fun _ => .inl rfl)

/-- The end of a PV_HASH. -/
def hashEnd : State := { accepted 0x04 false with phase := .hashed, acc := 5, hkey := 1 }

theorem hashEnd_inv : Inv hashEnd :=
  inv_of (by simp [hashEnd]) rfl rfl rfl rfl rfl rfl (.inl rfl) rfl rfl (fun _ => .inl rfl)

/-- A comparison that fails. -/
def mismatch : State := { accepted 0x02 false with phase := .comparing, tcalc := 5, rt := 4, key := 1 }

theorem mismatch_inv : Inv mismatch :=
  inv_of (by simp [mismatch]) rfl rfl rfl rfl rfl rfl (.inl rfl) rfl rfl (fun _ => .inr (by simp [mismatch]))

/-- An engine turn that changes TAG, RESULT, DKH in each of the ways the statement allows. -/
theorem test_meets_EngineOutputs :
    (Inv encryptEnd ∧ ∃ t, engineTurn encryptEnd = .next t ∧ t.tag = 5 ∧ encryptEnd.tag = 0) ∧
    (Inv hashEnd ∧ ∃ t, engineTurn hashEnd = .next t ∧ t.result = 5 ∧ hashEnd.result = 0) ∧
    (Inv deriveEnd ∧ ∃ t, engineTurn deriveEnd = .next t ∧ t.dkh = 5 ∧ deriveEnd.dkh = 0) ∧
    (Inv clearing ∧ ∃ t, engineTurn clearing = .next t ∧ (t.tag, t.result, t.dkh) = (0, 0, 0) ∧ clearing.tag = 1) := by
  refine ⟨⟨encryptEnd_inv, ?_⟩, ⟨hashEnd_inv, ?_⟩, ⟨deriveEnd_inv, ?_⟩, clearing_inv, ?_⟩
  · obtain ⟨t, e, h⟩ := next_with_of_field (f := State.tag) (r := engineTurn encryptEnd) (v := 5) (by decide)
    exact ⟨t, e, h, rfl⟩
  · obtain ⟨t, e, h⟩ := next_with_of_field (f := State.result) (r := engineTurn hashEnd) (v := 5) (by decide)
    exact ⟨t, e, h, rfl⟩
  · obtain ⟨t, e, h⟩ := next_with_of_field (f := State.dkh) (r := engineTurn deriveEnd) (v := 5) (by decide)
    exact ⟨t, e, h, rfl⟩
  · obtain ⟨t, e, h⟩ := next_with_of_field (f := fun t => (t.tag, t.result, t.dkh)) (r := engineTurn clearing)
      (v := (0, 0, 0)) (by decide)
    exact ⟨t, e, h, rfl⟩

/-- Every command has a completing turn, and a turn that does not complete. -/
theorem test_meets_KeysZeroized_CompletionOutcome :
    (∀ s ∈ [encryptEnd, mismatch, deriveEnd, hashEnd, clearing],
      Inv s ∧ s.busy = true ∧ ∃ t, engineTurn s = .next t ∧ t.busy = false) ∧
    (Inv (accepted 0x01 true) ∧ (accepted 0x01 true).busy = true ∧
      ∃ t, engineTurn (accepted 0x01 true) = .next t ∧ t.busy = true) := by
  refine ⟨fun s hs => ?_, accepted_inv _ _ rfl, by decide, next_with_of_field (f := State.busy) (by decide)⟩
  simp only [List.mem_cons, List.not_mem_nil, or_false] at hs
  rcases hs with rfl | rfl | rfl | rfl | rfl
  · exact ⟨encryptEnd_inv, by decide, next_with_of_field (f := State.busy) (by decide)⟩
  · exact ⟨mismatch_inv, by decide, next_with_of_field (f := State.busy) (by decide)⟩
  · exact ⟨deriveEnd_inv, by decide, next_with_of_field (f := State.busy) (by decide)⟩
  · exact ⟨hashEnd_inv, by decide, next_with_of_field (f := State.busy) (by decide)⟩
  · exact ⟨clearing_inv, by decide, next_with_of_field (f := State.busy) (by decide)⟩

/-- A derivation call outstanding, with this draw. -/
def calling (b : Bool) : State :=
  { accepted 0x03 false with
    phase := .derivingKeys 0 []
    nonce := 3
    answers := [b]
    bcReq := some { ksz := false, key := 0, block := kdb false 3 0 } }

theorem test_meets_PortAnswers (b : Bool) :
    Inv (calling b) ∧ (calling b).bcReq = some { ksz := false, key := 0, block := kdb false 3 0 } ∧
    nextFails (calling b) = b := by
  refine ⟨inv_of (by simp [calling]) rfl rfl rfl rfl (by cases b <;> decide) rfl (.inr ?_) rfl rfl (fun _ => .inl rfl),
    rfl, rfl⟩
  cases b <;> decide

/-- `irq` rises by a completing command, by NOP, and by setting IE. -/
theorem test_meets_IrqCauses :
    (∃ t, step { hashEnd with ctrl := 4 } = .next t ∧ t.irq = true) ∧
    (∃ t, step { State.reset with ctrl := 4, turns := [.host 0x1000CF00000000] } = .next t ∧ t.irq = true) ∧
    (∃ t, step { State.reset with status := 2, turns := [.host 0x10008F00000004] } = .next t ∧ t.irq = true) ∧
    State.irq { hashEnd with ctrl := 4 } = false ∧ State.irq { State.reset with ctrl := 4 } = false ∧
    State.irq { State.reset with status := 2 } = false :=
  ⟨next_with_of_field (f := State.irq) (by decide), next_with_of_field (f := State.irq) (by decide),
    next_with_of_field (f := State.irq) (by decide), by decide, by decide, by decide⟩

/-- DONE falls by W1C, by reset, and by the acceptance of DERIVE. -/
theorem test_meets_DoneFalls :
    (∃ t, step { State.reset with status := 2, turns := [.host 0x10010F00000002] } = .next t ∧ t.done = false) ∧
    (∃ t, step { State.reset with status := 2, turns := [.resetLow] } = .next t ∧ t.done = false) ∧
    (∃ t, step { State.reset with status := 2, turns := [.host 0x1000CF00000003] } = .next t ∧ t.done = false) ∧
    State.done { State.reset with status := 2 } = true :=
  ⟨next_with_of_field (f := State.done) (by decide), next_with_of_field (f := State.done) (by decide),
    next_with_of_field (f := State.done) (by decide), by decide⟩

/-- A state in reset whose host has a transaction, and one whose engine has a turn. -/
theorem test_meets_ResetTurns :
    State.reset.rstN = true ∧ registerOffset 0x0000 = true ∧ registerOffset 0x00BC = true ∧
    HeldInReset { State.reset with rstN := false, turns := [.engine] } ∧
    (∃ t, step { State.reset with rstN := false, turns := [.engine] } = .next t) ∧
    (∃ t, step { State.reset with rstN := false, turns := [.resetHigh] } = .next t) :=
  ⟨rfl, by decide, by decide, fun _ => rfl, next_of_field (by decide), next_of_field (by decide)⟩

/-- Two runs that differ in KEY, at the start, at the comparison, and with a call outstanding. -/
theorem test_meets_DataIndependence :
    controlOf { accepted 0x01 false with key := 1 } = controlOf { accepted 0x01 false with key := 2 } ∧
    regionsFit { accepted 0x01 false with key := 1 } = regionsFit { accepted 0x01 false with key := 2 } ∧
    controlOf mismatch = controlOf { mismatch with tcalc := 6 } ∧
    (mismatch.tcalc = mismatch.rt ↔ State.tcalc { mismatch with tcalc := 6 } = State.rt { mismatch with tcalc := 6 }) ∧
    controlOf (calling true) = controlOf { calling true with key := 2 } ∧
    nextFails (calling true) = nextFails { calling true with key := 2 } ∧
    (∃ t, engineTurn { accepted 0x01 false with key := 1 } = .next t) ∧ (∃ t, engineTurn mismatch = .next t) ∧
    (∃ t, engineTurn (calling true) = .next t) :=
  ⟨rfl, rfl, rfl, by decide, rfl, rfl, next_of_field (by decide), next_of_field (by decide), next_of_field (by decide)⟩

/-- Two busy states that differ in TAG. -/
theorem test_meets_BusyHides :
    (accepted 0x01 false).busy = true ∧ (accepted 0x01 false).ctrl = State.ctrl { accepted 0x01 false with tag := 7 } ∧
    (∃ t, exec (.rd 0x0070 0 0) (accepted 0x01 false) = .next t) ∧
    (∃ t, exec (.rd 0x0070 0 0) { accepted 0x01 false with tag := 7 } = .next t) :=
  ⟨by decide, rfl, next_of_field (by decide), next_of_field (by decide)⟩

/-- A turn that goes on without touching BUF, and one that writes OUT in KEYSTREAM and goes on. -/
theorem test_meets_EngineShowsNothingBeforeCompletion :
    (∃ t, engineTurn (accepted 0x01 false) = .next t ∧ t.busy = true) ∧
    (∃ t, engineTurn (releasing 0x01 0) = .next t ∧ t.busy = true) :=
  ⟨next_with_of_field (f := State.busy) (by decide), ⟨_, rfl, rfl⟩⟩

/-- TAG or RESULT changed by an engine turn, by reset, by a write to TAG0 and TAG3, and by the acceptance of NOP and
ENCRYPT. -/
theorem test_meets_OutputsChangeCauses :
    (∃ t, step encryptEnd = .next t ∧ t.tag = 5) ∧
    (∃ t, step { State.reset with tag := 7, turns := [.resetLow] } = .next t ∧ t.tag = 0) ∧
    (∃ t, step { State.reset with turns := [.host 0x10070F00000001] } = .next t ∧ t.tag = 1) ∧
    (∃ t, step { State.reset with turns := [.host 0x1007CF00000001] } = .next t ∧ t.tag = 1 <<< 96) ∧
    (∃ t, step { State.reset with result := 7, turns := [.host 0x1000CF00000000] } = .next t ∧ t.result = 0) ∧
    (∃ t, step { State.reset with dkh := 7, turns := [.host 0x1000CF00000001] } = .next t ∧ t.dkh = 0) :=
  ⟨next_with_of_field (f := State.tag) (by decide), next_with_of_field (f := State.tag) (by decide),
    next_with_of_field (f := State.tag) (by decide), next_with_of_field (f := State.tag) (by decide),
    next_with_of_field (f := State.result) (by decide), next_with_of_field (f := State.dkh) (by decide)⟩

/-- Two states that differ in KEY, and a read of KEY0. -/
theorem test_meets_SecretsStayHidden :
    SameButSecret State.reset { State.reset with key := 5, hkey := 6, acc := 7 } ∧
    (∃ t, exec (.rd 0x0040 0 0) State.reset = .next t) ∧
    (∃ t, exec (.rd 0x0040 0 0) { State.reset with key := 5, hkey := 6, acc := 7 } = .next t) :=
  ⟨rfl, next_of_field (by decide), next_of_field (by decide)⟩

end Sys2Proof.Tests
end

section
/-! The padded blocks of a byte string and the length block (00_scope.md R15, 41_polyval.md R117). -/

namespace Sys2Proof.Machine

/-! ### Padded blocks -/

theorem packBlock_cons (b : Byte) (bs : List Byte) :
    packBlock (b :: bs) = (packBlock bs <<< 8) ||| b.setWidth 128 := rfl

/-- The first byte packed is byte 0 of the block. -/
theorem byteAt_packBlock_cons_zero (b : Byte) (bs : List Byte) : byteAt (packBlock (b :: bs)) 0 = b := by
  apply BitVec.eq_of_getLsbD_eq; intro i hi
  rw [byteAt_bit _ _ _ hi]
  simp [packBlock_cons, hi, show i < 128 by omega]

/-- The later bytes packed stand one byte higher. -/
theorem byteAt_packBlock_cons_succ (b : Byte) (bs : List Byte) {k : Nat} (hk : k + 1 < 16) :
    byteAt (packBlock (b :: bs)) (k + 1) = byteAt (packBlock bs) k := by
  apply BitVec.eq_of_getLsbD_eq; intro i hi
  rw [byteAt_bit _ _ _ hi, byteAt_bit _ _ _ hi]
  have hpos : 8 * (k + 1) + i - 8 = 8 * k + i := by omega
  have hb : b.getLsbD (8 * (k + 1) + i) = false := BitVec.getLsbD_of_ge _ _ (by omega)
  rw [packBlock_cons, BitVec.getLsbD_or, BitVec.getLsbD_shiftLeft, BitVec.getLsbD_setWidth, hb, hpos]
  simp [show 8 * (k + 1) + i < 128 by omega, show ¬ 8 * (k + 1) + i < 8 by omega]

/-- Packing keeps every byte in its place and fills with zero bytes on the right (R15). -/
theorem byteAt_packBlock (bs : List Byte) {k : Nat} (hk : k < 16) : byteAt (packBlock bs) k = bs.getD k 0 := by
  induction bs generalizing k with
  | nil => simp [packBlock, byteAt]
  | cons b bs ih =>
    cases k with
    | zero => rw [byteAt_packBlock_cons_zero, List.getD_cons_zero]
    | succ k => rw [byteAt_packBlock_cons_succ _ _ hk, ih (by omega), List.getD_cons_succ]

/-- Byte `k` of chunk `j` is byte `16 j + k` of the string, also where both are missing. -/
theorem chunkOf_getD (bs : List Byte) (j : Nat) {k : Nat} (hk : k < 16) :
    (chunkOf bs j).getD k 0 = bs.getD (16 * j + k) 0 := by
  simp [chunkOf, List.getD_eq_getElem?_getD, List.getElem?_take_of_lt hk]

@[simp] theorem pad16_length (bs : List Byte) : (pad16 bs).length = chunkCount bs.length := by simp [pad16]

theorem pad16_getD (bs : List Byte) {j : Nat} (hj : j < (pad16 bs).length) :
    (pad16 bs).getD j 0 = packBlock (chunkOf bs j) := by
  rw [pad16_length] at hj
  simp [pad16, List.getD_eq_getElem?_getD, hj]

theorem byteAt_pad16 (bs : List Byte) {j k : Nat} (hj : j < (pad16 bs).length) (hk : k < 16) :
    byteAt ((pad16 bs).getD j 0) k = bs.getD (16 * j + k) 0 := by
  rw [pad16_getD bs hj, byteAt_packBlock _ hk, chunkOf_getD bs j hk]

/-! ### The length block -/

/-- The AAD field comes first: the low half. -/
theorem lengthBlock_low (a m : Nat) : (lengthBlock a m).extractLsb' 0 64 = BitVec.ofNat 64 (8 * a) :=
  BitVec.extractLsb'_append_eq_right

/-- The message field comes second: the high half. -/
theorem lengthBlock_high (a m : Nat) : (lengthBlock a m).extractLsb' 64 64 = BitVec.ofNat 64 (8 * m) :=
  BitVec.extractLsb'_append_eq_left

/-- A byte length below 2^32, counted in bits, fits its LE64 field. -/
theorem toNat_bitLength {n : Nat} (hn : n < 2 ^ 32) : (BitVec.ofNat 64 (8 * n)).toNat = 8 * n := by
  rw [BitVec.toNat_ofNat, Nat.mod_eq_of_lt (by omega)]

/-- Settles O32: byte `k` of a padded block is byte `k` of its packed chunk, and each half of the length block is a
field that does not wrap. -/
theorem hashBlocks : Obligations.HashBlocks := by
  refine ⟨fun bs => ⟨pad16_length bs, fun j k hj hk => byteAt_pad16 bs hj hk⟩, fun a m ha hm => ⟨?_, ?_⟩, ?_⟩
  · rw [lengthBlock_low, toNat_bitLength ha]
  · rw [lengthBlock_high, toNat_bitLength hm]
  · decide

end Sys2Proof.Machine
end

section
/-! Host reads and writes of a register by its offset (40_host_bus.md R90 to R93, R96), the fields of CAP, and the
identification registers (10_state.md R24, R25). -/

namespace Sys2Proof.Machine

/-! ### Register transactions by the entry of the map -/

/-- What RD of a mapped register returns, busy or not (R93, R96). -/
theorem readsAs_reg {s : State} {a : BitVec 16} {r : Reg} (h : targetOf s.params a = .reg r) :
    ReadsAs s a (if s.busy && !r.readableWhileBusy then 0 else readReg s r) := by
  intro strb d
  rw [show exec (.rd a strb d) s = execRd a strb d s from rfl, execRd, h]
  rfl

/-- The registers of R96 read as they stand, busy or not. -/
theorem readsAs_readable {s : State} {a : BitVec 16} {r : Reg} (h : targetOf s.params a = .reg r)
    (hr : r.readableWhileBusy = true) : ReadsAs s a (readReg s r) := by
  simpa [hr] using readsAs_reg h

/-- A full write to a mapped register other than CMD while BUSY = 0 (R91, R92). -/
theorem writesTo_reg {s : State} {a : BitVec 16} {r : Reg} (d : Word) (h : targetOf s.params a = .reg r)
    (hr : r ≠ .cmd) (hb : s.busy = false) : WritesTo s a d (writeReg d s r) := by
  rw [WritesTo, show exec (.wr a 0xF d) s = execWr a 0xF d s from rfl, execWr, h]
  simp [hb, writeEffect, hr, respond]

theorem targetOf_id (p : Params) : targetOf p 0x0000 = .reg .id :=
  targetOf_reg p (0x000, .id) (by simp [regMap])

theorem targetOf_cap (p : Params) : targetOf p 0x0004 = .reg .cap :=
  targetOf_reg p (0x004, .cap) (by simp [regMap])

/-! ### The fields of CAP -/

theorem capWord_bufBlocks (p : Params) : (capWord p).extractLsb' 0 16 = BitVec.ofNat 16 (p.bufBytes / 16) := by
  have hn : p.bufBytes / 16 = p.bufBlocks := Nat.mul_div_cancel_left _ (by decide)
  rw [hn, capWord]
  iterate 5 rw [BitVec.extractLsb'_append_eq_of_add_le (by decide)]
  exact BitVec.extractLsb'_eq_self

theorem capWord_key256 (p : Params) : (capWord p).getLsbD 16 = true := by
  simp only [capWord, BitVec.getLsbD_append]; rfl

theorem capWord_nprof16 (p : Params) : (capWord p).getLsbD 17 = true := by
  simp only [capWord, BitVec.getLsbD_append]; rfl

theorem capWord_ctrMsb (p : Params) : (capWord p).getLsbD 18 = p.ctrMsb := by
  simp only [capWord, BitVec.getLsbD_append]; simp

theorem capWord_reserved (p : Params) : (capWord p).extractLsb' 19 5 = 0 := by
  rw [capWord, BitVec.extractLsb'_append_eq_of_add_le (by decide), BitVec.extractLsb'_append_eq_of_le (by decide)]
  rfl

theorem capWord_version (p : Params) : (capWord p).extractLsb' 24 8 = 0x01 :=
  BitVec.extractLsb'_append_eq_left

/-- Settles O10: ID and CAP are registers that R96 lets through, so they read alike in every state, and a write has no
effect on the stored registers. -/
theorem idAndCap : Obligations.IdAndCap := fun s =>
  ⟨readsAs_readable (targetOf_id _) rfl, capWord s.params, readsAs_readable (targetOf_cap _) rfl,
    capWord_bufBlocks _, capWord_key256 _, capWord_nprof16 _, capWord_ctrMsb _, capWord_reserved _, capWord_version _,
    fun hb d => ⟨writesTo_reg d (targetOf_id _) (by decide) hb, writesTo_reg d (targetOf_cap _) (by decide) hb⟩⟩

end Sys2Proof.Machine
end

section
/-! Error responses of the bus: offsets without a target, and register writes without all four strobes
(20_memory.md R55, R56, 60_exceptions.md R236). -/

namespace Sys2Proof.Machine

/-! ### The register block and the map -/

/-- Every offset of the map is one of R21's register block. -/
theorem registerOffset_of_mem {a : BitVec 16} {r : Reg} (h : (a.toNat, r) ∈ regMap) : registerOffset a = true := by
  have hmap : ∀ e ∈ regMap, e.1 % 4 = 0 ∧ e.1 ≤ 0x0BC ∧ e.1 ≠ 0x014 ∧ e.1 ≠ 0x02C := by decide
  exact decide_eq_true (hmap _ h)

/-- The map leaves no hole in R21's register block. -/
theorem mem_regMap_of_registerOffset {a : BitVec 16} (h : registerOffset a = true) : ∃ r, (a.toNat, r) ∈ regMap := by
  obtain ⟨h4, hle, hhole1, hhole2⟩ := of_decide_eq_true h
  have hmap : ∀ k < 48, k ≠ 5 → k ≠ 11 → ∃ e ∈ regMap, e.1 = 4 * k := by decide
  obtain ⟨⟨o, r⟩, hmem, ho⟩ := hmap (a.toNat / 4) (by omega) (by omega) (by omega)
  have hoff : o = a.toNat := by dsimp only at ho; omega
  exact ⟨r, hoff ▸ hmem⟩

theorem targetOf_registerOffset (p : Params) {a : BitVec 16} (h : registerOffset a = true) :
    ∃ r, targetOf p a = .reg r := by
  obtain ⟨r, hr⟩ := mem_regMap_of_registerOffset h
  exact ⟨r, by simpa using targetOf_reg p (a.toNat, r) hr⟩

/-- An offset outside the register block and outside the window is misaligned, in a hole of the map, or past the
buffer's end. -/
theorem targetOf_unmapped {p : Params} {a : BitVec 16} (hr : registerOffset a = false)
    (hw : windowOffset p a = false) : targetOf p a = .error := by
  have hout := of_decide_eq_false hw
  apply targetOf_error
  by_cases h4 : a.toNat % 4 = 0
  · rcases lt_or_ge a.toNat windowBase with hlt | hge
    · refine .inr (.inl ⟨hlt, fun e he heq => ?_⟩)
      have hreg : registerOffset a = true := registerOffset_of_mem (r := e.2) (heq ▸ he)
      rw [hr] at hreg
      cases hreg
    · refine .inr (.inr ?_)
      unfold windowBase at hge ⊢
      omega
  · exact .inl h4

/-! ### The error responses -/

theorem exec_rd_error {s : State} {a : BitVec 16} (h : targetOf s.params a = .error) (strb : BitVec 4) (d : Word) :
    exec (.rd a strb d) s = .next (respond (.read 0 true) s) := by
  rw [show exec (.rd a strb d) s = execRd a strb d s from rfl, execRd, h]
  rfl

theorem exec_wr_error {s : State} {a : BitVec 16} (h : targetOf s.params a = .error) (strb : BitVec 4) (d : Word) :
    exec (.wr a strb d) s = .next (writeError s) := by
  rw [show exec (.wr a strb d) s = execWr a strb d s from rfl, execWr, h]

/-- The strobe rule comes before BUSY (60_exceptions.md R239). -/
theorem exec_wr_strobes {s : State} {a : BitVec 16} {r : Reg} (h : targetOf s.params a = .reg r) {strb : BitVec 4}
    (hs : strb ≠ 0xF) (d : Word) : exec (.wr a strb d) s = .next (writeError s) := by
  rw [show exec (.wr a strb d) s = execWr a strb d s from rfl, execWr, h]
  exact if_pos hs

/-- Settles O14: the target is looked up before BUSY, so an offset without one gets the error response, and so does
a register's without all strobes; `respond` changes the response alone. -/
theorem busErrors : Obligations.BusErrors := by
  refine fun s a strb d => ⟨fun hr hw => ?_, fun hr hs => ?_⟩
  · have ht := targetOf_unmapped hr hw
    exact ⟨exec_rd_error ht strb d, exec_wr_error ht strb d⟩
  · obtain ⟨r, ht⟩ := targetOf_registerOffset s.params hr
    exact exec_wr_strobes ht hs d

end Sys2Proof.Machine
end

section
/-! The command words (30_encoding.md R70 to R73): the decoder is the inverse of the encoder, the words it refuses,
and the write of a refused word to CMD (45_commands.md R211). -/

namespace Sys2Proof.Machine

/-! ### The decoder and the encoder -/

/-- RSV, F and OP are all of a command word (R70). -/
theorem commandWord_fields {w : BitVec 32} (h : cmdRsv w = 0) : commandWord (cmdOp w) (cmdF w) = w := by
  have hw : cmdRsv w ++ (BitVec.ofBool (cmdF w) ++ cmdOp w) = w := by
    apply BitVec.eq_of_getLsbD_eq
    intro i hi
    simp only [cmdRsv, cmdF, cmdOp, BitVec.getLsbD_append, BitVec.getLsbD_extractLsb']
    interval_cases i <;> simp
  rw [h] at hw
  exact hw

theorem needF0_ok_iff {f : Bool} {i j : Instr} : needF0 f i = .ok j ↔ f = false ∧ i = j := by
  cases f <;> simp [needF0]

theorem needF0_error_iff {f : Bool} {i : Instr} : (∃ e, needF0 f i = .error e) ↔ f = true := by
  cases f <;> simp [needF0]

theorem encode_of_decodeCommand {w : BitVec 32} {i : Instr} (h : decodeCommand w = .ok i) :
    encode i = .command w := by
  have hr : cmdRsv w = 0 := by
    by_contra hne
    rw [decodeCommand, if_pos hne] at h
    cases h
  rw [decodeCommand, if_neg (not_not.mpr hr)] at h
  rw [← commandWord_fields hr]
  generalize cmdOp w = op, cmdF w = f at h ⊢
  split_ifs at h with h0 h1 h2 h3 h4 hF
  · obtain ⟨rfl, rfl⟩ := needF0_ok_iff.mp h; rw [h0]; rfl
  · cases h; rw [h1]; rfl
  · cases h; rw [h2]; rfl
  · obtain ⟨rfl, rfl⟩ := needF0_ok_iff.mp h; rw [h3]; rfl
  · cases h; rw [h4]; rfl
  · obtain ⟨rfl, rfl⟩ := needF0_ok_iff.mp h; rw [hF]; rfl

theorem decodeCommand_of_encode {w : BitVec 32} {i : Instr} (h : encode i = .command w) :
    decodeCommand w = .ok i := by
  cases i with
  | nop | derive | clear => cases h; rfl
  | encrypt f | decrypt f | pvHash f => cases h; cases f <;> rfl
  | rd | wr => cases h

theorem decodeCommand_ok_iff {w : BitVec 32} {i : Instr} : decodeCommand w = .ok i ↔ encode i = .command w :=
  ⟨encode_of_decodeCommand, decodeCommand_of_encode⟩

/-- The rows of the opcode map, one for each allowed F (R71). -/
def opcodeMap : List (BitVec 32 × Instr) :=
  [(0x00000000, .nop), (0x00000001, .encrypt false), (0x00000101, .encrypt true), (0x00000002, .decrypt false),
    (0x00000102, .decrypt true), (0x00000003, .derive), (0x00000004, .pvHash false), (0x00000104, .pvHash true),
    (0x0000000F, .clear)]

theorem mem_opcodeMap_iff {w : BitVec 32} {i : Instr} : (w, i) ∈ opcodeMap ↔ encode i = .command w := by
  have hrows : ∀ e ∈ opcodeMap, encode e.2 = .command e.1 := by decide
  refine ⟨hrows (w, i), fun h => ?_⟩
  cases i with
  | nop | derive | clear => cases h; decide
  | encrypt f | decrypt f | pvHash f => cases h; cases f <;> decide
  | rd | wr => cases h

/-- Settles O2: the decoder and the opcode map are both the encoder read backwards. -/
theorem commandWordsComplete : Obligations.CommandWordsComplete := fun _ _ =>
  ⟨decodeCommand_ok_iff.trans mem_opcodeMap_iff.symm, decodeCommand_ok_iff⟩

/-! ### Illegal command words -/

theorem decodeCommand_error_iff (w : BitVec 32) : (∃ e, decodeCommand w = .error e) ↔
    cmdRsv w ≠ 0 ∨ cmdOp w ∉ [0x00#8, 0x01#8, 0x02#8, 0x03#8, 0x04#8, 0x0F#8] ∨
      cmdF w = true ∧ cmdOp w ∈ [0x00#8, 0x03#8, 0x0F#8] := by
  by_cases hr : cmdRsv w = 0
  · rw [decodeCommand, if_neg (not_not.mpr hr)]
    split_ifs with h0 h1 h2 h3 h4 hF
    · simp [needF0_error_iff, hr, h0]
    · simp [hr, h1]
    · simp [hr, h2]
    · simp [needF0_error_iff, hr, h3]
    · simp [hr, h4]
    · simp [needF0_error_iff, hr, hF]
    · exact iff_of_true ⟨_, rfl⟩ (.inr (.inl (by simpa using ⟨h0, h1, h2, h3, h4, hF⟩)))
  · exact iff_of_true ⟨_, by rw [decodeCommand, if_pos hr]⟩ (.inl hr)

theorem submitCommand_error {d : BitVec 32} (h : ∃ e, decodeCommand d = .error e) (s : State) :
    submitCommand d s = illegalCommand d s := by
  obtain ⟨e, he⟩ := h
  rw [submitCommand, he]

theorem targetOf_cmd (p : Params) : targetOf p 0x000C = .reg .cmd :=
  targetOf_reg p (0x00C, .cmd) (by simp [regMap])

/-- A full write to CMD while BUSY = 0 submits its data as a command word (R92, 45_commands.md R190). -/
theorem exec_wr_cmd {s : State} (hb : s.busy = false) (d : Word) :
    exec (.wr 0x000C 0xF d) s = submitCommand d s := by
  rw [show exec (.wr 0x000C 0xF d) s = execWr 0x000C 0xF d s from rfl, execWr, targetOf_cmd]
  simp [hb, writeEffect]

/-- ERR_CMD and DONE set, ERR_BUSY kept, every other bit clear (45_commands.md R191, R192, R211). -/
theorem status_illegalCommand (st : BitVec 8) :
    statusCompleted .illegalCommand (statusAccepted st) = (st &&& 0x80) ||| 0x42 := by
  revert st; decide

/-- No illegal word zeroizes KEY and HKEY, whatever its OP field spells (R211). -/
theorem zeroizesKeys_illegalCommand (opc : BitVec 8) : zeroizesKeys .illegalCommand opc = false := rfl

/-- Settles O4: the write submits a word that the decoder refuses, which is accepted and completed at once. -/
theorem illegalWords : Obligations.IllegalWords := by
  refine fun d s => ⟨decodeCommand_error_iff d, fun he hb => ?_⟩
  rw [exec_wr_cmd hb, submitCommand_error he, illegalCommand, submitWith_idle hb, complete, accept_status,
    status_illegalCommand, zeroizesKeys_illegalCommand]
  rfl

end Sys2Proof.Machine
end

section
/-! The rest of the register map by name (10_state.md R21), and what RD returns of each register and of the window
while BUSY = 0 and while BUSY = 1 (40_host_bus.md R93, R96). -/

namespace Sys2Proof.Machine

/-! ### The register map by name -/

theorem targetOf_ctrl (p : Params) : targetOf p 0x0008 = .reg .ctrl :=
  targetOf_reg p (0x008, .ctrl) (by decide)

theorem targetOf_status (p : Params) : targetOf p 0x0010 = .reg .status :=
  targetOf_reg p (0x010, .status) (by decide)

theorem targetOf_aadOff (p : Params) : targetOf p 0x0018 = .reg .aadOff :=
  targetOf_reg p (0x018, .aadOff) (by decide)

theorem targetOf_aadLen (p : Params) : targetOf p 0x001C = .reg .aadLen :=
  targetOf_reg p (0x01C, .aadLen) (by decide)

theorem targetOf_msgOff (p : Params) : targetOf p 0x0020 = .reg .msgOff :=
  targetOf_reg p (0x020, .msgOff) (by decide)

theorem targetOf_msgLen (p : Params) : targetOf p 0x0024 = .reg .msgLen :=
  targetOf_reg p (0x024, .msgLen) (by decide)

theorem targetOf_outOff (p : Params) : targetOf p 0x0028 = .reg .outOff :=
  targetOf_reg p (0x028, .outOff) (by decide)

theorem targetOf_nonce (p : Params) (j : Fin 4) : targetOf p (BitVec.ofNat 16 (0x030 + 4 * j)) = .reg (.nonce j) :=
  targetOf_reg p (0x030 + 4 * j, .nonce j) (by revert j; decide)

theorem targetOf_key (p : Params) (j : Fin 8) : targetOf p (BitVec.ofNat 16 (0x040 + 4 * j)) = .reg (.key j) :=
  targetOf_reg p (0x040 + 4 * j, .key j) (by revert j; decide)

theorem targetOf_hkey (p : Params) (j : Fin 4) : targetOf p (BitVec.ofNat 16 (0x060 + 4 * j)) = .reg (.hkey j) :=
  targetOf_reg p (0x060 + 4 * j, .hkey j) (by revert j; decide)

theorem targetOf_tag (p : Params) (j : Fin 4) : targetOf p (BitVec.ofNat 16 (0x070 + 4 * j)) = .reg (.tag j) :=
  targetOf_reg p (0x070 + 4 * j, .tag j) (by revert j; decide)

theorem targetOf_result (p : Params) (j : Fin 4) : targetOf p (BitVec.ofNat 16 (0x080 + 4 * j)) = .reg (.result j) :=
  targetOf_reg p (0x080 + 4 * j, .result j) (by revert j; decide)

theorem targetOf_dkh (p : Params) (j : Fin 4) : targetOf p (BitVec.ofNat 16 (0x090 + 4 * j)) = .reg (.dkh j) :=
  targetOf_reg p (0x090 + 4 * j, .dkh j) (by revert j; decide)

theorem targetOf_dke (p : Params) (j : Fin 8) : targetOf p (BitVec.ofNat 16 (0x0A0 + 4 * j)) = .reg (.dke j) :=
  targetOf_reg p (0x0A0 + 4 * j, .dke j) (by revert j; decide)

/-! ### Reads while BUSY = 0 -/

/-- R93: with BUSY = 0 every mapped register reads as `readReg` has it. -/
theorem readsAs_idle {s : State} {a : BitVec 16} {r : Reg} (hb : s.busy = false) (h : targetOf s.params a = .reg r) :
    ReadsAs s a (readReg s r) := by
  simpa [hb] using readsAs_reg h

/-- Settles O11: each offset is a register's, and each register reads as `readReg` has it. -/
theorem readRegisters : Obligations.ReadRegisters := fun _ hb =>
  ⟨readsAs_idle hb (targetOf_id _), readsAs_idle hb (targetOf_cap _), readsAs_idle hb (targetOf_ctrl _),
    readsAs_idle hb (targetOf_cmd _), readsAs_idle hb (targetOf_status _), readsAs_idle hb (targetOf_aadOff _),
    readsAs_idle hb (targetOf_aadLen _), readsAs_idle hb (targetOf_msgOff _), readsAs_idle hb (targetOf_msgLen _),
    readsAs_idle hb (targetOf_outOff _),
    fun j => ⟨readsAs_idle hb (targetOf_nonce _ j), readsAs_idle hb (targetOf_hkey _ j),
      readsAs_idle hb (targetOf_tag _ j), readsAs_idle hb (targetOf_result _ j), readsAs_idle hb (targetOf_dkh _ j)⟩,
    fun j => ⟨readsAs_idle hb (targetOf_key _ j), readsAs_idle hb (targetOf_dke _ j)⟩⟩

/-! ### Reads while BUSY = 1 -/

/-- The registers that R96 lets through stand at four offsets. -/
theorem offset_of_readableWhileBusy {p : Params} {a : BitVec 16} {r : Reg} (h : targetOf p a = .reg r)
    (hr : r.readableWhileBusy = true) : a ∈ [0x0000#16, 0x0004#16, 0x0008#16, 0x0010#16] := by
  have hmap : ∀ e ∈ regMap, e.2.readableWhileBusy = true →
      BitVec.ofNat 16 e.1 ∈ [0x0000#16, 0x0004#16, 0x0008#16, 0x0010#16] := by decide
  simpa using hmap _ (targetOf_reg_mem h) hr

/-- Any other register reads as zero (R96). -/
theorem readsAs_zero_busy {s : State} {a : BitVec 16} {r : Reg} (hb : s.busy = true)
    (h : targetOf s.params a = .reg r) (hr : r.readableWhileBusy = false) : ReadsAs s a 0 := by
  simpa [hb, hr] using readsAs_reg h

/-- An aligned offset of the window addresses a word of BUF (20_memory.md R51). -/
theorem targetOf_windowOffset {p : Params} {a : BitVec 16} (h : windowOffset p a = true) :
    ∃ o, targetOf p a = .buf o := by
  obtain ⟨h4, hge, hlt⟩ := of_decide_eq_true h
  exact ⟨a.toNat - 0x8000, targetOf_window (by unfold windowBase; omega) (by omega) (by omega)⟩

/-- What RD of a window word returns, busy or not (R94, R96). -/
theorem readsAs_buf {s : State} {a : BitVec 16} {o : Nat} (h : targetOf s.params a = .buf o) :
    ReadsAs s a (if s.busy then 0 else bufWord s.buf o) := by
  intro strb d
  rw [show exec (.rd a strb d) s = execRd a strb d s from rfl, execRd, h]
  rfl

/-- Settles O12: four registers read alike in every state; every other mapped offset is some other register's, or a
window word's, and these read as zero. -/
theorem readsWhileBusy : Obligations.ReadsWhileBusy := by
  refine fun s hb => ⟨readsAs_readable (targetOf_id _) rfl, readsAs_readable (targetOf_cap _) rfl,
    readsAs_readable (targetOf_ctrl _) rfl, readsAs_readable (targetOf_status _) rfl,
    fun a hreg hother => ?_, fun a hwin => ?_⟩
  · obtain ⟨r, ht⟩ := targetOf_registerOffset s.params hreg
    exact readsAs_zero_busy hb ht (Bool.eq_false_iff.mpr fun hr => hother (offset_of_readableWhileBusy ht hr))
  · obtain ⟨o, ht⟩ := targetOf_windowOffset hwin
    simpa [hb] using readsAs_buf ht

end Sys2Proof.Machine
end

section
/-! What a full write to each register does while BUSY = 0 (40_host_bus.md R92): one word of a register group
(10_state.md R22), the W1C bits of STATUS (R28), and the command word of CMD (45_commands.md R190). -/

namespace Sys2Proof.Machine

/-! ### One word of a register group -/

/-- Bit `i` of the group is the data's when it lies in word `j`, and as before otherwise. -/
theorem getLsbD_setWordAt {n : Nat} (g : BitVec n) (j : Nat) (d : Word) {i : Nat} (hi : i < n) :
    (setWordAt g j d).getLsbD i = if i / 32 = j then d.getLsbD (i % 32) else g.getLsbD i := by
  have hmask (k : Nat) : (0xFFFFFFFF#32).getLsbD k = decide (k < 32) := BitVec.getLsbD_allOnes
  simp only [setWordAt, BitVec.getLsbD_or, BitVec.getLsbD_and, BitVec.getLsbD_not, BitVec.getLsbD_shiftLeft,
    BitVec.getLsbD_setWidth, hmask, hi, decide_true, Bool.true_and]
  split
  · next hj =>
    rw [show i - 32 * j = i % 32 by omega]
    simp [show ¬ i < 32 * j by omega, show i % 32 < 32 by omega, show i % 32 < n by omega]
  · next hj =>
    rcases lt_or_ge i (32 * j) with hlt | hge
    · simp [hlt]
    · have h32 : 32 ≤ i - 32 * j := by omega
      simp [h32]

/-- A write of word `j` of a group, read back by words. -/
theorem wordAt_setWordAt {n : Nat} (g : BitVec n) (j : Nat) (d : Word) {k : Nat} (hk : 32 * (k + 1) ≤ n) :
    wordAt (setWordAt g j d) k = if k = j then d else wordAt g k := by
  apply BitVec.eq_of_getLsbD_eq
  intro b hb
  have hbit : (wordAt (setWordAt g j d) k).getLsbD b = (setWordAt g j d).getLsbD (32 * k + b) := by simp [wordAt, hb]
  rw [hbit, getLsbD_setWordAt g j d (by omega), show (32 * k + b) / 32 = k by omega,
    show (32 * k + b) % 32 = b by omega]
  split
  · rfl
  · simp [wordAt, hb]

/-- For a group of exactly `m` words. -/
theorem wordAt_setWordAt_fin {n m : Nat} (hn : n = 32 * m) (g : BitVec n) (j k : Fin m) (d : Word) :
    wordAt (setWordAt g j d) k = if k = j then d else wordAt g k := by
  rw [wordAt_setWordAt g j d (by omega)]
  simp only [Fin.ext_iff]

/-! ### STATUS and CMD -/

/-- A bit that W1C may clear. -/
theorem statusW1C_clearable (st : BitVec 8) (d : Word) {b : Nat} (h1 : 1 ≤ b) (h7 : b ≤ 7) :
    (statusW1C st d).getLsbD b = (st.getLsbD b && !d.getLsbD b) := by
  rw [statusW1C_bit st d b (by omega)]
  simp [h1]

/-- BUSY is no W1C bit. -/
theorem statusW1C_busy (st : BitVec 8) (d : Word) : (statusW1C st d).getLsbD 0 = st.getLsbD 0 := by
  rw [statusW1C_bit st d 0 (by omega)]
  simp

/-- A legal command word is run as exec runs its command. -/
theorem submitCommand_ok {d : BitVec 32} {i : Instr} (h : decodeCommand d = .ok i) (s : State) :
    submitCommand d s = exec i s := by
  have he := encode_of_decodeCommand h
  rw [submitCommand, h]
  cases i with
  | rd | wr => cases he
  | _ => rfl

/-- Settles O15: each offset is a register's and `writeReg` says what it takes; CMD takes nothing and submits the
word. -/
theorem writeRegisters : Obligations.WriteRegisters := by
  intro s d hb
  have write {a : BitVec 16} {r : Reg} (h : targetOf s.params a = .reg r) (hr : r ≠ .cmd) :
      WritesTo s a d (writeReg d s r) := writesTo_reg d h hr hb
  refine ⟨write (targetOf_ctrl _) nofun, ?_,
    ⟨_, write (targetOf_status _) nofun, statusW1C_busy _ _, fun _ => statusW1C_clearable _ _⟩,
    write (targetOf_aadOff _) nofun, write (targetOf_aadLen _) nofun, write (targetOf_msgOff _) nofun,
    write (targetOf_msgLen _) nofun, write (targetOf_outOff _) nofun,
    fun j => ⟨_, write (targetOf_nonce _ j) nofun, fun k => wordAt_setWordAt_fin rfl _ j k d⟩,
    fun j => ⟨_, write (targetOf_key _ j) nofun, fun k => wordAt_setWordAt_fin rfl _ j k d⟩,
    fun j => ⟨_, write (targetOf_hkey _ j) nofun, fun k => wordAt_setWordAt_fin rfl _ j k d⟩,
    fun j => ⟨_, write (targetOf_tag _ j) nofun, fun k => wordAt_setWordAt_fin rfl _ j k d⟩,
    write (targetOf_id _) nofun, write (targetOf_cap _) nofun,
    fun j => ⟨write (targetOf_result _ j) nofun, write (targetOf_dkh _ j) nofun⟩,
    fun j => write (targetOf_dke _ j) nofun⟩
  rw [exec_wr_cmd hb]
  cases hd : decodeCommand d with
  | ok i => exact submitCommand_ok hd s
  | error e => exact submitCommand_error ⟨e, hd⟩ s

end Sys2Proof.Machine
end

section
/-! Writes while BUSY = 1 (40_host_bus.md R95): a well-formed one is dropped, and the steps that can clear ERR_BUSY. -/

namespace Sys2Proof.Machine

/-! ### Dropped writes -/

/-- A write that passes the checks of R55 and R56 addresses a register with all strobes, or a word of BUF. -/
theorem target_of_wellFormedWrite {p : Params} {a : BitVec 16} {strb : BitVec 4} (h : wellFormedWrite p a strb = true) :
    (∃ r, targetOf p a = .reg r ∧ strb = 0xF) ∨ ∃ o, targetOf p a = .buf o := by
  simp only [wellFormedWrite, Bool.or_eq_true, Bool.and_eq_true, decide_eq_true_eq] at h
  obtain ⟨hreg, hs⟩ | hwin := h
  · obtain ⟨r, ht⟩ := targetOf_registerOffset p hreg
    exact .inl ⟨r, ht, hs⟩
  · exact .inr (targetOf_windowOffset hwin)

theorem exec_wr_dropped {s : State} {a : BitVec 16} {strb : BitVec 4} (hb : s.busy = true)
    (h : wellFormedWrite s.params a strb = true) (d : Word) : exec (.wr a strb d) s = .next (dropWrite s) := by
  rw [show exec (.wr a strb d) s = execWr a strb d s from rfl, execWr]
  obtain ⟨r, ht, rfl⟩ | ⟨o, ht⟩ := target_of_wellFormedWrite h
  · simp [ht, hb]
  · simp [ht, hb]

/-! ### What an engine turn does to STATUS -/

/-- STATUS is kept, or the command ends by completion, of a state with the same STATUS. -/
def StatusKeptOrCompleted (s t : State) : Prop :=
  t.status = s.status ∨ ∃ o u, u.status = s.status ∧ t = complete o u

theorem StatusKeptOrCompleted.kept {s t : State} (h : t.status = s.status) : StatusKeptOrCompleted s t := .inl h

theorem StatusKeptOrCompleted.completed (o : CmdOutcome) {s u : State} (h : u.status = s.status) :
    StatusKeptOrCompleted s (complete o u) := .inr ⟨o, u, h, rfl⟩

theorem State.errBusy_congr {s t : State} (h : t.status = s.status) : t.errBusy = s.errBusy := by
  simp only [State.errBusy, h]

/-- Neither case changes ERR_BUSY. -/
theorem StatusKeptOrCompleted.errBusy {s t : State} (h : StatusKeptOrCompleted s t) : t.errBusy = s.errBusy := by
  obtain hk | ⟨o, u, hu, rfl⟩ := h
  · exact State.errBusy_congr hk
  · exact (complete_errBusy o u).trans (State.errBusy_congr hu)

theorem startAead_status (s : State) : StatusKeptOrCompleted s (startAead s) := by
  unfold startAead
  split
  · split <;> exact .kept rfl
  · exact .completed _ rfl

theorem startHash_status (s : State) : StatusKeptOrCompleted s (startHash s) := by
  unfold startHash
  split
  · exact .kept rfl
  · exact .completed _ rfl

theorem startStep_status (s : State) : StatusKeptOrCompleted s (startStep s) := by
  unfold startStep
  split_ifs
  · exact startAead_status s
  · exact startAead_status s
  · exact .kept rfl
  · exact startHash_status s
  · exact .kept rfl
  · exact .completed _ rfl

theorem keyedStep_status (s : State) : StatusKeptOrCompleted s (keyedStep s) := by
  unfold keyedStep
  split
  · exact .completed _ rfl
  · exact .kept rfl

theorem absorbChunk_status {off len i : Nat} {p : Phase} {s t : State} (h : absorbChunk off len i p s = .next t) :
    t.status = s.status := by
  rcases absorbChunk_cases off len i p s with ⟨_, e⟩ | ⟨_, e⟩ <;> rw [e] at h <;> cases h
  rfl

theorem hashAadStep_status {i : Nat} {s t : State} (h : hashAadStep i s = .next t) : t.status = s.status := by
  unfold hashAadStep at h
  split at h
  · exact absorbChunk_status h
  · cases h; rfl

theorem hashMsgEnd_status (s : State) : (hashMsgEnd s).status = s.status := by
  unfold hashMsgEnd
  split_ifs <;> rfl

theorem hashMsgStep_status {i : Nat} {s t : State} (h : hashMsgStep i s = .next t) : t.status = s.status := by
  unfold hashMsgStep at h
  split at h
  · exact absorbChunk_status h
  · cases h; exact hashMsgEnd_status s

theorem decPass1Step_status (c : CtrStep) (s : State) : (decPass1Step c s).status = s.status := by
  cases c with
  | init | absorb => rfl
  | block => unfold decPass1Step; dsimp only; split <;> rfl

theorem compareStep_status (s : State) : StatusKeptOrCompleted s (compareStep s) := by
  unfold compareStep
  split
  · exact .kept rfl
  · exact .completed _ rfl

theorem keystreamEnd_status (s : State) : StatusKeptOrCompleted s (keystreamEnd s) := by
  unfold keystreamEnd
  split <;> exact .completed _ rfl

theorem keystreamStep_status (c : CtrStep) (s : State) : StatusKeptOrCompleted s (keystreamStep c s) := by
  cases c with
  | init | absorb => exact .kept rfl
  | block =>
    unfold keystreamStep
    dsimp only
    split
    · exact .kept rfl
    · exact keystreamEnd_status s

theorem sequencerStep_status {s t : State} (h : sequencerStep s = .next t) : StatusKeptOrCompleted s t := by
  unfold sequencerStep at h
  cases hp : s.phase with rw [hp] at h
  | idle => cases h; exact .kept rfl
  | started => cases h; exact startStep_status s
  | derivingKeys i ys => cases h; exact .kept rfl
  | keyed => cases h; exact keyedStep_status s
  | hashingAad i => exact .kept (hashAadStep_status h)
  | hashingMsg i => exact .kept (hashMsgStep_status h)
  | hashed => cases h; exact .completed _ rfl
  | decPass1 c => cases h; exact .kept (decPass1Step_status c s)
  | tagging u => cases h; cases u <;> exact .kept rfl
  | comparing => cases h; exact compareStep_status s
  | keystream c => cases h; exact keystreamStep_status c s
  | clearing => cases h; exact .completed _ rfl

theorem takeAnswer_status {y : Block} {s t : State} (h : takeAnswer y s = .next t) : t.status = s.status := by
  unfold takeAnswer at h
  cases hp : s.phase with rw [hp] at h
  | decPass1 c =>
    cases c with
    | init | absorb => cases h; rfl
    | block =>
      rcases ctrPass1_cases y s with ⟨_, e⟩ | ⟨_, e⟩ <;> cases e.symm.trans h
      rfl
  | tagging u => cases u <;> cases h <;> rfl
  | keystream c =>
    cases c with
    | init | absorb => cases h; rfl
    | block =>
      rcases ctrWrite_cases y s with ⟨_, _, e⟩ | ⟨_, _, e⟩ <;> cases e.symm.trans h
      rfl
  | _ => cases h; rfl

theorem engineTurn_status {s t : State} (h : engineTurn s = .next t) : StatusKeptOrCompleted s t := by
  unfold engineTurn at h
  split at h
  · split at h
    · unfold portAnswer at h
      split at h
      · cases h; exact .completed _ rfl
      · exact .kept (takeAnswer_status (s := endCall s) h)
    · exact sequencerStep_status h
  · cases h; exact .kept rfl

/-! ### What a write does to STATUS -/

/-- No register stands at two offsets of the map (10_state.md R21). -/
theorem targetOf_reg_injective {p : Params} {a b : BitVec 16} {r : Reg} (ha : targetOf p a = .reg r)
    (hb : targetOf p b = .reg r) : a = b := by
  have hmap : (regMap.map Prod.snd).Nodup := by decide
  have he : (a.toNat, r) = (b.toNat, r) :=
    List.inj_on_of_nodup_map hmap (targetOf_reg_mem ha) (targetOf_reg_mem hb) rfl
  exact BitVec.eq_of_toNat_eq (congrArg Prod.fst he)

theorem writeReg_status (d : Word) (s : State) {r : Reg} (h : r ≠ .status) : (writeReg d s r).status = s.status := by
  cases r with
  | status => exact absurd rfl h
  | _ => rfl

/-- STATUS is kept but by a dropped write, a command word to CMD, or a W1C write to STATUS. -/
theorem execWr_status {a : BitVec 16} {strb : BitVec 4} {d : Word} {s t : State} (h : execWr a strb d s = .next t) :
    t.status = s.status ∨ (s.busy = true ∧ t = dropWrite s) ∨
      (s.busy = false ∧ strb = 0xF ∧
        (a = 0x000C ∧ submitCommand d s = .next t ∨ a = 0x0010 ∧ t.status = statusW1C s.status d)) := by
  unfold execWr at h
  cases hta : targetOf s.params a with simp only [hta] at h
  | error => cases h; exact .inl rfl
  | buf o =>
    split_ifs at h with hb <;> cases h
    · exact .inr (.inl ⟨hb, rfl⟩)
    · exact .inl rfl
  | reg r =>
    split_ifs at h with hstrb hb
    · cases h; exact .inl rfl
    · cases h; exact .inr (.inl ⟨hb, rfl⟩)
    · have hidle : s.busy = false := by simpa using hb
      have hfull : strb = 0xF := not_not.mp hstrb
      unfold writeEffect at h
      split_ifs at h with hcmd
      · subst hcmd
        exact .inr (.inr ⟨hidle, hfull, .inl ⟨targetOf_reg_injective hta (targetOf_cmd _), h⟩⟩)
      · cases h
        by_cases hr : r = .status
        · subst hr
          exact .inr (.inr ⟨hidle, hfull, .inr ⟨targetOf_reg_injective hta (targetOf_status _), rfl⟩⟩)
        · exact .inl (writeReg_status d s hr)

/-! ### What clears ERR_BUSY -/

theorem submitCommand_errBusy {d : BitVec 32} {s t : State} (h : submitCommand d s = .next t) (hs : s.errBusy = true) :
    t.errBusy = true := by
  rcases submitCommand_cases d s with ⟨_, e⟩ | ⟨_, ⟨o, c, e⟩ | ⟨c, _, e⟩⟩ <;> rw [e] at h <;> cases h
  · exact dropWrite_errBusy s
  · exact (complete_errBusy o _).trans ((accept_errBusy c s).trans hs)
  · exact (startCommand_errBusy c s).trans hs

/-- The write that clears ERR_BUSY is a full write to STATUS with bit 7 set, while BUSY = 0. -/
theorem execWr_clears_errBusy {a : BitVec 16} {strb : BitVec 4} {d : Word} {s t : State}
    (h : execWr a strb d s = .next t) (hs : s.errBusy = true) (ht : t.errBusy = false) :
    a = 0x0010 ∧ strb = 0xF ∧ d.getLsbD 7 = true ∧ s.busy = false := by
  obtain hk | ⟨_, rfl⟩ | ⟨hb, hstrb, ⟨_, hsub⟩ | ⟨ha, hw⟩⟩ := execWr_status h
  · rw [State.errBusy_congr hk, hs] at ht
    cases ht
  · rw [dropWrite_errBusy] at ht
    cases ht
  · rw [submitCommand_errBusy hsub hs] at ht
    cases ht
  · rw [State.errBusy, hw, statusW1C_clearable _ _ (by decide) (by decide),
      show s.status.getLsbD 7 = true from hs] at ht
    exact ⟨ha, hstrb, by simpa using ht, hb⟩

/-- A host turn that clears ERR_BUSY is the W1C write of its bit. -/
theorem hostTurn_clears_errBusy {ht : BitVec 53} {s t : State} (h : hostTurn ht s = .next t) (hs : s.errBusy = true)
    (hc : t.errBusy = false) :
    ∃ d, ht = transactionWord true 0x0010 0xF d ∧ d.getLsbD 7 = true ∧ s.busy = false := by
  unfold hostTurn decodeTransaction at h
  split_ifs at h with hr hw
  · have hword := transactionWord_fields hw
    obtain ⟨ha, hstrb, h7, hb⟩ := execWr_clears_errBusy h hs hc
    rw [ha, hstrb] at hword
    exact ⟨_, hword, h7, hb⟩
  · cases h
    cases hs.symm.trans hc

/-- Settles O17: a well-formed write is dropped by the BUSY test; no engine turn changes ERR_BUSY, the end of reset
keeps it, and of the host's transactions only the W1C write of its bit clears it. -/
theorem busyWrites : Obligations.BusyWrites := by
  refine fun s t a strb d => ⟨fun hb hw => exec_wr_dropped hb hw d, fun hs hstep hc => ?_⟩
  have engine {u : State} (hu : u.errBusy = true) (h : engineTurn u = .next t) : False := by
    rw [(engineTurn_status h).errBusy, hu] at hc
    cases hc
  unfold step at hstep
  cases hturns : s.turns with rw [hturns] at hstep
  | nil => exact (engine hs hstep).elim
  | cons turn rest =>
    cases turn with
    | host ht =>
      obtain ⟨w, hword, h7, hb⟩ := hostTurn_clears_errBusy hstep hs hc
      exact .inl ⟨w, rest, hword ▸ hturns, h7, hb⟩
    | engine => exact (engine (u := { s with turns := rest }) hs hstep).elim
    | resetLow => exact .inr ⟨rest, rfl⟩
    | resetHigh => cases hstep; cases hs.symm.trans hc

end Sys2Proof.Machine
end

section
/-! The bytes of appended strings, of extracted ones and of little-endian numbers, and with them the derivation input
block (42_key_derivation.md R131). -/

namespace Sys2Proof.Machine

/-! ### Bytes of composed strings -/

/-- The low operand of `++` holds the first bytes. -/
theorem byteAt_append_low {m n : Nat} (x : BitVec m) (y : BitVec n) {k : Nat} (hk : 8 * k + 8 ≤ n) :
    byteAt (x ++ y) k = byteAt y k :=
  BitVec.extractLsb'_append_eq_of_add_le hk

/-- The high operand of `++` holds the bytes after the low one's. -/
theorem byteAt_append_high {m n : Nat} (x : BitVec m) (y : BitVec n) {j k : Nat} (hn : n = 8 * j) (hk : j ≤ k) :
    byteAt (x ++ y) k = byteAt x (k - j) := by
  have hpos : 8 * k - n = 8 * (k - j) := by omega
  rw [byteAt, BitVec.extractLsb'_append_eq_of_le (by omega), hpos, byteAt]

/-- Bytes extracted from byte `j` on keep their order. -/
theorem byteAt_extractLsb' {n : Nat} (x : BitVec n) (j : Nat) {w k : Nat} (hk : 8 * k + 8 ≤ w) :
    byteAt (x.extractLsb' (8 * j) w) k = byteAt x (j + k) := by
  apply BitVec.eq_of_getLsbD_eq; intro b hb
  rw [byteAt_bit _ _ _ hb, byteAt_bit _ _ _ hb, BitVec.getLsbD_extractLsb', Nat.mul_add, Nat.add_assoc]
  simp [show 8 * k + b < w by omega]

/-- Byte `k` of a number is its digit `k` to base 256, the least significant first (00_scope.md R9). -/
theorem byteAt_ofNat {w : Nat} (i : Nat) {k : Nat} (hk : 8 * k + 8 ≤ w) :
    byteAt (BitVec.ofNat w i) k = BitVec.ofNat 8 (i / 256 ^ k) := by
  apply BitVec.eq_of_getLsbD_eq; intro b hb
  have hpow : 256 ^ k = 2 ^ (8 * k) := by rw [Nat.pow_mul]
  rw [byteAt_bit _ _ _ hb, hpow, BitVec.getLsbD_ofNat, BitVec.getLsbD_ofNat, Nat.testBit_div_two_pow, Nat.add_comm b]
  simp [hb, show 8 * k + b < w by omega]

/-! ### The derivation input block -/

/-- The bytes chosen start at nonce byte 4 under N16 and at nonce byte 0 under N12. -/
theorem byteAt_nonceSel (nprof : Bool) (n : Block) {k : Nat} (hk : k < 12) :
    byteAt (nonceSel nprof n) k = byteAt n (if nprof then 4 + k else k) := by
  cases nprof with
  | false => exact (byteAt_extractLsb' n 0 (by omega)).trans (by simp)
  | true => exact byteAt_extractLsb' n 4 (by omega)

/-- Settles O34: the low four bytes are the index's, the twelve above them are those chosen of the nonce. -/
theorem derivationBlock : Obligations.DerivationBlock := by
  intro nprof n i k hk
  by_cases hlow : k < 4
  · calc byteAt (kdb nprof n i) k = byteAt (BitVec.ofNat 32 i) k := byteAt_append_low (nonceSel nprof n) _ (by omega)
      _ = BitVec.ofNat 8 (i / 256 ^ k) := byteAt_ofNat i (by omega)
      _ = _ := (if_pos hlow).symm
  · calc byteAt (kdb nprof n i) k = byteAt (nonceSel nprof n) (k - 4) :=
          byteAt_append_high (nonceSel nprof n) (BitVec.ofNat 32 i) rfl (by omega)
      _ = byteAt n (if nprof then 4 + (k - 4) else k - 4) := byteAt_nonceSel nprof n (by omega)
      _ = byteAt n (if nprof then k else k - 4) := by rw [Nat.add_sub_of_le (by omega)]
      _ = _ := (if_neg hlow).symm

end Sys2Proof.Machine
end

section
/-! The bytes of a block cut, widened or masked, and with them the tag input block (43_tag_generator.md R151, R152). -/

namespace Sys2Proof.Machine

/-! ### Bytes of masked and widened strings -/

theorem byteAt_and {n : Nat} (x y : BitVec n) (i : Nat) : byteAt (x &&& y) i = byteAt x i &&& byteAt y i :=
  BitVec.extractLsb'_and

/-- A string has only zero bytes past its end. -/
theorem byteAt_of_le {n : Nat} (x : BitVec n) {i : Nat} (hi : n ≤ 8 * i) : byteAt x i = 0 := by
  apply BitVec.eq_of_getLsbD_eq; intro b hb
  rw [byteAt_bit _ _ _ hb, BitVec.getLsbD_of_ge _ _ (by omega)]
  exact BitVec.getLsbD_zero.symm

/-- Widening or cutting a string keeps every byte that lies within the new width. -/
theorem byteAt_setWidth {n w : Nat} (x : BitVec n) {i : Nat} (hi : 8 * i + 8 ≤ w) :
    byteAt (x.setWidth w) i = byteAt x i := by
  apply BitVec.eq_of_getLsbD_eq; intro b hb
  rw [byteAt_bit _ _ _ hb, byteAt_bit _ _ _ hb, BitVec.getLsbD_setWidth]
  simp [show 8 * i + b < w by omega]

/-! ### The tag input block -/

/-- Clearing bit 127 takes the top bit of byte 15 and leaves every other byte (R152). -/
theorem byteAt_clearBit127 (u : Block) {j : Nat} (hj : j < 16) :
    byteAt (clearBit127 u) j = byteAt u j &&& (if j = 15 then 0x7F else 0xFF) := by
  have hmask : ∀ k < 16, byteAt (0x7FFFFFFFFFFFFFFFFFFFFFFFFFFFFFFF : Block) k = if k = 15 then 0x7F else 0xFF := by
    decide
  rw [clearBit127, byteAt_and, hmask j hj]

theorem nonceMask_n12 (n : Block) : nonceMask false n = (n.extractLsb' 0 96).setWidth 128 := rfl

/-- The nonce bytes used are the first twelve under N12 and all sixteen under N16 (R151). -/
theorem byteAt_nonceMask (nprof : Bool) (n : Block) {j : Nat} (hj : j < 16) :
    byteAt (nonceMask nprof n) j = if j < (if nprof then 16 else 12) then byteAt n j else 0 := by
  cases nprof with
  | true => exact (if_pos hj).symm
  | false =>
    have hcut : byteAt (nonceMask false n) j = byteAt (n.extractLsb' 0 96) j := by
      rw [nonceMask_n12]
      exact byteAt_setWidth _ (by omega)
    by_cases hlow : j < 12
    · calc byteAt (nonceMask false n) j = byteAt (n.extractLsb' 0 96) j := hcut
        _ = byteAt n (0 + j) := byteAt_extractLsb' n 0 (by omega)
        _ = byteAt n j := by rw [Nat.zero_add]
        _ = _ := (if_pos hlow).symm
    · calc byteAt (nonceMask false n) j = byteAt (n.extractLsb' 0 96) j := hcut
        _ = 0 := byteAt_of_le _ (by omega)
        _ = _ := (if_neg hlow).symm

/-- Settles O36: the tag input block is the hash result XORed with the nonce bytes used, with bit 127 cleared. -/
theorem tagInputBytes : Obligations.TagInputBytes := by
  intro nprof n s j hj
  rw [tagInput, byteAt_clearBit127 _ hj, byteAt_xor, byteAt_nonceMask nprof n hj]

end Sys2Proof.Machine
end

section
/-! The bytes of the initial counter block and of the counter blocks (44_ctr_keystream.md R170, R171). -/

namespace Sys2Proof.Machine

theorem byteAt_or {n : Nat} (x y : BitVec n) (i : Nat) : byteAt (x ||| y) i = byteAt x i ||| byteAt y i :=
  BitVec.extractLsb'_or

/-- CTR_MSB goes to the top bit of byte 15 and to no other byte (R170). -/
theorem byteAt_ctrMsb (msb : Bool) {j : Nat} (hj : j < 16) :
    byteAt (if msb then 0x80000000000000000000000000000000 else 0 : Block) j =
      if j = 15 then (if msb then 0x80 else 0) else 0 := by
  revert msb j
  decide

/-- CB0 is the tag except in byte 15, whose top bit is CTR_MSB (R170). -/
theorem byteAt_ctrBlock0 (msb : Bool) (t : Block) {j : Nat} (hj : j < 16) :
    byteAt (ctrBlock0 msb t) j =
      if j = 15 then (byteAt t 15 &&& 0x7F) ||| (if msb then 0x80 else 0) else byteAt t j := by
  rw [ctrBlock0, byteAt_or, byteAt_clearBit127 t hj, byteAt_ctrMsb msb hj]
  by_cases htop : j = 15
  · subst htop
    rfl
  · have hkeep : byteAt t j &&& 0xFF = byteAt t j := BitVec.and_allOnes
    rw [if_neg htop, if_neg htop, if_neg htop, hkeep]
    exact BitVec.or_zero

/-- The counter field is a number of 32 bits, so adding the index wraps modulo 2^32 (R171). -/
theorem counterField_eq (cb0 : Block) (i : Nat) :
    cb0.extractLsb' 0 32 + BitVec.ofNat 32 i = BitVec.ofNat 32 ((cb0.toNat % 2 ^ 32 + i) % 2 ^ 32) := by
  apply BitVec.eq_of_toNat_eq
  rw [BitVec.toNat_add, BitVec.toNat_ofNat, BitVec.toNat_ofNat, BitVec.extractLsb'_toNat, Nat.shiftRight_zero,
    Nat.add_mod_mod, Nat.mod_mod]

/-- The low four bytes of `CB(i)` are those of the wrapped sum, the twelve above them are CB0's (R171). -/
theorem byteAt_counterBlock (cb0 : Block) (i : Nat) {j : Nat} (hj : j < 16) :
    byteAt (counterBlock cb0 i) j =
      if j < 4 then BitVec.ofNat 8 (((cb0.toNat % 2 ^ 32 + i) % 2 ^ 32) / 256 ^ j) else byteAt cb0 j := by
  rw [counterBlock, counterField_eq]
  by_cases hlow : j < 4
  · rw [if_pos hlow, byteAt_append_low _ _ (by omega), byteAt_ofNat _ (by omega)]
  · calc byteAt (cb0.extractLsb' 32 96 ++ BitVec.ofNat 32 ((cb0.toNat % 2 ^ 32 + i) % 2 ^ 32)) j
          = byteAt (cb0.extractLsb' 32 96) (j - 4) := byteAt_append_high (j := 4) _ _ rfl (by omega)
      _ = byteAt cb0 (4 + (j - 4)) := byteAt_extractLsb' cb0 4 (by omega)
      _ = byteAt cb0 j := by rw [Nat.add_sub_of_le (by omega)]
      _ = _ := (if_neg hlow).symm

/-- Settles O37: CB0's bytes are the tag's with CTR_MSB on top, and a counter block changes only the bytes of the
counter field, by addition modulo 2^32. -/
theorem counterBlockBytes : Obligations.CounterBlockBytes :=
  fun msb t cb0 i _ hj => ⟨byteAt_ctrBlock0 msb t hj, byteAt_counterBlock cb0 i hj⟩

end Sys2Proof.Machine
end

section
/-! NOP (45_commands.md R209): acceptance and completion in one step. -/

namespace Sys2Proof.Machine

/-- The host's write of NOP leads to an accepted and at once completed command. -/
theorem exec_nop {s : State} (h : s.busy = false) :
    exec .nop s = .next (respond (.write false) (complete .ok (accept (commandWord 0x00 false) s))) := by
  rw [show exec .nop s = execNop s from rfl, execNop, submitWith_idle h]

/-- Acceptance and completion with OK leave ERR_BUSY as it was and set DONE (R191, R192). -/
theorem statusCompleted_accepted_ok (st : BitVec 8) :
    statusCompleted .ok (statusAccepted st) = (st &&& 0x80) ||| 0x02 := by
  revert st
  decide

/-- Settles O19: NOP is its acceptance and completion, and NOP reads no key. -/
theorem nopCompletes : Obligations.NopCompletes := by
  refine ⟨rfl, fun s hidle => ⟨?_, fun t ht => ?_⟩⟩
  · rw [exec_nop hidle, ← statusCompleted_accepted_ok]
    rfl
  · cases (exec_nop hidle).symm.trans ht
    have hdone := complete_done .ok (accept (commandWord 0x00 false) s)
    refine ⟨complete_busy .ok _, hdone, ?_⟩
    calc _ = (s.ie && (complete .ok (accept (commandWord 0x00 false) s)).done) := rfl
      _ = s.ie := by rw [hdone, Bool.and_true]

end Sys2Proof.Machine
end

section
/-! KEY and HKEY through a command (45_commands.md R193, 10_state.md section 9): an engine turn leaves them and STATUS
alone, or it ends the command and both are zero. -/

namespace Sys2Proof.Machine

/-- KEY and HKEY are as they were. -/
def SameKeys (s t : State) : Prop := t.key = s.key ∧ t.hkey = s.hkey

/-- The two ways a turn of a command may treat the keys. -/
def KeysKeptOrZeroized (s t : State) : Prop :=
  (t.status = s.status ∧ SameKeys s t) ∨ (t.busy = false ∧ t.key = 0 ∧ t.hkey = 0)

theorem KeysKeptOrZeroized.kept {s t : State} (hst : t.status = s.status) (hk : SameKeys s t) :
    KeysKeptOrZeroized s t := .inl ⟨hst, hk⟩

/-- The completion of a key-reading command, whatever its outcome (R193); an illegal word starts none (R211). -/
theorem complete_keysZeroized {o : CmdOutcome} {s u : State} (ho : o ≠ .illegalCommand) (hr : readsKey u.opc = true) :
    KeysKeptOrZeroized s (complete o u) := by
  have hz : zeroizesKeys o u.opc = true := by simp [zeroizesKeys, ho, hr]
  exact .inr ⟨complete_busy o u, if_pos hz, if_pos hz⟩

/-! ### Which commands read a key -/

/-- Past its first micro-step a command reads a key, unless it is CLEAR (10_state.md R37, R193). -/
theorem Inv.readsKey_of_phase {s : State} (h : Inv s) (hi : s.phase ≠ .idle) (hs : s.phase ≠ .started)
    (hc : s.phase ≠ .clearing) : readsKey s.opc = true := by
  have hf := h.phase_fits
  unfold phaseFits at hf
  cases hp : s.phase with
  | idle => exact absurd hp hi
  | started => exact absurd hp hs
  | clearing => exact absurd hp hc
  | _ =>
    rw [hp] at hf
    simp only [phaseOf, readsKey, Bool.or_eq_true, Bool.and_eq_true] at hf ⊢
    tauto

/-- Every command that makes a block-cipher call reads a key. -/
theorem Inv.readsKey_of_request {s : State} {r : BcRequest} (h : Inv s) (hq : s.bcReq = some r) :
    readsKey s.opc = true := by
  obtain ⟨hi, hs⟩ := h.request_busy hq
  refine h.readsKey_of_phase hi hs fun hc => ?_
  have hr := h.request_fits
  rw [hq] at hr
  simp [wantedRequest, requestOf, hc] at hr

/-! ### The micro-steps -/

theorem startAead_keys {s : State} (hr : readsKey s.opc = true) : KeysKeptOrZeroized s (startAead s) := by
  unfold startAead
  split
  · split <;> exact .kept rfl ⟨rfl, rfl⟩
  · exact complete_keysZeroized (by decide) hr

theorem startHash_keys {s : State} (hr : readsKey s.opc = true) : KeysKeptOrZeroized s (startHash s) := by
  unfold startHash
  split
  · exact .kept rfl ⟨rfl, rfl⟩
  · exact complete_keysZeroized (by decide) hr

theorem startStep_keys {s : State} (hm : multiStep s.opc = true) : KeysKeptOrZeroized s (startStep s) := by
  unfold startStep
  split_ifs with henc hdec hder hhash hclear
  · exact startAead_keys (by rw [henc]; rfl)
  · exact startAead_keys (by rw [hdec]; rfl)
  · exact .kept rfl ⟨rfl, rfl⟩
  · exact startHash_keys (by rw [hhash]; rfl)
  · exact .kept rfl ⟨rfl, rfl⟩
  · simp only [multiStep, Bool.or_eq_true, decide_eq_true_eq] at hm
    tauto

theorem keyedStep_keys {s : State} (hr : readsKey s.opc = true) : KeysKeptOrZeroized s (keyedStep s) := by
  unfold keyedStep
  split
  · exact complete_keysZeroized (by decide) hr
  · exact .kept rfl ⟨rfl, rfl⟩

theorem absorbChunk_keys {off len i : Nat} {p : Phase} {s t : State} (h : absorbChunk off len i p s = .next t) :
    SameKeys s t := by
  rcases absorbChunk_cases off len i p s with ⟨_, e⟩ | ⟨_, e⟩ <;> cases e.symm.trans h
  exact ⟨rfl, rfl⟩

theorem hashAadStep_keys {i : Nat} {s t : State} (h : hashAadStep i s = .next t) : SameKeys s t := by
  unfold hashAadStep at h
  split at h
  · exact absorbChunk_keys h
  · cases h; exact ⟨rfl, rfl⟩

theorem hashMsgEnd_keys (s : State) : SameKeys s (hashMsgEnd s) := by
  unfold hashMsgEnd
  split_ifs <;> exact ⟨rfl, rfl⟩

theorem hashMsgStep_keys {i : Nat} {s t : State} (h : hashMsgStep i s = .next t) : SameKeys s t := by
  unfold hashMsgStep at h
  split at h
  · exact absorbChunk_keys h
  · cases h; exact hashMsgEnd_keys s

theorem decPass1Step_keys (c : CtrStep) (s : State) : SameKeys s (decPass1Step c s) := by
  cases c with
  | init | absorb => exact ⟨rfl, rfl⟩
  | block => unfold decPass1Step; dsimp only; split <;> exact ⟨rfl, rfl⟩

theorem compareStep_keys {s : State} (hr : readsKey s.opc = true) : KeysKeptOrZeroized s (compareStep s) := by
  unfold compareStep
  split
  · exact .kept rfl ⟨rfl, rfl⟩
  · exact complete_keysZeroized (by decide) hr

theorem keystreamEnd_keys {s : State} (hr : readsKey s.opc = true) : KeysKeptOrZeroized s (keystreamEnd s) := by
  unfold keystreamEnd
  split <;> exact complete_keysZeroized (by decide) hr

theorem keystreamStep_keys (c : CtrStep) {s : State} (hr : readsKey s.opc = true) :
    KeysKeptOrZeroized s (keystreamStep c s) := by
  cases c with
  | init | absorb => exact .kept rfl ⟨rfl, rfl⟩
  | block =>
    unfold keystreamStep
    dsimp only
    split
    · exact .kept rfl ⟨rfl, rfl⟩
    · exact keystreamEnd_keys hr

/-- CLEAR zeroizes the keys itself, its completion leaves them so (R210). -/
theorem clear_keysZeroized (s : State) : KeysKeptOrZeroized s (complete .ok (clearAll s)) :=
  .inr ⟨complete_busy .ok _, ite_self _, ite_self _⟩

theorem sequencerStep_keys {s t : State} (hinv : Inv s) (h : sequencerStep s = .next t) : KeysKeptOrZeroized s t := by
  have hr := hinv.readsKey_of_phase
  have hfits := hinv.phase_fits
  unfold sequencerStep at h
  unfold phaseFits at hfits
  cases hp : s.phase with simp only [hp, ne_eq, reduceCtorEq, not_false_eq_true, forall_const] at h hr hfits
  | idle => cases h; exact .kept rfl ⟨rfl, rfl⟩
  | started => cases h; exact startStep_keys hfits
  | derivingKeys i ys => cases h; exact .kept rfl ⟨rfl, rfl⟩
  | keyed => cases h; exact keyedStep_keys hr
  | hashingAad i => exact .kept (hashAadStep_status h) (hashAadStep_keys h)
  | hashingMsg i => exact .kept (hashMsgStep_status h) (hashMsgStep_keys h)
  | hashed => cases h; exact complete_keysZeroized (by decide) hr
  | decPass1 c => cases h; exact .kept (decPass1Step_status c s) (decPass1Step_keys c s)
  | tagging u => cases h; cases u <;> exact .kept rfl ⟨rfl, rfl⟩
  | comparing => cases h; exact compareStep_keys hr
  | keystream c => cases h; exact keystreamStep_keys c hr
  | clearing => cases h; exact clear_keysZeroized s

/-! ### The port's answer -/

theorem takeAnswer_keys {y : Block} {s t : State} (h : takeAnswer y s = .next t) : SameKeys s t := by
  unfold takeAnswer at h
  cases hp : s.phase with rw [hp] at h
  | decPass1 c =>
    cases c with
    | init | absorb => cases h; exact ⟨rfl, rfl⟩
    | block =>
      rcases ctrPass1_cases y s with ⟨_, e⟩ | ⟨_, e⟩ <;> cases e.symm.trans h
      exact ⟨rfl, rfl⟩
  | tagging u => cases u <;> cases h <;> exact ⟨rfl, rfl⟩
  | keystream c =>
    cases c with
    | init | absorb => cases h; exact ⟨rfl, rfl⟩
    | block =>
      rcases ctrWrite_cases y s with ⟨_, _, e⟩ | ⟨_, _, e⟩ <;> cases e.symm.trans h
      exact ⟨rfl, rfl⟩
  | _ => cases h; exact ⟨rfl, rfl⟩

theorem portAnswer_keys {r : BcRequest} {s t : State} (hr : readsKey s.opc = true) (h : portAnswer r s = .next t) :
    KeysKeptOrZeroized s t := by
  unfold portAnswer at h
  split at h
  · cases h; exact complete_keysZeroized (by decide) hr
  · exact .kept (takeAnswer_status (s := endCall s) h) (takeAnswer_keys (s := endCall s) h)

theorem engineTurn_keys {s t : State} (hinv : Inv s) (h : engineTurn s = .next t) : KeysKeptOrZeroized s t := by
  unfold engineTurn at h
  split at h
  · split at h
    case h_1 r hq => exact portAnswer_keys (hinv.readsKey_of_request hq) h
    case h_2 => exact sequencerStep_keys hinv h
  · cases h; exact .kept rfl ⟨rfl, rfl⟩

/-- Settles O49: a turn that keeps the keys keeps STATUS, so BUSY tells the two cases of `engineTurn_keys` apart. -/
theorem keysZeroized : Obligations.KeysZeroized := by
  intro s t hinv hbusy hturn
  rcases engineTurn_keys hinv hturn with ⟨hst, hkeys⟩ | ⟨hidle, hzero⟩
  · have hb : t.busy = true := (State.busy_congr hst).trans hbusy
    exact ⟨fun hi => absurd (hb.symm.trans hi) (by decide), fun _ => hkeys⟩
  · exact ⟨fun _ => hzero, fun hb => absurd (hidle.symm.trans hb) (by decide)⟩

end Sys2Proof.Machine
end

section
/-! A block-cipher call that fails ends the command in progress (00_scope.md R13, 60_exceptions.md R233), and the
failing calls of an ENCRYPT: a derivation call, the tag call, a keystream call (45_commands.md R203). -/

namespace Sys2Proof.Machine

/-! ### A failing call of a command in progress -/

/-- Nothing written for the host yet but BUF: TAG as it was, and the outputs as acceptance left them (R191). -/
def NoOutput (s u : State) : Prop := u.tag = s.tag ∧ u.result = 0 ∧ u.dkh = 0 ∧ u.dke = 0

theorem InProgress.after_endCall {op : BitVec 8} {f : Bool} {k : Nat} {s u : State} (h : InProgress op f k s u) :
    InProgress op f (k + 1) s (endCall u) := by
  obtain ⟨_, _, _, _, _, _, _, _, hans, hcalls⟩ := h.inputs
  have hu : u = _ := h
  rw [InProgress, endCall, hans, hcalls, List.tail_drop, Nat.add_assoc]
  conv_lhs => rw [hu]

/-- Call `k` of a key-reading command fails: it is the last, and the command ends with PrimitiveFailure. -/
theorem InProgress.run_failing_call {op : BitVec 8} {f : Bool} {k : Nat} {s u : State} {r : BcRequest}
    (h : InProgress op f k s u) (hs : Ready s) (hop : readsKey op = true) (hno : NoOutput s u) (hq : u.bcReq = none)
    (hp : sequencerStep u = .next { u with bcReq := some r }) (hfail : drawAt s k = true) :
    runSteps 2 u = .next { finished op f .primitiveFailure (k + 1) s with buf := u.buf } := by
  obtain ⟨hrst, _, _, hturns⟩ := hs
  obtain ⟨_, hr, ht, _, _, _, _, _, hans, hcalls⟩ := h.inputs
  obtain ⟨htag, hres, hdkh, hdke⟩ := hno
  have hnext : nextFails u = true := by
    rw [nextFails_eq_drawAt, drawAt_after hans hcalls]
    exact hfail
  rw [runSteps_failing_call (hr.trans hrst) hq (ht.trans hturns) hp hnext,
    h.after_endCall.completed .primitiveFailure (by simp [zeroizesKeys, hop])]
  simp only [endCall_tag, endCall_buf, endCall_result, endCall_dkh, endCall_dke, htag, hres, hdkh, hdke]
  rfl

/-- The keystream pass keeps a command in progress, its calls counted. -/
theorem passTo_inProgress {op : BitVec 8} {f : Bool} {n : Nat} {s u : State} (h : InProgress op f n s u) (i : Nat)
    (m : Buffer) : InProgress op f (n + i) s (passTo u i m) := by
  obtain ⟨_, _, _, _, _, _, _, _, hans, hcalls⟩ := h.inputs
  have hu : u = _ := h
  rw [InProgress, passTo, hans, hcalls, List.drop_drop, Nat.add_assoc]
  conv_lhs => rw [hu]

/-- Keystream call `i` of a command at its first keystream block fails, with the chunks before `i` written. -/
theorem InProgress.run_keystream_fails {op : BitVec 8} {f : Bool} {n : Nat} {s u : State} (h : InProgress op f n s u)
    (hs : Ready s) (hop : readsKey op = true) (hc : regionCheckAead s = true) (hno : NoOutput s u)
    (hq : u.bcReq = none) (hp : u.phase = .keystream .block) (hb : u.blk = 0) {i : Nat} (hi : 16 * i < s.msgLen.toNat)
    (hf : NoFail s (n + i)) (hfail : drawAt s (n + i) = true) :
    ∃ m, runSteps (2 * i + 2) u = .next { finished op f .primitiveFailure (n + i + 1) s with buf := m } ∧
      Written u (16 * i) m := by
  have ⟨hrst, _, _, hturns⟩ := hs
  obtain ⟨_, hmsg, hout, hplace⟩ := aead_bounds hc
  obtain ⟨hpar, hr, ht, ⟨_, _, _, hmo, hml, hoo, _⟩, _, _, _, _, hans, hcalls⟩ := h.inputs
  rw [← hpar, ← hmo, ← hml] at hmsg
  rw [← hpar, ← hoo, ← hml] at hout
  rw [← hmo, ← hoo, ← hml] at hplace
  rw [← hml] at hi
  have hchunk : i ≤ chunkCount u.msgLen.toNat := by
    unfold chunkCount
    omega
  obtain ⟨m, hpass, hw⟩ := run_pass i (hr.trans hrst) hq (ht.trans hturns) hp hb hmsg hout hplace hchunk
    (hf.after hans hcalls)
  rw [Nat.min_eq_left (Nat.le_of_lt hi)] at hw
  have hend := (passTo_inProgress h i m).run_failing_call hs hop hno hq (sequencer_pass hi) hfail
  exact ⟨m, runSteps_trans hpass hend, hw⟩

/-- What a keystream pass has written are the first bytes of `ctrApply` (44_ctr_keystream.md R174). -/
theorem InProgress.outHolds_of_written {op : BitVec 8} {f : Bool} {n : Nat} {s u : State} (h : InProgress op f n s u)
    (hbuf : u.buf = s.buf) {tag : Block} (hcb : u.cb0 = ctrBlock0 s.params.ctrMsb tag) {ek : Key} (hesub : u.esub = ek)
    {l : Nat} (hl : l ≤ s.msgLen.toNat) {m : Buffer} (hw : Written u l m) :
    OutHolds s m (ctrApply s.params.ctrMsb s.ksz tag ek (msgBytes s)) l := by
  obtain ⟨hpar, _, _, ⟨_, _, _, hmo, hml, hoo, _⟩, _, _, hksz, _, _, _⟩ := h.inputs
  have hmsg : msgBytes u = msgBytes s := by rw [msgBytes, msgBytes, hbuf, hmo, hml]
  obtain ⟨hin, hframe⟩ := hw
  rw [hoo] at hin hframe
  rw [hbuf] at hframe
  refine ⟨fun k hk => (hin k hk).trans ?_, hframe⟩
  rw [outByte_eq (by rw [hpar, hcb]) (by rw [hml]; omega), hpar, hksz, hmsg, hesub]

/-! ### The failing calls of an ENCRYPT -/

/-- A one-key ENCRYPT at its first derivation call (42_key_derivation.md R132). -/
def encDeriving (s : State) : State := { acceptedState 0x01 false s with phase := .derivingKeys 0 [] }

theorem run_enc_deriving {s : State} (hs : Ready s) (hc : regionCheckAead s = true) {k : Nat} (hk : k < kdCalls s.ksz)
    (hf : NoFail s k) :
    runSteps (1 + 2 * k) (acceptedState 0x01 false s) = .next (derivedTo (encDeriving s) k) := by
  obtain ⟨hr, _, hq, ht⟩ := hs
  have hstart : startStep (acceptedState 0x01 false s) = derivedTo (encDeriving s) 0 := by
    rw [startStep, if_pos (accepted_opc ..), startAead, if_pos (by exact hc), if_neg (by simp)]
    rfl
  refine runSteps_trans (runSteps_one (by exact ht) ?_)
    (run_derive_to k (s := encDeriving s) hr hq ht hk hf)
  rw [engineTurn_sequencer (by exact hr) (by exact hq), sequencer_started rfl, hstart]

theorem derivedTo_inProgress (s : State) (k : Nat) : InProgress 0x01 false k s (derivedTo (encDeriving s) k) := rfl

/-- A derivation call fails. -/
theorem run_enc_derivation_fails {s : State} (hs : Ready s) (hc : regionCheckAead s = true) {k : Nat}
    (hk : k < kdCalls s.ksz) (hf : NoFail s k) (hfail : drawAt s k = true) :
    runSteps (1 + 2 * k + 2) (acceptedState 0x01 false s) =
      .next { finished 0x01 false .primitiveFailure (k + 1) s with buf := s.buf } := by
  have ⟨_, _, hq, _⟩ := hs
  have hend := (derivedTo_inProgress s k).run_failing_call hs rfl ⟨rfl, rfl, rfl, rfl⟩ hq (sequencer_deriving rfl) hfail
  exact runSteps_trans (run_enc_deriving hs hc hk hf) hend

theorem taggedState_inProgress (f : Bool) (s : State) :
    InProgress 0x01 f (keyCalls f s.ksz) s (taggedState (encHashed f (acceptedState 0x01 f s))) := rfl

/-- The tag call fails. -/
theorem run_enc_tag_fails {f : Bool} {s : State} (hs : Ready s) (hc : regionCheckAead s = true)
    (hf : NoFail s (keyCalls f s.ksz)) (hfail : drawAt s (keyCalls f s.ksz) = true) :
    ∃ n, runSteps n (acceptedState 0x01 f s) =
      .next { finished 0x01 f .primitiveFailure (keyCalls f s.ksz + 1) s with buf := s.buf } := by
  have ⟨hr, _, hq, ht⟩ := hs
  have htagged := runSteps_trans
    (run_enc_hashed (t := acceptedState 0x01 f s) hr hq ht rfl (accepted_opc ..) (accepted_opF ..) hc hf)
    (run_tag_input hr hq ht rfl)
  have hend := (taggedState_inProgress f s).run_failing_call hs rfl ⟨rfl, rfl, rfl, rfl⟩ hq (sequencer_tag _) hfail
  exact ⟨_, runSteps_trans htagged hend⟩

/-- An ENCRYPT at its first keystream block: BUF not yet written, no request outstanding, the counter block made from
the computed tag, the encryption subkey in place. -/
theorem encPass_ready (f : Bool) (t : State) :
    (encPass f t).phase = .keystream .block ∧ (encPass f t).blk = 0 ∧ (encPass f t).bcReq = t.bcReq ∧
      (encPass f t).buf = t.buf ∧ (encPass f t).cb0 = ctrBlock0 t.params.ctrMsb (tagOf (encHashed f t)) ∧
      (encPass f t).esub = (subkeys f t.optKsz t.optNprof t.hkey t.key t.nonce).2 := by
  simp only [encPass, taggedState, encHashed, keyedState, and_self]

theorem encPass_noOutput (f : Bool) (s : State) : NoOutput s (encPass f (acceptedState 0x01 f s)) := by
  simp only [NoOutput, encPass, taggedState, encHashed, keyedState]
  exact ⟨rfl, rfl, rfl, rfl⟩

/-- The tag an accepted ENCRYPT computes is that of `Enc` (R212). -/
theorem tagOf_encHashed_accepted (f : Bool) (s : State) :
    tagOf (encHashed f (acceptedState 0x01 f s)) = (encResult f s).2 :=
  tagOf_encHashed f (acceptedState 0x01 f s)

/-- Keystream call `i` fails. -/
theorem run_enc_keystream_fails {f : Bool} {s : State} (hs : Ready s) (hc : regionCheckAead s = true) {i : Nat}
    (hi : 16 * i < s.msgLen.toNat) (hf : NoFail s (keyCalls f s.ksz + 1 + i))
    (hfail : drawAt s (keyCalls f s.ksz + 1 + i) = true) :
    ∃ n m, runSteps n (acceptedState 0x01 f s) =
        .next { finished 0x01 f .primitiveFailure (keyCalls f s.ksz + 1 + i + 1) s with buf := m } ∧
      OutHolds s m (encResult f s).1 (16 * i) := by
  have ⟨hr, _, hq, ht⟩ := hs
  have hready := run_enc_pass (t := acceptedState 0x01 f s) hr hq ht rfl (accepted_opc ..) (accepted_opF ..) hc
    (hf.mono (Nat.le_add_right _ i))
  obtain ⟨hp, hb, hreq, hbuf, hcb, hesub⟩ := encPass_ready f (acceptedState 0x01 f s)
  have hin := encPass_inProgress f s
  have hno := encPass_noOutput f s
  obtain ⟨m, hend, hw⟩ := hin.run_keystream_fails hs rfl hc hno (hreq.trans hq) hp hb hi hf hfail
  exact ⟨_, m, runSteps_trans hready hend,
    hin.outHolds_of_written hbuf (hcb.trans (congrArg _ (tagOf_encHashed_accepted f s))) hesub (Nat.le_of_lt hi) hw⟩

/-- Settles O29, by the kind of the failing call: a derivation call, the tag call, or a keystream call. -/
theorem encryptFails : Obligations.EncryptFails := by
  intro f s k hs hc hk hf hfail
  have ⟨_, hidle, _, _⟩ := hs
  have hnone (bs : List Byte) : OutHolds s s.buf bs 0 := ⟨fun k hk => absurd hk k.not_lt_zero, fun _ _ => rfl⟩
  suffices h : ∃ n m, runSteps n (acceptedState 0x01 f s) =
      .next { finished 0x01 f .primitiveFailure (k + 1) s with buf := m } ∧
      OutHolds s m (encResult f s).1 (16 * (k - (keyCalls f s.ksz + 1))) by
    obtain ⟨n, m, hrun, hout⟩ := h
    exact ⟨_, n, m, submit_accepted hidle, hrun, hout⟩
  rcases Nat.lt_trichotomy k (keyCalls f s.ksz) with hlt | rfl | hgt
  · cases f with
    | true => exact absurd hlt k.not_lt_zero
    | false =>
      rw [Nat.sub_eq_zero_of_le (by omega)]
      exact ⟨_, s.buf, run_enc_derivation_fails hs hc hlt hf hfail, hnone _⟩
  · rw [Nat.sub_eq_zero_of_le (by omega)]
    obtain ⟨n, hrun⟩ := run_enc_tag_fails hs hc hf hfail
    exact ⟨n, s.buf, hrun, hnone _⟩
  · obtain ⟨i, rfl⟩ := Nat.exists_eq_add_of_le hgt
    have hi : 16 * i < s.msgLen.toNat := by
      rw [encryptCalls, chunkCount] at hk
      omega
    rw [Nat.add_sub_cancel_left]
    exact run_enc_keystream_fails hs hc hi hf hfail

end Sys2Proof.Machine
end

section
/-! Instructions as words and as bytes (30_encoding.md sections 1 to 3): the bytes of a number put together again, the
decoder after the encoder, the words written out, and what a placed table row runs (45_commands.md section 1). -/

namespace Sys2Proof.Machine

/-! ### The bytes of a number -/

theorem bytesOfNat_eq_map (m n : Nat) : bytesOfNat m n = (List.range m).map fun k => BitVec.ofNat 8 (n / 256 ^ k) := by
  induction m generalizing n with
  | zero => rfl
  | succ m ih =>
    rw [bytesOfNat, ih, List.range_succ_eq_map, List.map_cons, List.map_map]
    simp [Function.comp_def, Nat.pow_succ', Nat.div_div_eq_div_mul]

/-- The bytes of a number are those of a string wide enough for them (00_scope.md R9). -/
theorem bytesOfNat_eq_byteAt {m w : Nat} (n : Nat) (hw : 8 * m ≤ w) :
    bytesOfNat m n = (List.range m).map (byteAt (BitVec.ofNat w n)) := by
  rw [bytesOfNat_eq_map]
  refine List.map_congr_left fun k hk => (byteAt_ofNat n ?_).symm
  have hkm := List.mem_range.mp hk
  omega

theorem join_four_bytes (w : BitVec 32) : byteAt w 3 ++ byteAt w 2 ++ byteAt w 1 ++ byteAt w 0 = w := by
  apply BitVec.eq_of_getLsbD_eq
  intro i hi
  simp only [byteAt, BitVec.getLsbD_append, BitVec.getLsbD_extractLsb']
  interval_cases i <;> rfl

/-- The seven bytes of a transaction word, the last cut to the five bits it has. -/
theorem join_seven_bytes (n : Nat) (w : BitVec 56) (hw : w = BitVec.ofNat 56 n) :
    (byteAt w 6).extractLsb' 0 5 ++ byteAt w 5 ++ byteAt w 4 ++ byteAt w 3 ++ byteAt w 2 ++ byteAt w 1 ++ byteAt w 0 =
      BitVec.ofNat 53 n := by
  have hcut : w.setWidth 53 = BitVec.ofNat 53 n := by
    rw [hw]; exact BitVec.setWidth_ofNat_of_le (by decide) n
  rw [← hcut]
  apply BitVec.eq_of_getLsbD_eq
  intro i hi
  simp only [byteAt, BitVec.getLsbD_append, BitVec.getLsbD_extractLsb', BitVec.getLsbD_setWidth]
  interval_cases i <;> rfl

/-! ### Decoding from bytes -/

/-- Four bytes are read as the command word of their number. -/
theorem decodeBytes_command (n : Nat) (rest : List Byte) :
    decodeBytes .command (bytesOfNat 4 n ++ rest) = (decodeCommand (BitVec.ofNat 32 n)).map (·, rest) := by
  have hj := join_four_bytes (BitVec.ofNat 32 n)
  rw [bytesOfNat_eq_byteAt (w := 32) n (by decide)]
  simp only [List.range, List.range.loop, List.map_cons, List.map_nil, List.cons_append, List.nil_append, decodeBytes, hj]
  cases decodeCommand (BitVec.ofNat 32 n) <;> rfl

/-- Seven bytes are read as the transaction word of their number, if it has no bit above bit 52. -/
theorem decodeBytes_transaction (n : Nat) (rest : List Byte) :
    decodeBytes .transaction (bytesOfNat 7 n ++ rest) =
      if (byteAt (BitVec.ofNat 56 n) 6).extractLsb' 5 3 = 0 then .ok (decodeTransaction (BitVec.ofNat 53 n), rest)
      else .error .beyondTransactionWord := by
  have hj := join_seven_bytes n _ rfl
  rw [bytesOfNat_eq_byteAt (w := 56) n (by decide)]
  simp only [List.range, List.range.loop, List.map_cons, List.map_nil, List.cons_append, List.nil_append, decodeBytes, hj]

/-- A transaction word has no bit above bit 52. -/
theorem transaction_top_bits (w : BitVec 53) : (byteAt (BitVec.ofNat 56 w.toNat) 6).extractLsb' 5 3 = 0 := by
  apply BitVec.eq_of_getLsbD_eq
  intro i hi
  have hge : w.getLsbD (48 + (5 + i)) = false := BitVec.getLsbD_of_ge _ _ (by omega)
  rw [BitVec.getLsbD_extractLsb', byteAt, BitVec.getLsbD_extractLsb', BitVec.getLsbD_ofNat]
  rw [BitVec.getLsbD] at hge
  simp [hge]

/-! ### The decoder and the encoder of transactions -/

/-- W, ADDR, STRB and DATA are all of a transaction word (R75). -/
theorem transactionWord_of_fields (w : BitVec 53) :
    transactionWord (w.getLsbD 52) (w.extractLsb' 36 16) (w.extractLsb' 32 4) (w.extractLsb' 0 32) = w := by
  apply BitVec.eq_of_getLsbD_eq
  intro i hi
  simp only [transactionWord, BitVec.getLsbD_append, BitVec.getLsbD_extractLsb']
  interval_cases i <;> simp

theorem decodeTransaction_transactionWord (write : Bool) (a : BitVec 16) (strb : BitVec 4) (d : Word) :
    decodeTransaction (transactionWord write a strb d) = if write then .wr a strb d else .rd a strb d := by
  obtain ⟨hw, ha, hs, hd⟩ := Laws.fields_of_word write a strb d
  rw [decodeTransaction, hw, ha, hs, hd]

/-- Settles O3: both kinds of transaction are encoded from the fields they were decoded into, W being the kind. -/
theorem transactionWordsComplete : Obligations.TransactionWordsComplete := by
  intro w
  have hfields := transactionWord_of_fields w
  unfold decodeTransaction
  cases hw : w.getLsbD 52 <;> rw [hw] at hfields <;> exact congrArg Encoded.transaction hfields

/-! ### Decoding undoes encoding -/

theorem decodeBytes_encoded_command {i : Instr} {w : BitVec 32} (h : encode i = .command w) (rest : List Byte) :
    decodeBytes (encode i).format ((encode i).toBytes ++ rest) = .ok (i, rest) := by
  have hw : BitVec.ofNat 32 w.toNat = w := by rw [BitVec.ofNat_toNat, BitVec.setWidth_eq]
  rw [h, Encoded.toBytes]
  refine (decodeBytes_command w.toNat rest).trans ?_
  rw [hw, decodeCommand_of_encode h]
  rfl

theorem decodeBytes_encoded_transaction {i : Instr} {w : BitVec 53} (h : encode i = .transaction w)
    (hi : decodeTransaction w = i) (rest : List Byte) :
    decodeBytes (encode i).format ((encode i).toBytes ++ rest) = .ok (i, rest) := by
  rw [h, Encoded.toBytes]
  refine (decodeBytes_transaction w.toNat rest).trans ?_
  rw [if_pos (transaction_top_bits w), BitVec.ofNat_toNat, BitVec.setWidth_eq, hi]

/-- Settles O1: a command word is decoded through the opcode map, which is the encoder read backwards; a transaction word
through its fields; and the bytes of either are put together to the word. -/
theorem decodeEncode : Obligations.DecodeEncode := by
  intro i rest
  have command {w : BitVec 32} (h : encode i = .command w) :
      decode (encode i) = .ok i ∧ decodeBytes (encode i).format ((encode i).toBytes ++ rest) = .ok (i, rest) :=
    ⟨by rw [h]; exact decodeCommand_of_encode h, decodeBytes_encoded_command h rest⟩
  have transaction {w : BitVec 53} (h : encode i = .transaction w) (hi : decodeTransaction w = i) :
      decode (encode i) = .ok i ∧ decodeBytes (encode i).format ((encode i).toBytes ++ rest) = .ok (i, rest) :=
    ⟨by rw [h]; exact congrArg Except.ok hi, decodeBytes_encoded_transaction h hi rest⟩
  cases i with
  | rd a strb d => exact transaction rfl (decodeTransaction_transactionWord false a strb d)
  | wr a strb d => exact transaction rfl (decodeTransaction_transactionWord true a strb d)
  | _ => exact command rfl

/-- Settles O5: each word decodes by evaluation. -/
theorem writtenOutWords : Obligations.WrittenOutWords := by
  unfold Obligations.WrittenOutWords
  decide

/-! ### Commands as writes to CMD -/

theorem exec_command_dropped {d : BitVec 32} {i : Instr} (h : decodeCommand d = .ok i) {s : State} (hb : s.busy = true) :
    exec i s = .next (dropWrite s) := by
  rw [← submitCommand_ok h]
  rcases submitCommand_cases d s with ⟨_, e⟩ | ⟨hidle, _⟩
  · exact e
  · cases hb.symm.trans hidle

/-- The host's write of a legal word to CMD is its command, busy or not (R78, R190). -/
theorem exec_wr_command {d : BitVec 32} {i : Instr} (h : decodeCommand d = .ok i) (s : State) :
    exec (.wr 0x000C 0xF d) s = exec i s := by
  cases hb : s.busy with
  | false => rw [exec_wr_cmd hb, submitCommand_ok h]
  | true => rw [exec_command_dropped h hb, exec_wr_dropped hb (by simp [wellFormedWrite, registerOffset])]

/-- Settles O8: while BUSY = 0 the write submits the word, while BUSY = 1 both are dropped. -/
theorem commandIsWriteToCmd : Obligations.CommandIsWriteToCmd := fun _ _ s h =>
  ⟨exec_wr_command h s, exec_command_dropped h⟩

/-! ### Steps that run a transaction -/

theorem step_host {s : State} {ht : BitVec 53} {rest : List Turn} (hr : s.rstN = true) (h : s.turns = .host ht :: rest) :
    step s = exec (decodeTransaction ht) { s with turns := rest } := by
  rw [step, h]
  exact if_pos hr

theorem step_engine_turn {s : State} {rest : List Turn} (h : s.turns = .engine :: rest) :
    step s = engineTurn { s with turns := rest } := by
  rw [step, h]
  rfl

/-- Settles O6: the agenda's head is taken off and run. -/
theorem stepRunsDecoded : Obligations.StepRunsDecoded := fun _ _ _ =>
  ⟨step_host, step_engine_turn, step_engine⟩

theorem step_withFetchWord (nbits w : Nat) (s : State) :
    step (s.withFetchWord nbits w) = exec (decodeTransaction (transactionOfTable nbits w)) { s with rstN := true } :=
  step_host rfl rfl

theorem decodeTableWord_command {nbits w : Nat} {i : Instr} (hf : formatOfBits nbits = .command)
    (h : decodeTableWord nbits w = some i) : decodeCommand (BitVec.ofNat 32 w) = .ok i := by
  have hb := decodeBytes_command w []
  rw [List.append_nil] at hb
  rw [decodeTableWord, hf, Format.bytes, hb] at h
  cases hd : decodeCommand (BitVec.ofNat 32 w) with
  | error e => rw [hd] at h; cases h
  | ok j =>
    rw [hd] at h
    simp only [Except.map] at h
    split_ifs at h
    cases h
    rfl

theorem decodeTableWord_transaction {nbits w : Nat} {i : Instr} (hf : formatOfBits nbits = .transaction)
    (h : decodeTableWord nbits w = some i) : decodeTransaction (BitVec.ofNat 53 w) = i := by
  have hb := decodeBytes_transaction w []
  rw [List.append_nil] at hb
  rw [decodeTableWord, hf, Format.bytes, hb] at h
  by_cases htop : (byteAt (BitVec.ofNat 56 w) 6).extractLsb' 5 3 = 0
  · rw [if_pos htop] at h
    dsimp only at h
    split_ifs at h
    cases h
    rfl
  · rw [if_neg htop] at h
    cases h

/-- Settles O7: a command word is issued as the data of a write to CMD, a transaction word as it is. -/
theorem stepRunsTableWord : Obligations.StepRunsTableWord := by
  intro nbits w i s h
  rw [step_withFetchWord, transactionOfTable]
  cases hf : formatOfBits nbits with
  | command =>
    dsimp only
    rw [decodeTransaction_transactionWord]
    exact exec_wr_command (decodeTableWord_command hf h) _
  | transaction =>
    dsimp only
    rw [decodeTableWord_transaction hf h]

end Sys2Proof.Machine
end

section
/-! What a host instruction and a step can do, said once with the word that does it (40_host_bus.md R90 to R96,
45_commands.md R190), and two consequences: a read answers, and a transaction does not disturb a running command. -/

namespace Sys2Proof.Machine

/-! ### The effect of a transaction -/

/-- The transaction by which the host issues an instruction (30_encoding.md R78). -/
def issued (i : Instr) : Instr :=
  match encode i with
  | .command d => .wr 0x000C 0xF d
  | .transaction _ => i

theorem exec_issued (i : Instr) (s : State) : exec (issued i) s = exec i s := by
  cases i with
  | rd | wr => rfl
  | _ => exact exec_wr_command (decodeCommand_of_encode rfl) s

theorem issued_decodeTransaction (ht : BitVec 53) : issued (decodeTransaction ht) = decodeTransaction ht := by
  unfold decodeTransaction
  split <;> rfl

/-- Everything a transaction can do. -/
inductive HostEffect (s : State) : Instr → State → Prop
  /-- A read, or an error response. -/
  | answered (i : Instr) (r : Response) : HostEffect s i (respond r s)
  /-- A write while BUSY = 1. -/
  | dropped (i : Instr) (busy : s.busy = true) : HostEffect s i (dropWrite s)
  | window (i : Instr) (o : Nat) (strb : BitVec 4) (d : Word) (idle : s.busy = false) :
    HostEffect s i (writeBuf o strb d s)
  | register (a : BitVec 16) (d : Word) (r : Reg) (idle : s.busy = false) (target : targetOf s.params a = .reg r)
    (noCmd : r ≠ .cmd) : HostEffect s (.wr a 0xF d) (respond (.write false) (writeReg d s r))
  /-- NOP, or an illegal word. -/
  | completed (d : Word) (o : CmdOutcome) (c : BitVec 32) (idle : s.busy = false)
    (word : decodeCommand d = .ok .nop ∨ ∃ e, decodeCommand d = .error e) :
    HostEffect s (.wr 0x000C 0xF d) (respond (.write false) (complete o (accept c s)))
  /-- A multi-step command. -/
  | accepted (d : Word) (c : BitVec 32) (idle : s.busy = false) :
    HostEffect s (.wr 0x000C 0xF d) (respond (.write false) (startCommand c s))

theorem submitCommand_effect {d : BitVec 32} {s t : State} (hb : s.busy = false) (h : submitCommand d s = .next t) :
    HostEffect s (.wr 0x000C 0xF d) t := by
  have start {k : BitVec 32} (g : submitWith (startCommand k) s = .next t) : HostEffect s (.wr 0x000C 0xF d) t := by
    cases (submitWith_idle hb).symm.trans g
    exact .accepted d k hb
  have illegal (hd : ∃ e, decodeCommand d = .error e) : HostEffect s (.wr 0x000C 0xF d) t := by
    rw [submitCommand_error hd] at h
    cases (submitWith_idle hb).symm.trans h
    exact .completed d .illegalCommand d hb (.inr hd)
  cases hd : decodeCommand d with
  | error e => exact illegal ⟨e, hd⟩
  | ok i =>
    have he := encode_of_decodeCommand hd
    rw [submitCommand_ok hd] at h
    cases i with
    | nop =>
      cases (exec_nop hb).symm.trans h
      exact .completed d .ok _ hb (.inl hd)
    | rd | wr => cases he
    | _ => exact start h

theorem execWr_effect {a : BitVec 16} {strb : BitVec 4} {d : Word} {s t : State} (h : execWr a strb d s = .next t) :
    HostEffect s (.wr a strb d) t := by
  unfold execWr at h
  cases htarget : targetOf s.params a with simp only [htarget] at h
  | error => cases h; exact .answered _ _
  | buf o =>
    split_ifs at h with hb <;> cases h
    · exact .dropped _ hb
    · exact .window _ o strb d (by simpa using hb)
  | reg r =>
    split_ifs at h with hstrb hb
    · cases h; exact .answered _ _
    · cases h; exact .dropped _ hb
    · have hidle : s.busy = false := by simpa using hb
      obtain rfl : strb = 0xF := not_not.mp hstrb
      unfold writeEffect at h
      split_ifs at h with hcmd
      · subst hcmd
        obtain rfl := targetOf_reg_injective htarget (targetOf_cmd _)
        exact submitCommand_effect hidle h
      · cases h
        exact .register a d r hidle htarget hcmd

/-- What exec does of an instruction is what its transaction can do. -/
theorem exec_effect {i : Instr} {s t : State} (h : exec i s = .next t) : HostEffect s (issued i) t := by
  rw [← exec_issued] at h
  generalize hj : issued i = j at h ⊢
  cases j with
  | rd a strb d => cases h; exact .answered _ _
  | wr a strb d => exact execWr_effect h
  | _ => cases i <;> cases hj

/-- A host turn out of reset does what its word's transaction can do. -/
theorem hostTurn_effect {ht : BitVec 53} {s t : State} (h : hostTurn ht s = .next t) :
    s.rstN = true ∧ HostEffect s (decodeTransaction ht) t := by
  unfold hostTurn at h
  split at h
  · exact ⟨‹_›, issued_decodeTransaction ht ▸ exec_effect h⟩
  · cases h

/-- The word of a full write. -/
theorem word_of_write {ht : BitVec 53} {a : BitVec 16} {d : Word} (h : decodeTransaction ht = .wr a 0xF d) :
    ht = transactionWord true a 0xF d := by
  have hword := transactionWordsComplete ht
  rw [h] at hword
  exact (Encoded.transaction.inj hword).symm

/-! ### The cases of a step -/

/-- A step that answers is a turn of the engine, a host's transaction out of reset, a fall or a rise of `rst_n`. -/
theorem step_cases {s t : State} (h : step s = .next t) :
    (engineNext s ∧ ∃ rest, engineTurn { s with turns := rest } = .next t) ∨
      (∃ ht rest, s.turns = .host ht :: rest ∧ HostEffect { s with turns := rest } (decodeTransaction ht) t) ∨
      (∃ rest, s.turns = .resetLow :: rest ∧ t = enterReset { s with turns := rest }) ∨
      ∃ rest, s.turns = .resetHigh :: rest ∧ t = leaveReset { s with turns := rest } := by
  unfold step at h
  cases hturns : s.turns with rw [hturns] at h
  | nil => exact .inl ⟨.inl hturns, [], hturns ▸ h⟩
  | cons turn rest =>
    cases turn with
    | host ht => exact .inr (.inl ⟨ht, rest, rfl, (hostTurn_effect h).2⟩)
    | engine => exact .inl ⟨.inr ⟨rest, hturns⟩, rest, h⟩
    | resetLow => cases h; exact .inr (.inr (.inl ⟨rest, rfl, rfl⟩))
    | resetHigh => cases h; exact .inr (.inr (.inr ⟨rest, rfl, rfl⟩))

/-! ### Reads -/

/-- Settles O9: the response is that of the target, whatever it is. -/
theorem rdCompletes : Obligations.RdCompletes := by
  intro s a
  suffices h : ∃ v e, readTarget s (targetOf s.params a) = .read v e by
    obtain ⟨v, e, hr⟩ := h
    exact ⟨v, e, fun strb d => congrArg (fun r => Host.Outcome.next (respond r s)) hr⟩
  cases targetOf s.params a <;> exact ⟨_, _, rfl⟩

/-- Byte `k` of a window word (20_memory.md R54). -/
theorem byteAt_bufWord (m : Buffer) (o : Nat) {k : Nat} (hk : k < 4) :
    (bufWord m o).extractLsb' (8 * k) 8 = bufGet m (o + k) := by
  have hbyte (b : Byte) : byteAt b 0 = b := BitVec.extractLsb'_eq_self
  change byteAt (bufWord m o) k = _
  unfold bufWord
  interval_cases k
  · rw [byteAt_append_low _ _ (by decide), byteAt_append_low _ _ (by decide), byteAt_append_low _ _ (by decide), hbyte]
    rfl
  · rw [byteAt_append_low _ _ (by decide), byteAt_append_low _ _ (by decide),
      byteAt_append_high _ _ (j := 1) rfl (by decide), hbyte]
  · rw [byteAt_append_low _ _ (by decide), byteAt_append_high _ _ (j := 2) rfl (by decide), hbyte]
  · rw [byteAt_append_high _ _ (j := 3) rfl (by decide), hbyte]

/-- Settles O13: the target of the offset is the window word there. -/
theorem readWindow : Obligations.ReadWindow := by
  intro s a o hb ha h4 ho
  have hr := readsAs_buf (targetOf_window (p := s.params) ha h4 ho)
  rw [hb] at hr
  exact ⟨_, hr, fun k hk => byteAt_bufWord s.buf o hk⟩

/-- Settles O16: the target of the offset is the window word there, and its write is `bufSetWord`. -/
theorem writeWindow : Obligations.WriteWindow := by
  intro s a strb d o hb ha h4 ho
  have htarget := targetOf_window (p := s.params) ha h4 ho
  have ⟨hsize, _⟩ := targetOf_buf htarget
  refine ⟨bufSetWord s.buf o strb d, ?_, fun k hk => bufGet_bufSetWord_at _ _ _ _ _ hk,
    fun b hb' => bufGet_bufSetWord_other _ _ _ _ _ hb', fun hw => bufSetWord_wf _ _ hw hsize⟩
  rw [show exec (.wr a strb d) s = execWr a strb d s from rfl, execWr, htarget]
  simp [hb, writeBuf, respond]

end Sys2Proof.Machine
end

section
/-! The invariant over every turn of the agenda (Safety.lean, `Inv`), reset included (70_reset_and_hazards.md R260, R261),
and that a step of a state with the invariant answers. -/

namespace Sys2Proof.Machine

/-! ### Reset and the agenda -/

/-- The registers and the hidden registers at their reset values (10_state.md R40), whatever the model's own fields
hold. -/
theorem reset_values_inv {p : Params} (hp : p.wf = true) (r : Bool) (n : Nat) (turns : List Turn) (answers : List Bool)
    (calls resets : Nat) :
    Inv { State.reset with
      params := p
      rstN := r
      buf := { base := .drawn n, cells := [] }
      turns := turns
      answers := answers
      calls := calls
      resets := resets } where
  params_wf := hp
  buf_wf := drawnBuf_wf _ n
  busy_iff := iff_of_false (by simp [State.busy, State.reset]) (by simp [State.reset])
  reset_idle _ := rfl
  idle_zero _ := ⟨rfl, rfl, rfl, rfl, rfl, rfl, rfl⟩
  phase_fits := rfl
  regions_fit h := absurd rfl h
  request_fits := .inl rfl
  done_idle _ := by simp [State.busy, State.reset]
  busy_no_outcome _ := by simp [State.outcomeBits, State.reset]
  one_outcome := .inl (by simp [State.outcomeBits, State.reset])
  esub_short _ := by simp [State.reset]
  dke_short _ := by simp [State.reset]
  release_verified h := absurd h (by simp [State.reset])

/-- Settles O43: the state after reset is one of those with every register at its reset value. -/
theorem invAtReset : Obligations.InvAtReset :=
  reset_values_inv (by decide) true 0 [] [] 0 0

theorem enterReset_inv {s : State} (h : Inv s) : Inv (enterReset s) := by
  unfold enterReset
  split
  · exact reset_values_inv h.params_wf false _ _ _ _ _
  · exact h

/-- The invariant does not speak of the agenda. -/
theorem Inv.with_turns {s : State} (h : Inv s) (rest : List Turn) : Inv { s with turns := rest } := { h with }

/-- The end of a reset starts no command. -/
theorem leaveReset_inv {s : State} (h : Inv s) : Inv (leaveReset s) := { h with reset_idle := nofun }

theorem takeTurn_inv {t : Turn} {s u : State} (h : Inv s) (e : takeTurn t s = .next u) : Inv u := by
  cases t with
  | host ht => exact hostTurn_inv h e
  | engine => exact engineTurn_inv h e
  | resetLow => cases e; exact enterReset_inv h
  | resetHigh => cases e; exact leaveReset_inv h

/-- Settles O44: every turn keeps the invariant, and taking it off the agenda does. -/
theorem stepKeepsInv : Obligations.StepKeepsInv := by
  intro s t h e
  unfold step at e
  split at e
  · exact engineTurn_inv h e
  · exact takeTurn_inv (h.with_turns _) e

/-! ### Turns that answer -/

theorem execWr_answers (a : BitVec 16) (strb : BitVec 4) (d : Word) (s : State) : ∃ t, execWr a strb d s = .next t := by
  rcases execWr_cases a strb d s with e | ⟨_, e⟩ | ⟨_, e⟩ | ⟨_, r, _, e⟩ | ⟨_, o, _, e⟩
  · exact ⟨_, e⟩
  · exact ⟨_, e⟩
  · rcases submitCommand_cases d s with ⟨_, g⟩ | ⟨_, ⟨o, c, g⟩ | ⟨c, _, g⟩⟩ <;> exact ⟨_, e.trans g⟩
  · exact ⟨_, e⟩
  · exact ⟨_, e⟩

theorem exec_answers (i : Instr) (s : State) : ∃ t, exec i s = .next t := by
  rw [← exec_issued]
  cases i with
  | rd a strb d => exact ⟨_, rfl⟩
  | wr a strb d => exact execWr_answers a strb d s
  | _ => exact execWr_answers 0x000C 0xF _ s

theorem absorbChunk_answers {off len i : Nat} {p : Phase} {s : State} (hi : 16 * i < len)
    (h : off + len ≤ s.params.bufBytes) : ∃ t, absorbChunk off len i p s = .next t := by
  rcases absorbChunk_cases off len i p s with ⟨_, e⟩ | ⟨hout, _⟩
  · exact ⟨_, e⟩
  · exact absurd (chunk_le hi h) (by omega)

theorem sequencerStep_answers {s : State} (h : Inv s) : ∃ t, sequencerStep s = .next t := by
  have hf := h.phase_fits
  unfold phaseFits at hf
  unfold sequencerStep
  cases hp : s.phase with rw [hp] at hf
  | hashingAad i =>
    have hop : s.opc = 0x01 ∨ s.opc = 0x02 ∨ s.opc = 0x04 := by simpa [phaseOf, or_assoc] using hf
    obtain ⟨haad, _, _⟩ := h.region_bounds (by simp [hp]) (by simp [hp]) hop
    dsimp only
    unfold hashAadStep
    split
    · exact absorbChunk_answers ‹_› haad
    · exact ⟨_, rfl⟩
  | hashingMsg i =>
    have hop : s.opc = 0x01 ∨ s.opc = 0x04 := by simpa [phaseOf] using hf
    obtain ⟨_, hmsg, _⟩ := h.region_bounds (by simp [hp]) (by simp [hp]) (hop.imp_right .inr)
    dsimp only
    unfold hashMsgStep
    split
    · exact absorbChunk_answers ‹_› hmsg
    · exact ⟨_, rfl⟩
  | _ => exact ⟨_, rfl⟩

/-- A call of a keystream position is outstanding only while a chunk is left (44_ctr_keystream.md R172). -/
theorem chunk_left_of_request {s : State} {r : BcRequest} (h : Inv s) (hq : s.bcReq = some r)
    (hp : s.phase = .decPass1 .block ∨ s.phase = .keystream .block) : 16 * s.blk.toNat < s.msgLen.toNat := by
  have hw := h.request_fits
  rw [hq] at hw
  by_contra hlt
  rcases hp with hp | hp <;> simp [wantedRequest, requestOf, hp, requestOfCtr, hlt] at hw

/-- The answer to an outstanding request is taken: the chunk it is for lies in BUF (20_memory.md R52, 45_commands.md
R194). -/
theorem takeAnswer_answers {s : State} {r : BcRequest} (h : Inv s) (hq : s.bcReq = some r) (y : Block) :
    ∃ t, takeAnswer y (endCall s) = .next t := by
  have hf := h.phase_fits
  have ⟨hi, hst⟩ := h.request_busy hq
  unfold phaseFits at hf
  unfold takeAnswer
  rw [endCall_phase]
  cases hp : s.phase with rw [hp] at hf
  | decPass1 c =>
    cases c with
    | init | absorb => exact ⟨_, rfl⟩
    | block =>
      have hop : s.opc = 0x02 := by simpa [phaseOf] using hf
      obtain ⟨_, hmsg, _⟩ := h.region_bounds hi hst (.inr (.inl hop))
      have hmem := chunk_le (chunk_left_of_request h hq (.inl hp)) hmsg
      rcases ctrPass1_cases y (endCall s) with ⟨_, e⟩ | ⟨hout, _⟩
      · exact ⟨_, e⟩
      · exact absurd hmem (Nat.not_le_of_lt hout)
  | tagging u => cases u <;> exact ⟨_, rfl⟩
  | keystream c =>
    cases c with
    | init | absorb => exact ⟨_, rfl⟩
    | block =>
      have hop : s.opc = 0x01 ∨ s.opc = 0x02 := by simpa [phaseOf, keystreamPosition] using hf
      obtain ⟨_, hmsg, hout⟩ := h.region_bounds hi hst (hop.imp_right .inl)
      have hleft := chunk_left_of_request h hq (.inr hp)
      rcases ctrWrite_cases y (endCall s) with ⟨_, _, e⟩ | ⟨hfar | hfar, _⟩
      · exact ⟨_, e⟩
      · exact absurd (chunk_le hleft hmsg) (Nat.not_le_of_lt hfar)
      · exact absurd (chunk_le hleft (hout (by rcases hop with ho | ho <;> rw [ho] <;> decide))) (Nat.not_le_of_lt hfar)
  | _ => exact ⟨_, rfl⟩

theorem engineTurn_answers {s : State} (h : Inv s) : ∃ t, engineTurn s = .next t := by
  unfold engineTurn
  split
  · split
    case h_1 r hq =>
      unfold portAnswer
      split
      · exact ⟨_, rfl⟩
      · exact takeAnswer_answers h hq _
    case h_2 => exact sequencerStep_answers h
  · exact ⟨_, rfl⟩

/-- A host transaction in reset is refused (log entry 9). -/
theorem step_host_in_reset {s : State} {ht : BitVec 53} {rest : List Turn} (hr : s.rstN = false)
    (h : s.turns = .host ht :: rest) : step s = .refused .transactionInReset := by
  rw [step, h]
  exact if_neg (by simp [hr])

/-- Settles O45: every turn answers but the host's in reset. -/
theorem stepAnswers : Obligations.StepAnswers := by
  intro s h
  cases hturns : s.turns with
  | nil => rw [step_engine hturns]; exact .inl (engineTurn_answers h)
  | cons turn rest =>
    cases turn with
    | host ht =>
      cases hr : s.rstN with
      | true => rw [step_host hr hturns]; exact .inl (exec_answers _ _)
      | false => exact .inr ⟨step_host_in_reset hr hturns, rfl, ht, rest, rfl⟩
    | engine => rw [step_engine_turn hturns]; exact .inl (engineTurn_answers (h.with_turns rest))
    | resetLow | resetHigh => rw [step, hturns]; exact .inl ⟨_, rfl⟩

/-! ### Reset, turn by turn -/

theorem step_resetLow {s : State} {rest : List Turn} (h : s.turns = .resetLow :: rest) :
    step s = .next (enterReset { s with turns := rest }) := by
  rw [step, h]
  rfl

theorem step_resetHigh {s : State} {rest : List Turn} (h : s.turns = .resetHigh :: rest) :
    step s = .next { s with rstN := true, turns := rest } := by
  rw [step, h]
  rfl

/-- In reset the engine does nothing (R260). -/
theorem engineTurn_in_reset {s : State} (hr : s.rstN = false) : engineTurn s = .next s := by
  simp [engineTurn, hr]

theorem HeldInReset.with_turns {s : State} (h : HeldInReset s) (rest : List Turn) :
    HeldInReset { s with turns := rest } := by
  intro hr
  conv_lhs => rw [h hr]

theorem HeldInReset.of_released {s : State} (hr : s.rstN = true) : HeldInReset s :=
  fun h => absurd (hr.symm.trans h) (by decide)

theorem enterReset_heldInReset {s : State} (h : HeldInReset s) : HeldInReset (enterReset s) := by
  unfold enterReset
  split
  · exact fun _ => rfl
  · exact h

theorem engineTurn_heldInReset {s t : State} (h : HeldInReset s) (e : engineTurn s = .next t) : HeldInReset t := by
  intro hr
  have ⟨_, hkept, _⟩ := engineTurn_kept e
  have hs : s.rstN = false := hkept.symm.trans hr
  cases (engineTurn_in_reset hs).symm.trans e
  exact h hr

/-- No host transaction changes `rst_n`. -/
theorem HostEffect.rstN {s t : State} {i : Instr} (h : HostEffect s i t) : t.rstN = s.rstN := by
  cases h with
  | register a d r _ _ _ =>
    obtain ⟨_, _, hr, _⟩ := writeReg_kept d s r
    exact hr
  | _ => rfl

theorem step_heldInReset {s t : State} (h : HeldInReset s) (e : step s = .next t) : HeldInReset t := by
  cases hturns : s.turns with
  | nil => exact engineTurn_heldInReset h ((step_engine hturns).symm.trans e)
  | cons turn rest =>
    cases turn with
    | host ht =>
      cases hr : s.rstN with
      | true => exact .of_released ((exec_effect ((step_host hr hturns).symm.trans e)).rstN.trans hr)
      | false => cases (step_host_in_reset hr hturns).symm.trans e
    | engine => exact engineTurn_heldInReset (h.with_turns rest) ((step_engine_turn hturns).symm.trans e)
    | resetLow => cases (step_resetLow hturns).symm.trans e; exact enterReset_heldInReset (h.with_turns rest)
    | resetHigh => cases (step_resetHigh hturns).symm.trans e; exact .of_released rfl

/-- Settles O55: each turn as its equation says, and a step lemma for the values held in reset. -/
theorem resetTurns : Obligations.ResetTurns := by
  refine fun s rest => ⟨fun hr h => ?_, fun hr h => ?_, step_resetHigh, fun ht => step_host_in_reset,
    .of_released rfl, fun t => step_heldInReset⟩
  · rw [step_resetLow h, enterReset, if_pos hr]
  · rw [step_engine_turn h]
    exact engineTurn_in_reset hr

end Sys2Proof.Machine
end

section
/-! What a host transaction may not tell apart (10_state.md sections 4 and 5, 40_host_bus.md R93, R96), and what a
running command may not notice of it (20_memory.md R61). -/

namespace Sys2Proof.Machine

/-! ### KEY, HKEY and the hidden registers stay hidden -/

/-- A state with everything blotted out that `SameButSecret` leaves open. -/
def visible (s : State) : State :=
  { s with
    key := 0
    hkey := 0
    acc := 0
    hsub := 0
    esub := 0
    cb0 := 0
    blk := 0
    tcalc := 0
    opc := 0
    opF := false
    optKsz := false
    optNprof := false
    phase := .idle
    rt := 0
    bcReq := none }

theorem sameButSecret_iff {s t : State} : SameButSecret s t ↔ visible s = visible t := by
  refine ⟨fun h => ?_, fun h => ?_⟩
  · have ht : t = _ := h
    rw [ht]
    rfl
  · have ht : t = { visible t with
        key := t.key, hkey := t.hkey, acc := t.acc, hsub := t.hsub, esub := t.esub, cb0 := t.cb0, blk := t.blk,
        tcalc := t.tcalc, opc := t.opc, opF := t.opF, optKsz := t.optKsz, optNprof := t.optNprof, phase := t.phase,
        rt := t.rt, bcReq := t.bcReq } := rfl
    rw [← h] at ht
    exact ht

/-- What is visible of the outcome is a function of what was visible. -/
def VisiblyDetermined (f : State → Result) : Prop :=
  ∀ s t, f s = .next t → ∃ u, f (visible s) = .next u ∧ visible u = visible t

theorem VisiblyDetermined.total {k : State → State} (h : ∀ s, visible (k (visible s)) = visible (k s)) :
    VisiblyDetermined fun s => .next (k s) := by
  intro s t e
  cases e
  exact ⟨_, rfl, h s⟩

theorem submitWith_visible {k : State → State} (h : ∀ s, visible (k (visible s)) = visible (k s)) :
    VisiblyDetermined (submitWith k) := by
  intro s t e
  cases hb : s.busy with
  | true => cases (submitWith_busy hb).symm.trans e; exact ⟨_, submitWith_busy (s := visible s) hb, rfl⟩
  | false =>
    cases (submitWith_idle hb).symm.trans e
    exact ⟨_, submitWith_idle (s := visible s) hb, congrArg (respond (.write false)) (h s)⟩

theorem submitCommand_visible (d : BitVec 32) : VisiblyDetermined (submitCommand d) := by
  have start (c : BitVec 32) : VisiblyDetermined (submitWith (startCommand c)) := submitWith_visible fun _ => rfl
  have illegal : VisiblyDetermined (illegalCommand d) := submitWith_visible fun _ => rfl
  unfold submitCommand
  cases decodeCommand d with
  | error => exact illegal
  | ok i =>
    cases i with
    | nop => exact submitWith_visible fun _ => rfl
    | rd | wr => exact illegal
    | _ => exact start _

theorem readReg_visible (s : State) (r : Reg) : readReg (visible s) r = readReg s r := by cases r <;> rfl

theorem writeReg_visible (d : Word) (r : Reg) (s : State) :
    visible (writeReg d (visible s) r) = visible (writeReg d s r) := by cases r <;> rfl

theorem execRd_visible (a : BitVec 16) (strb : BitVec 4) (d : Word) : VisiblyDetermined (execRd a strb d) := by
  refine .total fun s => ?_
  have hr : readTarget (visible s) (targetOf s.params a) = readTarget s (targetOf s.params a) := by
    cases targetOf s.params a with
    | error | buf => rfl
    | reg r => simp only [readTarget, readReg_visible]; rfl
  exact congrArg (fun r => respond r (visible s)) hr

theorem execWr_visible (a : BitVec 16) (strb : BitVec 4) (d : Word) : VisiblyDetermined (execWr a strb d) := by
  intro s t e
  have hp : (visible s).params = s.params := rfl
  have hb : (visible s).busy = s.busy := rfl
  unfold execWr at e ⊢
  rw [hp, hb]
  cases htarget : targetOf s.params a with simp only [htarget] at e ⊢
  | error => cases e; exact ⟨_, rfl, rfl⟩
  | buf o => split_ifs at e ⊢ <;> cases e <;> exact ⟨_, rfl, rfl⟩
  | reg r =>
    split_ifs at e ⊢
    · cases e; exact ⟨_, rfl, rfl⟩
    · cases e; exact ⟨_, rfl, rfl⟩
    · unfold writeEffect at e ⊢
      split_ifs at e ⊢
      · exact submitCommand_visible d s t e
      · cases e; exact ⟨_, rfl, congrArg (respond (.write false)) (writeReg_visible d r s)⟩

theorem exec_visible (i : Instr) : VisiblyDetermined (exec i) := by
  intro s t e
  rw [← exec_issued] at e ⊢
  cases i with
  | rd a strb d => exact execRd_visible a strb d s t e
  | wr a strb d => exact execWr_visible a strb d s t e
  | _ => exact execWr_visible 0x000C 0xF _ s t e

/-- Settles O58: the visible part of the outcome is determined by the visible part of the state, in which the two states
agree. -/
theorem secretsStayHidden : Obligations.SecretsStayHidden := by
  intro s s' t t' i hs ht ht'
  rw [sameButSecret_iff] at hs ⊢
  obtain ⟨u, hu, hut⟩ := exec_visible i s t ht
  obtain ⟨u', hu', hut'⟩ := exec_visible i s' t' ht'
  rw [hs] at hu
  cases hu.symm.trans hu'
  exact hut.symm.trans hut'

/-! ### Responses while BUSY = 1 -/

/-- The parameters, CTRL and STATUS, and nothing else. -/
def busyView (s : State) : State := { State.reset with params := s.params, ctrl := s.ctrl, status := s.status }

theorem readTarget_busy {s : State} (hb : s.busy = true) (g : Target) :
    readTarget s g = readTarget (busyView s) g := by
  have hb' : (busyView s).busy = true := hb
  cases g with
  | error => rfl
  | buf o => simp [readTarget, hb, hb']
  | reg r => simp only [readTarget, hb, hb']; cases r <;> rfl

theorem execWr_resp_busy {a : BitVec 16} {strb : BitVec 4} {d : Word} {s t : State} (hb : s.busy = true)
    (h : execWr a strb d s = .next t) : ∃ u, execWr a strb d (busyView s) = .next u ∧ u.resp = t.resp := by
  have hb' : (busyView s).busy = true := hb
  have hp : (busyView s).params = s.params := rfl
  unfold execWr at h ⊢
  rw [hp]
  cases htarget : targetOf s.params a with simp only [htarget] at h ⊢
  | error => cases h; exact ⟨_, rfl, rfl⟩
  | buf o => rw [if_pos hb] at h; rw [if_pos hb']; cases h; exact ⟨_, rfl, rfl⟩
  | reg r =>
    rw [if_pos hb] at h
    rw [if_pos hb']
    split_ifs at h ⊢ <;> cases h <;> exact ⟨_, rfl, rfl⟩

/-- While BUSY = 1 the response depends on the parameters, CTRL and STATUS only (R96). -/
theorem exec_resp_busy {s t : State} {i : Instr} (hb : s.busy = true) (h : exec i s = .next t) :
    ∃ u, exec i (busyView s) = .next u ∧ u.resp = t.resp := by
  rw [← exec_issued] at h ⊢
  cases i with
  | rd a strb d => cases h; exact ⟨_, rfl, (readTarget_busy hb _).symm⟩
  | wr a strb d => exact execWr_resp_busy hb h
  | _ => exact execWr_resp_busy (a := 0x000C) (strb := 0xF) hb h

/-- Settles O57: both responses are that of a state with the same parameters, CTRL and STATUS. -/
theorem busyHides : Obligations.BusyHides := by
  intro s s' t t' i hb hp hc hst ht ht'
  have hb' : s'.busy = true := (State.busy_congr hst.symm).trans hb
  have hview : busyView s = busyView s' := by rw [busyView, hp, hc, hst]; rfl
  obtain ⟨u, hu, hresp⟩ := exec_resp_busy hb ht
  obtain ⟨u', hu', hresp'⟩ := exec_resp_busy hb' ht'
  rw [hview] at hu
  cases hu.symm.trans hu'
  exact hresp.symm.trans hresp'

/-! ### The engine's turn after a transaction -/

/-- A state with these STATUS bits set and this response: what a transaction while BUSY = 1 leaves. -/
def transacted (e : BitVec 8) (r : Response) (s : State) : State := { s with status := s.status ||| e, resp := r }

/-- Nothing, or ERR_BUSY. -/
def busyBits (e : BitVec 8) : Prop := e = 0 ∨ e = 0x80

theorem statusCompleted_busyBits {e : BitVec 8} (he : busyBits e) (o : CmdOutcome) (st : BitVec 8) :
    statusCompleted o (st ||| e) = statusCompleted o st ||| e := by
  rcases he with rfl | rfl <;> cases o <;> (revert st; decide)

section
variable {e : BitVec 8} (he : busyBits e) (r : Response) (s : State)
include he

theorem complete_transacted (o : CmdOutcome) : complete o (transacted e r s) = transacted e r (complete o s) := by
  have hst : statusCompleted o (transacted e r s).status = statusCompleted o s.status ||| e :=
    statusCompleted_busyBits he o s.status
  rw [complete, hst]
  rfl

theorem startAead_transacted : startAead (transacted e r s) = transacted e r (startAead s) := by
  simp only [startAead, apply_ite (transacted e r), complete_transacted he]
  rfl

theorem startHash_transacted : startHash (transacted e r s) = transacted e r (startHash s) := by
  simp only [startHash, apply_ite (transacted e r), complete_transacted he]
  rfl

theorem startStep_transacted : startStep (transacted e r s) = transacted e r (startStep s) := by
  simp only [startStep, apply_ite (transacted e r), complete_transacted he, startAead_transacted he,
    startHash_transacted he]
  rfl

theorem keyedStep_transacted : keyedStep (transacted e r s) = transacted e r (keyedStep s) := by
  simp only [keyedStep, apply_ite (transacted e r), ← complete_transacted he]
  rfl

theorem compareStep_transacted : compareStep (transacted e r s) = transacted e r (compareStep s) := by
  simp only [compareStep, apply_ite (transacted e r), complete_transacted he]
  rfl

theorem keystreamStep_transacted (c : CtrStep) :
    keystreamStep c (transacted e r s) = transacted e r (keystreamStep c s) := by
  cases c with
  | init | absorb => rfl
  | block =>
    simp only [keystreamStep, keystreamEnd, apply_ite (transacted e r), ← complete_transacted he]
    rfl

end

theorem hashMsgEnd_transacted (e : BitVec 8) (r : Response) (s : State) :
    hashMsgEnd (transacted e r s) = transacted e r (hashMsgEnd s) := by
  simp only [hashMsgEnd, apply_ite (transacted e r)]
  rfl

theorem decPass1Step_transacted (e : BitVec 8) (r : Response) (c : CtrStep) (s : State) :
    decPass1Step c (transacted e r s) = transacted e r (decPass1Step c s) := by
  cases c with
  | init | absorb => rfl
  | block =>
    simp only [decPass1Step, apply_ite (transacted e r)]
    rfl

theorem absorbChunk_transacted (e : BitVec 8) (r : Response) {off len i : Nat} {p : Phase} {s u : State}
    (h : absorbChunk off len i p s = .next u) :
    absorbChunk off len i p (transacted e r s) = .next (transacted e r u) := by
  unfold absorbChunk at h ⊢
  have hread : memRead (transacted e r s) (off + 16 * i) (chunkLen len i) = memRead s (off + 16 * i) (chunkLen len i) :=
    rfl
  rw [hread]
  split at h <;> cases h
  rfl

theorem sequencerStep_transacted {e : BitVec 8} (he : busyBits e) (r : Response) {s u : State}
    (h : sequencerStep s = .next u) : sequencerStep (transacted e r s) = .next (transacted e r u) := by
  have hp : (transacted e r s).phase = s.phase := rfl
  have haad : (transacted e r s).aadLen = s.aadLen := rfl
  have hmsg : (transacted e r s).msgLen = s.msgLen := rfl
  unfold sequencerStep at h ⊢
  rw [hp]
  cases hphase : s.phase with simp only [hphase] at h ⊢
  | idle => cases h; rfl
  | started => cases h; rw [startStep_transacted he]
  | derivingKeys i ys => cases h; rfl
  | keyed => cases h; rw [keyedStep_transacted he]
  | hashingAad i =>
    unfold hashAadStep at h ⊢
    rw [haad]
    by_cases hleft : 16 * i < s.aadLen.toNat
    · rw [if_pos hleft] at h ⊢; exact absorbChunk_transacted e r h
    · rw [if_neg hleft] at h ⊢; cases h; rfl
  | hashingMsg i =>
    unfold hashMsgStep at h ⊢
    rw [hmsg]
    split_ifs at h ⊢
    · exact absorbChunk_transacted e r h
    · cases h; rw [hashMsgEnd_transacted]
  | hashed => cases h; exact congrArg Host.Outcome.next (complete_transacted he r { s with result := s.acc } .ok)
  | decPass1 c => cases h; rw [decPass1Step_transacted]
  | tagging u => cases h; cases u <;> rfl
  | comparing => cases h; rw [compareStep_transacted he]
  | keystream c => cases h; rw [keystreamStep_transacted he]
  | clearing => cases h; exact congrArg Host.Outcome.next (complete_transacted he r (clearAll s) .ok)

theorem ctrPass1_transacted (e : BitVec 8) (r : Response) {y : Block} {s u : State} (h : ctrPass1 y s = .next u) :
    ctrPass1 y (transacted e r s) = .next (transacted e r u) := by
  rcases ctrPass1_cases y s with ⟨_, g⟩ | ⟨_, g⟩ <;> cases g.symm.trans h
  rcases ctrPass1_cases y (transacted e r s) with ⟨_, g'⟩ | ⟨hout, _⟩
  · exact g'
  · exact absurd ‹_ ≤ s.params.bufBytes› (Nat.not_le_of_lt hout)

theorem ctrWrite_transacted (e : BitVec 8) (r : Response) {y : Block} {s u : State} (h : ctrWrite y s = .next u) :
    ctrWrite y (transacted e r s) = .next (transacted e r u) := by
  rcases ctrWrite_cases y s with ⟨hmsg, hout, g⟩ | ⟨_, _, g⟩ <;> cases g.symm.trans h
  rcases ctrWrite_cases y (transacted e r s) with ⟨_, _, g'⟩ | ⟨hfar | hfar, _⟩
  · exact g'
  · exact absurd hmsg (Nat.not_le_of_lt hfar)
  · exact absurd hout (Nat.not_le_of_lt hfar)

theorem takeAnswer_transacted (e : BitVec 8) (r : Response) {y : Block} {s u : State} (h : takeAnswer y s = .next u) :
    takeAnswer y (transacted e r s) = .next (transacted e r u) := by
  have hp : (transacted e r s).phase = s.phase := rfl
  unfold takeAnswer at h ⊢
  rw [hp]
  cases hphase : s.phase with simp only [hphase] at h ⊢
  | decPass1 c =>
    cases c with
    | init | absorb => cases h; rfl
    | block => exact ctrPass1_transacted e r h
  | tagging v => cases v <;> cases h <;> rfl
  | keystream c =>
    cases c with
    | init | absorb => cases h; rfl
    | block => exact ctrWrite_transacted e r h
  | _ => cases h; rfl

/-- No micro-step reads ERR_BUSY or the response. -/
theorem engineTurn_transacted {e : BitVec 8} (he : busyBits e) (r : Response) {s u : State}
    (h : engineTurn s = .next u) : engineTurn (transacted e r s) = .next (transacted e r u) := by
  have hr : (transacted e r s).rstN = s.rstN := rfl
  have hq : (transacted e r s).bcReq = s.bcReq := rfl
  unfold engineTurn at h ⊢
  rw [hr, hq]
  split_ifs at h ⊢
  · cases hreq : s.bcReq with simp only [hreq] at h ⊢
    | none => exact sequencerStep_transacted he r h
    | some q =>
      have hfails : nextFails (transacted e r s) = nextFails s := rfl
      unfold portAnswer at h ⊢
      rw [hfails]
      split_ifs at h ⊢
      · cases h
        exact congrArg Host.Outcome.next (complete_transacted he r (endCall s) .primitiveFailure)
      · exact takeAnswer_transacted e r h
  · cases h; rfl

/-- While BUSY = 1 a transaction answers or is dropped. -/
theorem HostEffect.transacted {s t : State} {i : Instr} (h : HostEffect s i t) (hb : s.busy = true) :
    ∃ e, t = transacted e t.resp s ∧ busyBits e := by
  have busy {P : Prop} (hidle : s.busy = false) : P := absurd (hb.symm.trans hidle) (by decide)
  cases h with
  | answered _ r =>
    have hst : s.status ||| 0 = s.status := BitVec.or_zero
    refine ⟨0, ?_, .inl rfl⟩
    rw [Machine.transacted, hst]
    rfl
  | dropped _ _ => exact ⟨0x80, rfl, .inr rfl⟩
  | window _ _ _ _ hidle | register _ _ _ hidle _ _ | completed _ _ _ hidle _ | accepted _ _ hidle => exact busy hidle

/-- ERR_BUSY as a transaction leaves it, for a state that has kept it. -/
theorem errBusy_kept_or_set {e st st' : BitVec 8} (he : busyBits e) (hkept : st'.getLsbD 7 = st.getLsbD 7) :
    st' ||| ((st ||| e) &&& 0x80) = st' ||| e := by
  have hmask : ∀ x : BitVec 8, x &&& 0x80 = if x.getLsbD 7 then 0x80 else 0 := by decide
  have hset : ∀ x : BitVec 8, x.getLsbD 7 = true → x ||| 0x80 = x := by decide
  have hzero (x : BitVec 8) : x ||| 0 = x := BitVec.or_zero
  rcases he with rfl | rfl
  · rw [hzero, hzero, hmask, ← hkept]
    split
    · exact hset _ ‹_›
    · exact hzero _
  · rw [hmask, BitVec.getLsbD_or]
    simp

/-- Settles O18: the transaction answers or is dropped, and the engine's turn reads neither ERR_BUSY nor the response. -/
theorem busyTransactionsDoNotDisturb : Obligations.BusyTransactionsDoNotDisturb := by
  intro s t i hb h
  obtain ⟨e, ht, he⟩ := (exec_effect h).transacted hb
  refine ⟨⟨e, ht, he⟩, fun u hu => ?_⟩
  have hst : t.status = s.status ||| e := congrArg State.status ht
  have hkept : u.errBusy = s.errBusy := (engineTurn_status hu).errBusy
  rw [hst, errBusy_kept_or_set he hkept]
  conv_lhs => rw [ht]
  exact engineTurn_transacted he t.resp hu

end Sys2Proof.Machine
end

section
/-! Which steps change the input registers (10_state.md section 9), the outputs (section 4), DONE and `irq`
(60_exceptions.md section 3): the cases of a step, each with what it leaves. -/

namespace Sys2Proof.Machine

/-! ### The offsets of register groups -/

theorem offset_of_nonce {p : Params} {a : BitVec 16} {j : Fin 4} (h : targetOf p a = .reg (.nonce j)) :
    0x0030 ≤ a.toNat ∧ a.toNat ≤ 0x003C := by
  have hmap : ∀ e ∈ regMap, ∀ j : Fin 4, e.2 = .nonce j → 0x0030 ≤ e.1 ∧ e.1 ≤ 0x003C := by decide
  exact hmap _ (targetOf_reg_mem h) j rfl

theorem offset_of_tag {p : Params} {a : BitVec 16} {j : Fin 4} (h : targetOf p a = .reg (.tag j)) :
    0x0070 ≤ a.toNat ∧ a.toNat ≤ 0x007C := by
  have hmap : ∀ e ∈ regMap, ∀ j : Fin 4, e.2 = .tag j → 0x0070 ≤ e.1 ∧ e.1 ≤ 0x007C := by decide
  exact hmap _ (targetOf_reg_mem h) j rfl

/-! ### The inputs -/

/-- The offset of CTRL, a region register or a word of NONCE. -/
def inputOffset (a : BitVec 16) : Prop :=
  a = 0x0008 ∨ a = 0x0018 ∨ a = 0x001C ∨ a = 0x0020 ∨ a = 0x0024 ∨ a = 0x0028 ∨
    (0x0030 ≤ a.toNat ∧ a.toNat ≤ 0x003C)

theorem writeReg_inputs {p : Params} {a : BitVec 16} {r : Reg} (h : targetOf p a = .reg r) (d : Word) (s : State) :
    SameInputs s (writeReg d s r) ∨ inputOffset a := by
  cases r with
  | ctrl => exact .inr (.inl (targetOf_reg_injective h (targetOf_ctrl p)))
  | aadOff => exact .inr (.inr (.inl (targetOf_reg_injective h (targetOf_aadOff p))))
  | aadLen => exact .inr (.inr (.inr (.inl (targetOf_reg_injective h (targetOf_aadLen p)))))
  | msgOff => exact .inr (.inr (.inr (.inr (.inl (targetOf_reg_injective h (targetOf_msgOff p))))))
  | msgLen => exact .inr (.inr (.inr (.inr (.inr (.inl (targetOf_reg_injective h (targetOf_msgLen p)))))))
  | outOff => exact .inr (.inr (.inr (.inr (.inr (.inr (.inl (targetOf_reg_injective h (targetOf_outOff p))))))))
  | nonce j => exact .inr (.inr (.inr (.inr (.inr (.inr (.inr (offset_of_nonce h)))))))
  | _ => exact .inl ⟨rfl, rfl, rfl, rfl, rfl, rfl, rfl⟩

theorem HostEffect.inputs {s t : State} {i : Instr} (h : HostEffect s i t) :
    t.params = s.params ∧
      (SameInputs s t ∨ ∃ a d, i = .wr a 0xF d ∧ s.busy = false ∧ inputOffset a) := by
  cases h with
  | register a d r hidle htarget _ =>
    obtain ⟨hparams, _⟩ := writeReg_kept d s r
    exact ⟨hparams, (writeReg_inputs htarget d s).imp id fun ha => ⟨a, d, rfl, hidle, ha⟩⟩
  | _ => exact ⟨rfl, .inl ⟨rfl, rfl, rfl, rfl, rfl, rfl, rfl⟩⟩

theorem enterReset_params (s : State) : (enterReset s).params = s.params := by
  unfold enterReset
  split <;> rfl

/-- Settles O46: an engine turn keeps them, and of the host's writes only those to their offsets do not. -/
theorem inputsChangeByHostOnly : Obligations.InputsChangeByHostOnly := by
  intro s t h
  rcases step_cases h with ⟨_, rest, e⟩ | ⟨ht, rest, hturns, e⟩ | ⟨rest, hturns, rfl⟩ | ⟨rest, hturns, rfl⟩
  · obtain ⟨hparams, _, hinputs, _⟩ := engineTurn_kept e
    exact ⟨hparams, .inl hinputs⟩
  · obtain ⟨hparams, hinputs | ⟨a, d, hi, hidle, ha⟩⟩ := e.inputs
    · exact ⟨hparams, .inl hinputs⟩
    · exact ⟨hparams, .inr (.inr ⟨a, d, rest, word_of_write hi ▸ hturns, hidle, ha⟩)⟩
  · exact ⟨enterReset_params _, .inr (.inl ⟨rest, hturns⟩)⟩
  · exact ⟨rfl, .inl ⟨rfl, rfl, rfl, rfl, rfl, rfl, rfl⟩⟩

/-! ### The outputs -/

/-- TAG, RESULT, DKH and DKE are as they were. -/
def SameOutputs (s t : State) : Prop := t.tag = s.tag ∧ t.result = s.result ∧ t.dkh = s.dkh ∧ t.dke = s.dke

theorem writeReg_outputs (d : Word) (s : State) (r : Reg) :
    SameOutputs s (writeReg d s r) ∨
      (∃ j, r = .tag j) ∧ (writeReg d s r).result = s.result ∧ (writeReg d s r).dkh = s.dkh ∧
        (writeReg d s r).dke = s.dke := by
  cases r with
  | tag j => exact .inr ⟨⟨j, rfl⟩, rfl, rfl, rfl⟩
  | _ => exact .inl ⟨rfl, rfl, rfl, rfl⟩

theorem HostEffect.outputs {s t : State} {i : Instr} (h : HostEffect s i t) :
    SameOutputs s t ∨ ∃ a d, i = .wr a 0xF d ∧ s.busy = false ∧
      ((0x0070 ≤ a.toNat ∧ a.toNat ≤ 0x007C ∧ t.result = s.result ∧ t.dkh = s.dkh ∧ t.dke = s.dke) ∨
        a = 0x000C ∧ t.tag = s.tag ∧ t.result = 0 ∧ t.dkh = 0 ∧ t.dke = 0) := by
  cases h with
  | answered | dropped | window => exact .inl ⟨rfl, rfl, rfl, rfl⟩
  | register a d r hidle htarget _ =>
    rcases writeReg_outputs d s r with hsame | ⟨⟨j, rfl⟩, hkept⟩
    · exact .inl hsame
    · obtain ⟨hlow, hhigh⟩ := offset_of_tag htarget
      exact .inr ⟨a, d, rfl, hidle, .inl ⟨hlow, hhigh, hkept⟩⟩
  | completed d _ _ hidle _ | accepted d _ hidle =>
    exact .inr ⟨0x000C, d, rfl, hidle, .inr ⟨rfl, rfl, rfl, rfl, rfl⟩⟩

theorem SameOutputs.not_changed {s t : State} (h : SameOutputs s t) :
    ¬ (t.tag ≠ s.tag ∨ t.result ≠ s.result ∨ t.dkh ≠ s.dkh ∨ t.dke ≠ s.dke) := by
  obtain ⟨htag, hresult, hdkh, hdke⟩ := h
  simp [htag, hresult, hdkh, hdke]

/-- Settles O60: of the host's transactions a write to TAG and a word written to CMD change an output, and the end of
reset changes none. -/
theorem outputsChangeCauses : Obligations.OutputsChangeCauses := by
  intro s t h hchanged
  rcases step_cases h with ⟨hengine, _⟩ | ⟨ht, rest, hturns, e⟩ | ⟨rest, hturns, _⟩ | ⟨rest, hturns, rfl⟩
  · exact .inl hengine
  · rcases e.outputs with hsame | ⟨a, d, hi, hidle, hcause⟩
    · exact absurd hchanged (SameOutputs.not_changed (s := s) hsame)
    · exact .inr (.inr ⟨a, d, rest, word_of_write hi ▸ hturns, hidle, hcause⟩)
  · exact .inr (.inl ⟨rest, hturns⟩)
  · exact absurd hchanged (SameOutputs.not_changed (s := s) ⟨rfl, rfl, rfl, rfl⟩)

/-! ### DONE and `irq` -/

theorem StatusKeptOrCompleted.done {s t : State} (h : StatusKeptOrCompleted s t) :
    t.done = s.done ∨ (t.done = true ∧ t.phase = .idle) := by
  obtain hk | ⟨o, u, _, rfl⟩ := h
  · exact .inl (State.done_congr hk)
  · exact .inr ⟨complete_done o u, rfl⟩

/-- What a transaction does to DONE: a W1C write of its bit or the acceptance of a command clears it, NOP and an illegal
word set it. -/
theorem HostEffect.done {s t : State} {i : Instr} (h : HostEffect s i t) :
    t.done = s.done ∨
      ∃ a d, i = .wr a 0xF d ∧ s.busy = false ∧
        ((a = 0x0010 ∧ d.getLsbD 1 = true ∧ t.done = false) ∨ (a = 0x000C ∧ t.busy = true ∧ t.done = false) ∨
          a = 0x000C ∧ (decodeCommand d = .ok .nop ∨ ∃ e, decodeCommand d = .error e) ∧ t.done = true) := by
  cases h with
  | answered | window => exact .inl rfl
  | dropped => exact .inl (dropWrite_done s)
  | register a d r hidle htarget _ =>
    by_cases hr : r = .status
    · subst hr
      obtain rfl := targetOf_reg_injective htarget (targetOf_status _)
      have hbit : (statusW1C s.status d).getLsbD 1 = (s.status.getLsbD 1 && !d.getLsbD 1) :=
        statusW1C_clearable _ _ (by decide) (by decide)
      have hdone : (respond (.write false) (writeReg d s .status)).done = (s.done && !d.getLsbD 1) := hbit
      cases hd : d.getLsbD 1 with
      | false => exact .inl (by rw [hdone, hd]; simp)
      | true => exact .inr ⟨0x0010, d, rfl, hidle, .inl ⟨rfl, hd, by rw [hdone, hd]; simp⟩⟩
    · exact .inl (State.done_congr (writeReg_status d s hr))
  | completed d o c hidle hword => exact .inr ⟨0x000C, d, rfl, hidle, .inr (.inr ⟨rfl, hword, complete_done o _⟩)⟩
  | accepted d c hidle =>
    exact .inr ⟨0x000C, d, rfl, hidle, .inr (.inl ⟨rfl, startCommand_busy c s, startCommand_done c s⟩)⟩

theorem HostEffect.ctrl {s t : State} {i : Instr} (h : HostEffect s i t) :
    t.ctrl = s.ctrl ∨ ∃ d, i = .wr 0x0008 0xF d ∧ s.busy = false ∧ t.ctrl = d.extractLsb' 0 3 ∧ t.done = s.done := by
  cases h with
  | register a d r hidle htarget _ =>
    cases r with
    | ctrl =>
      obtain rfl := targetOf_reg_injective htarget (targetOf_ctrl _)
      exact .inr ⟨d, rfl, hidle, rfl, rfl⟩
    | _ => exact .inl rfl
  | _ => exact .inl rfl

theorem enterReset_done (s : State) : (enterReset s).done = false ∨ enterReset s = s := by
  unfold enterReset
  split
  · exact .inl (by simp [State.done, State.reset])
  · exact .inr rfl

/-- Settles O53: no engine turn clears DONE, and of the host's transactions the W1C write and the acceptance of a command
that runs do. -/
theorem doneFalls : Obligations.DoneFalls := by
  intro s t h hs ht
  have kept {P : Prop} (e : t.done = s.done) : P := absurd (ht.symm.trans (e.trans hs)) (by decide)
  have set {P : Prop} (e : t.done = true) : P := absurd (ht.symm.trans e) (by decide)
  rcases step_cases h with ⟨_, rest, e⟩ | ⟨ht', rest, hturns, e⟩ | ⟨rest, hturns, _⟩ | ⟨rest, hturns, rfl⟩
  · exact (engineTurn_status e).done.elim kept fun hc => set hc.1
  · rcases e.done with hk | ⟨a, d, hi, hidle, ⟨rfl, hd, _⟩ | ⟨rfl, hb, _⟩ | ⟨_, _, hdone⟩⟩
    · exact kept hk
    · exact .inl ⟨d, rest, word_of_write hi ▸ hturns, hd, hidle⟩
    · exact .inr (.inr ⟨d, rest, word_of_write hi ▸ hturns, hidle, hb⟩)
    · exact set hdone
  · exact .inr (.inl ⟨rest, hturns⟩)
  · exact kept rfl

theorem State.irq_eq_true {s : State} : s.irq = true ↔ s.ie = true ∧ s.done = true := by
  simp [State.irq]

theorem State.ie_congr {s t : State} (h : t.ctrl = s.ctrl) : t.ie = s.ie := by
  simp only [State.ie, h]

/-- Where CTRL is kept, a rise of `irq` is a rise of DONE. -/
theorem done_of_irq_rises {s t : State} (hs : s.irq = false) (ht : t.irq = true) (hc : t.ctrl = s.ctrl) :
    t.done ≠ s.done := by
  obtain ⟨hie, hdone⟩ := State.irq_eq_true.mp ht
  intro hk
  have hirq : s.irq = true := State.irq_eq_true.mpr ⟨(State.ie_congr hc).symm.trans hie, hk.symm.trans hdone⟩
  exact absurd (hs.symm.trans hirq) (by decide)

/-- Settles O52: IE rises by a write to CTRL only, and DONE by a completion, in an engine turn or at once. -/
theorem irqCauses : Obligations.IrqCauses := by
  intro s t h hs ht
  obtain ⟨hie, hdone⟩ := State.irq_eq_true.mp ht
  rcases step_cases h with ⟨hengine, rest, e⟩ | ⟨ht', rest, hturns, e⟩ | ⟨rest, hturns, rfl⟩ | ⟨rest, hturns, rfl⟩
  · obtain ⟨_, _, ⟨hctrl, _⟩, _⟩ := engineTurn_kept e
    rcases (engineTurn_status e).done with hk | ⟨_, hidle⟩
    · exact absurd hk (done_of_irq_rises hs ht hctrl)
    · exact .inl ⟨hengine, hdone, hidle⟩
  · rcases e.ctrl with hctrl | ⟨d, hi, hidle, hctrl, hk⟩
    · rcases e.done with hk | ⟨a, d, hi, hidle, ⟨_, _, hfall⟩ | ⟨_, _, hfall⟩ | ⟨rfl, hword, _⟩⟩
      · exact absurd hk (done_of_irq_rises hs ht hctrl)
      · exact absurd (hdone.symm.trans hfall) (by decide)
      · exact absurd (hdone.symm.trans hfall) (by decide)
      · exact .inr ⟨0x000C, d, rest, word_of_write hi ▸ hturns, hidle, .inl ⟨rfl, hword⟩⟩
    · have h2 : d.getLsbD 2 = true := by simpa [State.ie, hctrl] using hie
      exact .inr ⟨0x0008, d, rest, word_of_write hi ▸ hturns, hidle, .inr ⟨rfl, h2, hk.symm.trans hdone⟩⟩
  · rcases enterReset_done { s with turns := rest } with hlow | hsame
    · exact absurd (hdone.symm.trans hlow) (by decide)
    · rw [hsame] at ht
      exact absurd (hs.symm.trans ht) (by decide)
  · exact absurd (hs.symm.trans ht) (by decide)

end Sys2Proof.Machine
end

section
/-! The laws of `dot` and POLYVAL (41_polyval.md R110 to R114). Multiplication is bilinear over XOR and commutes with
multiplication by `x`, and a block is the XOR of powers of `x`, so each law need be seen on powers of `x` only. -/

namespace Sys2Proof.Machine

/-! ### Blocks as sums of powers of `x` -/

/-- `x^i` (R110). -/
def xPow (i : Nat) : Block := (1 : Block) <<< i

/-- A map that respects XOR. -/
def Additive (f : Block → Block) : Prop := ∀ a b, f (a ^^^ b) = f a ^^^ f b

theorem Additive.zero {f : Block → Block} (h : Additive f) : f 0 = 0 := by
  have hz : f (0 ^^^ 0) = f 0 ^^^ f 0 := h 0 0
  rwa [BitVec.xor_self, BitVec.xor_self] at hz

/-- The low `n` bits of a block. -/
def lowBits (a : Block) (n : Nat) : Block := a &&& BitVec.ofNat 128 (2 ^ n - 1)

theorem getLsbD_lowBits (a : Block) (n i : Nat) : (lowBits a n).getLsbD i = (a.getLsbD i && decide (i < n)) := by
  rw [lowBits, BitVec.getLsbD_and, BitVec.getLsbD_ofNat, Nat.testBit_two_pow_sub_one]
  by_cases hi : i < 128
  · simp [hi]
  · simp [BitVec.getLsbD_of_ge a i (by omega)]

theorem getLsbD_xPow (i j : Nat) : (xPow i).getLsbD j = (decide (j < 128) && decide (j = i)) := by
  have hone (k : Nat) : (1 : Block).getLsbD k = decide (k = 0) := by
    simp
  rw [xPow, BitVec.getLsbD_shiftLeft, hone]
  by_cases hj : j < 128 <;> by_cases hji : j < i <;> simp [hj, hji] <;> omega

theorem lowBits_zero (a : Block) : lowBits a 0 = 0 := by
  apply BitVec.eq_of_getLsbD_eq
  intro i _
  simp [getLsbD_lowBits]

theorem lowBits_all (a : Block) : lowBits a 128 = a := by
  apply BitVec.eq_of_getLsbD_eq
  intro i hi
  rw [getLsbD_lowBits, decide_eq_true hi, Bool.and_true]

theorem lowBits_succ (a : Block) (n : Nat) :
    lowBits a (n + 1) = lowBits a n ^^^ (if a.getLsbD n then xPow n else 0) := by
  apply BitVec.eq_of_getLsbD_eq
  intro i hi
  rw [BitVec.getLsbD_xor, getLsbD_lowBits, getLsbD_lowBits, apply_ite (BitVec.getLsbD · i), getLsbD_xPow]
  rcases Nat.lt_trichotomy i n with hlt | rfl | hgt
  · simp [hlt, hi, show i < n + 1 by omega, show i ≠ n by omega]
  · simp [hi]
  · simp [show ¬ i < n by omega, show ¬ i < n + 1 by omega, show i ≠ n by omega]

/-- Two maps that respect XOR are equal when they agree on the powers of `x`. -/
theorem Additive.ext {f g : Block → Block} (hf : Additive f) (hg : Additive g) (h : ∀ i, i < 128 → f (xPow i) = g (xPow i))
    (a : Block) : f a = g a := by
  have hlow (n : Nat) (hn : n ≤ 128) : f (lowBits a n) = g (lowBits a n) := by
    induction n with
    | zero => rw [lowBits_zero, hf.zero, hg.zero]
    | succ n ih =>
      rw [lowBits_succ, hf, hg, ih (by omega)]
      split
      · rw [h n (by omega)]
      · rw [hf.zero, hg.zero]
  simpa [lowBits_all] using hlow 128 (Nat.le_refl _)

/-- What is XORed to both operands cancels out. -/
theorem xor_cancel (a b c : Block) : (a ^^^ c) ^^^ (b ^^^ c) = a ^^^ b := by
  have hperm : (a ^^^ c) ^^^ (b ^^^ c) = (a ^^^ b) ^^^ (c ^^^ c) := by ac_rfl
  rw [hperm, BitVec.xor_self, BitVec.xor_zero]

/-! ### Multiplication by `x` -/

theorem mulX_additive : Additive mulX := by
  intro a b
  unfold mulX
  rw [BitVec.getLsbD_xor, BitVec.shiftLeft_xor_distrib]
  cases a.getLsbD 127 <;> cases b.getLsbD 127
  · rfl
  · exact BitVec.xor_assoc _ _ _
  · exact (by ac_rfl : (a <<< 1 ^^^ b <<< 1) ^^^ gfR = (a <<< 1 ^^^ gfR) ^^^ b <<< 1)
  · exact (xor_cancel _ _ _).symm

/-- `a · x^n`. -/
def mulXPow (a : Block) (n : Nat) : Block := mulX^[n] a

theorem mulXPow_succ (a : Block) (n : Nat) : mulXPow a (n + 1) = mulX (mulXPow a n) :=
  Function.iterate_succ_apply' mulX n a

theorem mulXPow_additive (n : Nat) : Additive fun a => mulXPow a n := by
  intro a b
  induction n with
  | zero => rfl
  | succ n ih => simp only [mulXPow_succ] at ih ⊢; rw [ih, mulX_additive]

/-- A power of `x` that does not reach bit 127 is only shifted. -/
theorem mulX_xPow {i : Nat} (hi : i < 127) : mulX (xPow i) = xPow (i + 1) := by
  have htop : (xPow i).getLsbD 127 = false := by
    rw [getLsbD_xPow]; simp; omega
  rw [mulX, htop, if_neg (by decide), xPow, xPow, ← BitVec.shiftLeft_add]

theorem mulXPow_one {i : Nat} (hi : i < 128) : mulXPow 1 i = xPow i := by
  induction i with
  | zero => rfl
  | succ i ih => rw [mulXPow_succ, ih (by omega), mulX_xPow (by omega)]

/-! ### Multiplication, round by round -/

/-- The accumulator after `n` rounds: the multiples of `a` by the powers of `x` among the low `n` bits of `b`. -/
def gfPartial (a b : Block) : Nat → Block
  | 0 => 0
  | n + 1 => if b.getLsbD n then gfPartial a b n ^^^ mulXPow a n else gfPartial a b n

theorem foldl_gfRound (a b : Block) (n : Nat) :
    (List.range n).foldl (gfRound b) (0, a) = (gfPartial a b n, mulXPow a n) := by
  induction n with
  | zero => rfl
  | succ n ih => rw [List.range_succ, List.foldl_append, ih, mulXPow_succ]; rfl

theorem gfmul_eq_gfPartial (a b : Block) : gfmul a b = gfPartial a b 128 := by
  rw [gfmul, foldl_gfRound]

theorem gfPartial_xor_left (a c b : Block) (n : Nat) :
    gfPartial (a ^^^ c) b n = gfPartial a b n ^^^ gfPartial c b n := by
  induction n with
  | zero => exact BitVec.xor_self.symm
  | succ n ih =>
    have hpow : mulXPow (a ^^^ c) n = mulXPow a n ^^^ mulXPow c n := mulXPow_additive n a c
    simp only [gfPartial, ih, hpow]
    split
    · ac_rfl
    · rfl

theorem gfPartial_xor_right (a b d : Block) (n : Nat) :
    gfPartial a (b ^^^ d) n = gfPartial a b n ^^^ gfPartial a d n := by
  induction n with
  | zero => exact BitVec.xor_self.symm
  | succ n ih =>
    simp only [gfPartial, ih, BitVec.getLsbD_xor]
    cases b.getLsbD n <;> cases d.getLsbD n
    · rfl
    · exact BitVec.xor_assoc _ _ _
    · exact (by ac_rfl : (gfPartial a b n ^^^ gfPartial a d n) ^^^ mulXPow a n =
        (gfPartial a b n ^^^ mulXPow a n) ^^^ gfPartial a d n)
    · exact (xor_cancel _ _ _).symm

theorem gfPartial_mulX (a b : Block) (n : Nat) : gfPartial (mulX a) b n = mulX (gfPartial a b n) := by
  induction n with
  | zero => exact mulX_additive.zero.symm
  | succ n ih =>
    have hpow : mulXPow (mulX a) n = mulX (mulXPow a n) :=
      (Function.iterate_succ_apply mulX n a).symm.trans (mulXPow_succ a n)
    simp only [gfPartial, ih, hpow]
    split
    · rw [mulX_additive]
    · rfl

theorem gfPartial_xPow (a : Block) {i : Nat} (hi : i < 128) (n : Nat) :
    gfPartial a (xPow i) n = if i < n then mulXPow a i else 0 := by
  induction n with
  | zero => rfl
  | succ n ih =>
    rw [gfPartial, ih, getLsbD_xPow]
    rcases Nat.lt_trichotomy i n with hlt | rfl | hgt
    · simp [hlt, show n ≠ i by omega, show i < n + 1 by omega]
    · simp [hi]
    · simp [show ¬ i < n by omega, show n ≠ i by omega, show ¬ i < n + 1 by omega]

theorem gfmul_additive_left (b : Block) : Additive fun a => gfmul a b := fun a c => by
  simp only [gfmul_eq_gfPartial, gfPartial_xor_left]

theorem gfmul_additive_right (a : Block) : Additive (gfmul a) := fun b d => by
  simp only [gfmul_eq_gfPartial, gfPartial_xor_right]

theorem gfmul_mulX_left (a b : Block) : gfmul (mulX a) b = mulX (gfmul a b) := by
  simp only [gfmul_eq_gfPartial, gfPartial_mulX]

theorem gfmul_xPow (a : Block) {i : Nat} (hi : i < 128) : gfmul a (xPow i) = mulXPow a i := by
  rw [gfmul_eq_gfPartial, gfPartial_xPow a hi, if_pos hi]

theorem gfmul_mulXPow_left (a b : Block) (n : Nat) : gfmul (mulXPow a n) b = mulXPow (gfmul a b) n := by
  induction n with
  | zero => rfl
  | succ n ih => rw [mulXPow_succ, mulXPow_succ, gfmul_mulX_left, ih]

theorem gfmul_one_left (b : Block) : gfmul 1 b = b := by
  refine Additive.ext (gfmul_additive_right 1) (g := id) (fun _ _ => rfl) (fun i hi => ?_) b
  rw [gfmul_xPow 1 hi, mulXPow_one hi]
  rfl

theorem gfmul_comm (a b : Block) : gfmul a b = gfmul b a := by
  refine Additive.ext (gfmul_additive_right a) (gfmul_additive_left a) (fun i hi => ?_) b
  calc gfmul a (xPow i) = mulXPow a i := gfmul_xPow a hi
    _ = mulXPow (gfmul 1 a) i := by rw [gfmul_one_left]
    _ = gfmul (mulXPow 1 i) a := (gfmul_mulXPow_left 1 a i).symm
    _ = gfmul (xPow i) a := by rw [mulXPow_one hi]

theorem gfmul_mulXPow_right (a b : Block) (n : Nat) : gfmul a (mulXPow b n) = mulXPow (gfmul a b) n := by
  rw [gfmul_comm, gfmul_mulXPow_left, gfmul_comm]

theorem gfmul_assoc (a b c : Block) : gfmul (gfmul a b) c = gfmul a (gfmul b c) := by
  have hright : Additive fun c => gfmul a (gfmul b c) := fun c d => by
    simp only [gfmul_additive_right b c d, gfmul_additive_right a (gfmul b c) (gfmul b d)]
  refine Additive.ext (gfmul_additive_right (gfmul a b)) hright (fun i hi => ?_) c
  rw [gfmul_xPow _ hi, gfmul_xPow _ hi, gfmul_mulXPow_right]

/-- R is `x^128` and XINV its inverse (R111, R112). -/
theorem gfmul_gfR_gfXInv : gfmul gfR gfXInv = 1 := by decide +kernel

/-! ### `dot` -/

theorem dot_comm (a b : Block) : dot a b = dot b a := by
  rw [dot, dot, gfmul_comm a b]

theorem dot_xor_left (a c b : Block) : dot (a ^^^ c) b = dot a b ^^^ dot c b := by
  have hl : gfmul (a ^^^ c) b = gfmul a b ^^^ gfmul c b := gfmul_additive_left b a c
  have hi : gfmul (gfmul a b ^^^ gfmul c b) gfXInv = gfmul (gfmul a b) gfXInv ^^^ gfmul (gfmul c b) gfXInv :=
    gfmul_additive_left gfXInv _ _
  rw [dot, hl, hi, dot, dot]

theorem dot_zero (a : Block) : dot a 0 = 0 := by
  have h : Additive fun c => dot c a := fun c d => dot_xor_left c d a
  rw [dot_comm]
  exact h.zero

/-- R is neutral: its factor `x^128` is taken back by XINV. -/
theorem dot_gfR (a : Block) : dot a gfR = a := by
  rw [dot, gfmul_assoc, gfmul_gfR_gfXInv, gfmul_comm, gfmul_one_left]

theorem polyval_zero_key (xs : List Block) : polyval 0 xs = 0 := by
  have hfrom : polyvalFrom 0 0 xs = 0 := by
    induction xs with
    | nil => rfl
    | cons x xs ih => rw [polyvalFrom, List.foldl_cons, dot_zero]; exact ih
  exact hfrom

/-- Settles O33: each law of `dot` is one of polynomial multiplication modulo `p`. -/
theorem dotLaws : Obligations.DotLaws :=
  ⟨dot_comm, fun a b c => dot_xor_left a c b, dot_zero, dot_gfR, polyval_zero_key⟩

end Sys2Proof.Machine
end

section
/-! The region checks in unbounded arithmetic (45_commands.md R194), the subkeys byte by byte (42_key_derivation.md R133),
and the laws of the counter blocks, of `ctrApply`, of the comparison, and of Enc and Dec (44_ctr_keystream.md section 2,
45_commands.md R206, R212). -/

namespace Sys2Proof.Machine

/-! ### Regions -/

theorem regionValid_iff {p : Params} {off len : Word} :
    regionValid p off len = true ↔ off.toNat + len.toNat ≤ p.bufBytes := decide_eq_true_iff

/-- Two regions of one length share no byte exactly when one ends before the other begins, or they are empty. -/
theorem disjoint_iff (o m l : Nat) :
    (¬ ∃ b, (o ≤ b ∧ b < o + l) ∧ (m ≤ b ∧ b < m + l)) ↔ l = 0 ∨ o + l ≤ m ∨ m + l ≤ o := by
  constructor
  · intro h
    by_contra hne
    exact h ⟨max o m, by omega, by omega⟩
  · rintro h ⟨b, ho, hm⟩
    omega

theorem outPlacementOk_iff {msgOff outOff len : Word} :
    outPlacementOk msgOff outOff len = true ↔
      outOff = msgOff ∨ len = 0 ∨
        ¬ ∃ b, (outOff.toNat ≤ b ∧ b < outOff.toNat + len.toNat) ∧ (msgOff.toNat ≤ b ∧ b < msgOff.toNat + len.toNat) := by
  have hzero : len = 0 ↔ len.toNat = 0 := by
    rw [← BitVec.toNat_inj]
    rfl
  rw [disjoint_iff, hzero, outPlacementOk, decide_eq_true_iff]
  tauto

/-- Settles O28: the checks are the conditions on the ends of the regions and on their bytes. -/
theorem regionChecks : Obligations.RegionChecks := fun s =>
  ⟨by simp only [regionCheckAead, Bool.and_eq_true, regionValid_iff, outPlacementOk_iff, and_assoc],
    by simp only [regionCheckHash, Bool.and_eq_true, regionValid_iff]⟩

/-! ### The subkeys -/

theorem byteAt_lowHalf (y : Block) {k : Nat} (hk : k < 8) : byteAt (lowHalf y) k = byteAt y k :=
  (byteAt_extractLsb' y 0 (by omega)).trans (by rw [Nat.zero_add])

/-- Two halves joined: eight bytes of each. -/
theorem byteAt_join (ys : List Half) (j : Nat) {k : Nat} (hk : k < 16) :
    byteAt (ys.getD (j + 1) 0 ++ ys.getD j 0) k = byteAt (ys.getD (j + k / 8) 0) (k % 8) := by
  by_cases hlow : k < 8
  · rw [show k / 8 = 0 by omega, show k % 8 = k by omega]
    exact byteAt_append_low _ _ (by omega)
  · rw [byteAt_append_high (j := 8) _ _ rfl (by omega), show k / 8 = 1 by omega, show k % 8 = k - 8 by omega]

theorem kdHalves_getD (ksz nprof : Bool) (mk : Key) (n : Block) {count i : Nat} (hi : i < count) :
    (kdHalves ksz nprof mk n count).getD i 0 =
      lowHalf (Config.blockEncrypt ksz (keyInUse ksz mk) (kdb nprof n i)) := by
  simp [kdHalves, List.getD_eq_getElem?_getD, hi]

theorem esubOf_short_key (ys : List Half) :
    esubOf false ys = (ys.getD 3 0 ++ ys.getD 2 0 : Block).setWidth 256 := rfl

theorem esubOf_long_key (ys : List Half) :
    esubOf true ys = (ys.getD 5 0 ++ ys.getD 4 0) ++ (ys.getD 3 0 ++ ys.getD 2 0) := rfl

theorem byteAt_esubOf_low (ksz : Bool) (ys : List Half) {k : Nat} (hk : k < 16) :
    byteAt (esubOf ksz ys) k = byteAt (ys.getD (2 + k / 8) 0) (k % 8) := by
  rw [← byteAt_join ys 2 hk]
  cases ksz with
  | false => rw [esubOf_short_key]; exact byteAt_setWidth _ (by omega)
  | true => rw [esubOf_long_key]; exact byteAt_append_low _ _ (by omega)

theorem byteAt_esubOf_high (ys : List Half) {k : Nat} (hk : 16 ≤ k) (hk' : k < 32) :
    byteAt (esubOf true ys) k = byteAt (ys.getD (2 + k / 8) 0) (k % 8) := by
  have hjoin := byteAt_join ys 4 (k := k - 16) (by omega)
  rw [show 4 + (k - 16) / 8 = 2 + k / 8 by omega, show (k - 16) % 8 = k % 8 by omega] at hjoin
  rw [← hjoin, esubOf_long_key]
  exact byteAt_append_high (j := 16) _ _ rfl hk

theorem byteAt_esubOf_short (ys : List Half) {k : Nat} (hk : 16 ≤ k) : byteAt (esubOf false ys) k = 0 := by
  apply BitVec.eq_of_getLsbD_eq
  intro b hb
  rw [byteAt_bit _ _ _ hb, esubOf_short_key, BitVec.getLsbD_setWidth, BitVec.getLsbD_of_ge _ _ (by omega)]
  simp

/-- Settles O35: the halves are the low halves of the calls' answers, joined two by two. -/
theorem subkeyBytes : Obligations.SubkeyBytes := by
  intro ksz nprof mk n k y
  have h4 := kdCalls_ge ksz
  have half {i : Nat} (hi : i < kdCalls ksz) :
      byteAt ((kdHalves ksz nprof mk n (kdCalls ksz)).getD i 0) (k % 8) = byteAt (y i) (k % 8) := by
    rw [kdHalves_getD _ _ _ _ hi, byteAt_lowHalf _ (by omega)]
  refine ⟨fun hk => ?_, fun hk => ?_⟩
  · rw [← half (by omega)]
    exact (byteAt_join _ 0 hk).trans (by rw [Nat.zero_add])
  · by_cases hlow : k < 16
    · rw [if_pos (.inl hlow), ← half (by omega)]
      exact byteAt_esubOf_low _ _ hlow
    · cases ksz with
      | false => rw [if_neg (by simp [hlow])]; exact byteAt_esubOf_short _ (by omega)
      | true =>
        rw [if_pos (.inr rfl), ← half (by simp only [kdCalls, if_true]; omega)]
        exact byteAt_esubOf_high _ (by omega) hk

/-! ### Counter blocks and tag input blocks -/

theorem counterBlock_field (cb0 : Block) (i : Nat) :
    (counterBlock cb0 i).extractLsb' 0 32 = cb0.extractLsb' 0 32 + BitVec.ofNat 32 i :=
  BitVec.extractLsb'_append_eq_right

/-- Settles O38: below 2^32 blocks the counter field alone tells the indices apart. -/
theorem countersDistinct : Obligations.CountersDistinct := by
  intro p t i j hp hi hj hne heq
  have hsize : p.bufBytes / 16 ≤ 2048 := by
    have ⟨_, hle⟩ := of_decide_eq_true hp
    rw [Params.bufBytes, Nat.mul_div_cancel_left _ (by decide)]
    exact hle
  have hfield := congrArg (BitVec.extractLsb' 0 32) heq
  rw [counterBlock_field, counterBlock_field, BitVec.add_right_inj] at hfield
  have hnat := congrArg BitVec.toNat hfield
  rw [BitVec.toNat_ofNat, BitVec.toNat_ofNat, Nat.mod_eq_of_lt (by omega), Nat.mod_eq_of_lt (by omega)] at hnat
  exact hne hnat

/-- Bit 127 is cleared and every other bit kept (R152). -/
theorem getLsbD_clearBit127 (u : Block) (i : Nat) :
    (clearBit127 u).getLsbD i = (u.getLsbD i && decide (i < 127)) := by
  have hmask : ∀ k < 128, (0x7FFFFFFFFFFFFFFFFFFFFFFFFFFFFFFF : Block).getLsbD k = decide (k < 127) := by decide
  rw [clearBit127, BitVec.getLsbD_and]
  by_cases hi : i < 128
  · rw [hmask i hi]
  · rw [BitVec.getLsbD_of_ge u i (by omega), Bool.false_and, Bool.false_and]

theorem ctrBlock0_top (msb : Bool) (t : Block) : (ctrBlock0 msb t).getLsbD 127 = msb := by
  rw [ctrBlock0, BitVec.getLsbD_or, getLsbD_clearBit127]
  cases msb <;> simp

theorem counterBlock_top (cb0 : Block) (i : Nat) : (counterBlock cb0 i).getLsbD 127 = cb0.getLsbD 127 := by
  simp only [counterBlock, BitVec.getLsbD_append, BitVec.getLsbD_extractLsb']
  rfl

theorem tagInput_top (nprof : Bool) (n s : Block) : (tagInput nprof n s).getLsbD 127 = false := by
  rw [tagInput, getLsbD_clearBit127]
  simp

/-- Settles O39: bit 127 is CTR_MSB in a counter block and 0 in a tag input block. -/
theorem domainSeparation : Obligations.DomainSeparation := by
  intro msb nprof t n s i
  have htop (m : Bool) : (counterBlock (ctrBlock0 m t) i).getLsbD 127 = m := by
    rw [counterBlock_top, ctrBlock0_top]
  refine ⟨htop msb, tagInput_top nprof n s, fun heq => ?_⟩
  have hbit := htop true
  rw [heq, tagInput_top] at hbit
  cases hbit

/-! ### The laws of `ctrApply` -/

theorem ctrApply_self_inverse (msb ksz : Bool) (t : Block) (ek : Key) (d : List Byte) :
    ctrApply msb ksz t ek (ctrApply msb ksz t ek d) = d := by
  apply List.ext_getElem
  · rw [ctrApply_length, ctrApply_length]
  · intro k _ _
    simp only [ctrApply_bytes, List.getElem_mapIdx, BitVec.xor_assoc, BitVec.xor_self]
    exact BitVec.xor_zero

theorem ctrApply_take (msb ksz : Bool) (t : Block) (ek : Key) (d : List Byte) (n : Nat) :
    (ctrApply msb ksz t ek d).take n = ctrApply msb ksz t ek (d.take n) := by
  apply List.ext_getElem
  · simp only [List.length_take, ctrApply_length]
  · intro k _ _
    simp only [ctrApply_bytes, List.getElem_take, List.getElem_mapIdx]

/-- The initial counter block does not read bit 127 of the tag (R170). -/
theorem ctrBlock0_congr {t t' : Block} (msb : Bool) (h : t.extractLsb' 0 127 = t'.extractLsb' 0 127) :
    ctrBlock0 msb t = ctrBlock0 msb t' := by
  have hclear : clearBit127 t = clearBit127 t' := by
    apply BitVec.eq_of_getLsbD_eq
    intro i hi
    rw [getLsbD_clearBit127, getLsbD_clearBit127]
    have hbit := congrArg (BitVec.getLsbD · i) h
    by_cases hlow : i < 127
    · simpa [hlow] using hbit
    · simp [hlow]
  rw [ctrBlock0, hclear, ctrBlock0]

theorem ctrApply_congr {t t' : Block} (msb ksz : Bool) (ek : Key) (d : List Byte)
    (h : t.extractLsb' 0 127 = t'.extractLsb' 0 127) : ctrApply msb ksz t ek d = ctrApply msb ksz t' ek d := by
  simp only [ctrApply_bytes, keystreamBlock, ctrBlock0_congr msb h]

/-- Settles O40: each byte is XORed with a keystream byte of its own position, whose block depends on the tag's bits 126
to 0. -/
theorem keystreamLaws : Obligations.KeystreamLaws := fun msb ksz t _ ek d _ k =>
  ⟨ctrApply_length msb ksz t ek d, ctrApply_self_inverse msb ksz t ek d,
    fun h => by rw [ctrApply_take, ctrApply_take, h], ctrApply_congr msb ksz ek d⟩

/-! ### The comparison, Enc and Dec -/

theorem ctEqual_iff (x y : Block) : ctEqual x y = true ↔ x = y := by
  refine ⟨ctEqual_bytes, ?_⟩
  rintro rfl
  simp [ctEqual]

/-- Settles O41: equal tags have no differing byte, and tags with no differing byte are equal. -/
theorem ctEqualExact : Obligations.CtEqualExact := ctEqual_iff

theorem decFn_of_match {msb ksz nprof : Bool} {h : Block} {ek : Key} {n : Block} {a c p : List Byte} {t : Block}
    (hp : ctrApply msb ksz t ek c = p) (ht : computeTag ksz nprof (aeadHash h a p) n ek = t) :
    decFn msb ksz nprof h ek n a c t = some p := by
  subst hp
  exact if_pos ((ctEqual_iff _ _).mpr ht)

theorem decFn_of_mismatch {msb ksz nprof : Bool} {h : Block} {ek : Key} {n : Block} {a c p : List Byte} {t : Block}
    (hp : ctrApply msb ksz t ek c = p) (ht : computeTag ksz nprof (aeadHash h a p) n ek ≠ t) :
    decFn msb ksz nprof h ek n a c t = none := by
  subst hp
  exact if_neg (mt (ctEqual_iff _ _).mp ht)

/-- A tag with bit 127 flipped. -/
theorem flipped_low_bits (t : Block) :
    (t ^^^ 0x80000000000000000000000000000000).extractLsb' 0 127 = t.extractLsb' 0 127 := by
  have hz : (0x80000000000000000000000000000000 : Block).extractLsb' 0 127 = 0 := by decide
  rw [BitVec.extractLsb'_xor, hz]
  exact BitVec.xor_zero

theorem flipped_ne (t : Block) : t ≠ t ^^^ 0x80000000000000000000000000000000 := by
  intro h
  have hbit := congrArg (BitVec.getLsbD · 127) h
  simp at hbit

/-- Settles O42: the keystream is the same under both tags, so that the candidate is the plaintext in both cases and only
the comparison tells them apart. -/
theorem decUndoesEnc : Obligations.DecUndoesEnc := by
  intro msb ksz nprof h ek n a p e
  have hinv : ctrApply msb ksz e.2 ek e.1 = p := ctrApply_self_inverse msb ksz e.2 ek p
  refine ⟨decFn_of_match hinv rfl, ctrApply_length msb ksz e.2 ek p, decFn_of_mismatch (p := p) ?_ (flipped_ne e.2)⟩
  rw [ctrApply_congr msb ksz ek e.1 (flipped_low_bits e.2), hinv]

end Sys2Proof.Machine
end

section
/-! What an engine turn can do, said once: it goes on, changing hidden registers and in KEYSTREAM an OUT chunk, or it
completes in one of nine ways (45_commands.md sections 1 to 4). From it, what a turn shows the host. -/

namespace Sys2Proof.Machine

/-! ### The effect of an engine turn -/

/-- The state about to be completed, and the outcome. -/
inductive Completing (s : State) : CmdOutcome → State → Prop
  | badRegions (phase : s.phase = .started) (code : s.opc = 0x01 ∨ s.opc = 0x02 ∨ s.opc = 0x04) :
    Completing s .invalidInputLength s
  | noCommand (phase : s.phase = .started) (code : multiStep s.opc = false) : Completing s .illegalCommand s
  | derived (phase : s.phase = .keyed) (code : s.opc = 0x03) : Completing s .ok (deriveOutputs s)
  | hashed (phase : s.phase = .hashed) : Completing s .ok { s with result := s.acc }
  | mismatch (phase : s.phase = .comparing) : Completing s .authenticationFailure s
  | released (phase : s.phase = .keystream .block) (code : s.opc = 0x02) : Completing s .verified s
  | encrypted (phase : s.phase = .keystream .block) (code : s.opc ≠ 0x02) : Completing s .ok { s with tag := s.tcalc }
  | cleared (phase : s.phase = .clearing) : Completing s .ok (clearAll s)
  | failed (r : BcRequest) (request : s.bcReq = some r) : Completing s .primitiveFailure (endCall s)

/-- BUF is as it was, or OUT chunk BLK was written in KEYSTREAM. -/
def ChunkWritten (s : State) (m : Buffer) : Prop :=
  m = s.buf ∨ s.phase = .keystream .block ∧ ∃ vs, vs.length = chunkLen s.msgLen.toNat s.blk.toNat ∧
    m = bufSetBytes s.buf (s.outOff.toNat + 16 * s.blk.toNat) vs

/-- The units' registers, the position, the request, BUF and the count of calls are all that may differ. -/
def OnlyUnits (s t : State) : Prop :=
  t = { s with
    acc := t.acc
    hsub := t.hsub
    esub := t.esub
    cb0 := t.cb0
    blk := t.blk
    tcalc := t.tcalc
    phase := t.phase
    rt := t.rt
    bcReq := t.bcReq
    buf := t.buf
    answers := t.answers
    calls := t.calls }

/-- Everything a turn can do. -/
inductive TurnEffect (s : State) : State → Prop
  | goesOn {t : State} (only : OnlyUnits s t) (chunk : ChunkWritten s t.buf) : TurnEffect s t
  | completes {o : CmdOutcome} {u : State} (c : Completing s o u) : TurnEffect s (complete o u)

/-- A turn that changes units' registers only. -/
theorem TurnEffect.units {s t : State} (only : OnlyUnits s t) (hbuf : t.buf = s.buf) : TurnEffect s t :=
  .goesOn only (.inl hbuf)

theorem startAead_effect {s : State} (hp : s.phase = .started) (ho : s.opc = 0x01 ∨ s.opc = 0x02) :
    TurnEffect s (startAead s) := by
  unfold startAead
  split
  · split <;> exact .units rfl rfl
  · exact .completes (.badRegions hp (ho.imp_right .inl))

theorem startHash_effect {s : State} (hp : s.phase = .started) (ho : s.opc = 0x04) : TurnEffect s (startHash s) := by
  unfold startHash
  split
  · exact .units rfl rfl
  · exact .completes (.badRegions hp (.inr (.inr ho)))

theorem startStep_effect {s : State} (hp : s.phase = .started) : TurnEffect s (startStep s) := by
  unfold startStep
  split_ifs with henc hdec hder hhash hclear
  · exact startAead_effect hp (.inl henc)
  · exact startAead_effect hp (.inr hdec)
  · exact .units rfl rfl
  · exact startHash_effect hp hhash
  · exact .units rfl rfl
  · refine .completes (.noCommand hp (Bool.eq_false_iff.mpr fun hm => ?_))
    simp only [multiStep, Bool.or_eq_true, decide_eq_true_eq] at hm
    tauto

theorem absorbChunk_effect {off len i : Nat} {p : Phase} {s t : State} (h : absorbChunk off len i p s = .next t) :
    TurnEffect s t := by
  rcases absorbChunk_cases off len i p s with ⟨_, e⟩ | ⟨_, e⟩ <;> cases e.symm.trans h
  exact .units rfl rfl

theorem hashAadStep_effect {i : Nat} {s t : State} (h : hashAadStep i s = .next t) : TurnEffect s t := by
  unfold hashAadStep at h
  split at h
  · exact absorbChunk_effect h
  · cases h; exact .units rfl rfl

theorem hashMsgEnd_effect (s : State) : TurnEffect s (hashMsgEnd s) := by
  unfold hashMsgEnd
  split_ifs <;> exact .units rfl rfl

theorem hashMsgStep_effect {i : Nat} {s t : State} (h : hashMsgStep i s = .next t) : TurnEffect s t := by
  unfold hashMsgStep at h
  split at h
  · exact absorbChunk_effect h
  · cases h; exact hashMsgEnd_effect s

theorem decPass1Step_effect (c : CtrStep) (s : State) : TurnEffect s (decPass1Step c s) := by
  cases c with
  | init | absorb => exact .units rfl rfl
  | block => unfold decPass1Step; dsimp only; split <;> exact .units rfl rfl

theorem keystreamStep_effect {c : CtrStep} {s : State} (hp : s.phase = .keystream c) :
    TurnEffect s (keystreamStep c s) := by
  cases c with
  | init | absorb => exact .units rfl rfl
  | block =>
    unfold keystreamStep keystreamEnd
    dsimp only
    split_ifs with _ hdec
    · exact .units rfl rfl
    · exact .completes (.released hp hdec)
    · exact .completes (.encrypted hp hdec)

theorem sequencerStep_effect {s t : State} (h : sequencerStep s = .next t) : TurnEffect s t := by
  unfold sequencerStep at h
  cases hp : s.phase with rw [hp] at h
  | idle => cases h; exact .units rfl rfl
  | started => cases h; exact startStep_effect hp
  | derivingKeys i ys => cases h; exact .units rfl rfl
  | keyed =>
    cases h
    unfold keyedStep
    split
    · exact .completes (.derived hp ‹_›)
    · exact .units rfl rfl
  | hashingAad i => exact hashAadStep_effect h
  | hashingMsg i => exact hashMsgStep_effect h
  | hashed => cases h; exact .completes (.hashed hp)
  | decPass1 c => cases h; exact decPass1Step_effect c s
  | tagging u => cases h; cases u <;> exact .units rfl rfl
  | comparing =>
    cases h
    unfold compareStep
    split
    · exact .units rfl rfl
    · exact .completes (.mismatch hp)
  | keystream c => cases h; exact keystreamStep_effect hp
  | clearing => cases h; exact .completes (.cleared hp)

/-- An answer taken completes nothing, and makes no request. -/
theorem takeAnswer_effect {y : Block} {s t : State} (h : takeAnswer y s = .next t) :
    OnlyUnits s t ∧ ChunkWritten s t.buf ∧ t.bcReq = s.bcReq := by
  unfold takeAnswer at h
  cases hp : s.phase with rw [hp] at h
  | decPass1 c =>
    cases c with
    | init | absorb => cases h; exact ⟨rfl, .inl rfl, rfl⟩
    | block =>
      rcases ctrPass1_cases y s with ⟨_, e⟩ | ⟨_, e⟩ <;> cases e.symm.trans h
      exact ⟨rfl, .inl rfl, rfl⟩
  | tagging u => cases u <;> cases h <;> exact ⟨rfl, .inl rfl, rfl⟩
  | keystream c =>
    cases c with
    | init | absorb => cases h; exact ⟨rfl, .inl rfl, rfl⟩
    | block =>
      rcases ctrWrite_cases y s with ⟨_, _, e⟩ | ⟨_, _, e⟩ <;> cases e.symm.trans h
      exact ⟨rfl, .inr ⟨hp, _, outChunk_length y s, rfl⟩, rfl⟩
  | _ => cases h; exact ⟨rfl, .inl rfl, rfl⟩

theorem portAnswer_effect {r : BcRequest} {s t : State} (hq : s.bcReq = some r) (h : portAnswer r s = .next t) :
    TurnEffect s t := by
  unfold portAnswer at h
  split at h
  · cases h; exact .completes (.failed r hq)
  · obtain ⟨honly, hchunk, _⟩ := takeAnswer_effect h
    exact .goesOn honly hchunk

theorem engineTurn_effect {s t : State} (h : engineTurn s = .next t) : TurnEffect s t := by
  unfold engineTurn at h
  split at h
  · split at h
    case h_1 r hq => exact portAnswer_effect hq h
    case h_2 => exact sequencerStep_effect h
  · cases h; exact .units rfl rfl

/-! ### What a turn that goes on shows -/

theorem OnlyUnits.status {s t : State} (h : OnlyUnits s t) : t.status = s.status := by
  have ht : t = _ := h
  exact (congrArg State.status ht :)

theorem OnlyUnits.outputs {s t : State} (h : OnlyUnits s t) : SameOutputs s t := by
  have ht : t = _ := h
  exact ⟨(congrArg State.tag ht :), (congrArg State.result ht :), (congrArg State.dkh ht :), (congrArg State.dke ht :)⟩

/-- Settles O59: a turn that completes leaves BUSY = 0, and one that goes on changes units' registers and an OUT chunk. -/
theorem engineShowsNothingBeforeCompletion : Obligations.EngineShowsNothingBeforeCompletion := by
  intro s t h hb
  cases engineTurn_effect h with
  | goesOn honly hchunk =>
    have ht : t = _ := honly
    refine ⟨?_, hchunk.imp id fun hw => ⟨.block, hw.1⟩⟩
    rw [SameButSecret]
    conv_lhs => rw [ht]
    rw [show t.key = s.key from (congrArg State.key ht :), show t.hkey = s.hkey from (congrArg State.hkey ht :),
      show t.opc = s.opc from (congrArg State.opc ht :), show t.opF = s.opF from (congrArg State.opF ht :),
      show t.optKsz = s.optKsz from (congrArg State.optKsz ht :),
      show t.optNprof = s.optNprof from (congrArg State.optNprof ht :)]
  | completes c => exact absurd (hb.symm.trans (complete_busy _ _)) (by decide)

/-! ### What a turn may write to BUF -/

theorem ChunkWritten.in_chunk {s : State} {m : Buffer} (h : ChunkWritten s m) {a : Nat} (ha : bufGet m a ≠ bufGet s.buf a) :
    s.phase = .keystream .block ∧ s.outOff.toNat + 16 * s.blk.toNat ≤ a ∧
      a < s.outOff.toNat + 16 * s.blk.toNat + chunkLen s.msgLen.toNat s.blk.toNat := by
  obtain rfl | ⟨hp, vs, hlen, rfl⟩ := h
  · exact absurd rfl ha
  · refine ⟨hp, ?_⟩
    by_contra hout
    exact ha (bufGet_bufSetBytes_other _ _ _ _ (by omega))

/-- Only CLEAR writes BUF in the turn that completes it. -/
theorem Completing.buf {s u : State} {o : CmdOutcome} (h : Completing s o u) : u.buf = s.buf ∨ s.phase = .clearing := by
  cases h with
  | cleared hp => exact .inr hp
  | _ => exact .inl rfl

/-- The phase KEYSTREAM is that of ENCRYPT and DECRYPT (10_state.md R37). -/
theorem Inv.keystream_code {s : State} (h : Inv s) {c : CtrStep} (hp : s.phase = .keystream c) :
    s.opc = 0x01 ∨ s.opc = 0x02 := by
  have hf := h.phase_fits
  simp only [phaseFits, phaseOf, hp, Bool.and_eq_true, Bool.or_eq_true, decide_eq_true_eq] at hf
  exact hf.1

/-- Settles O47: a turn that goes on writes the chunk of its index in KEYSTREAM, and only CLEAR writes as it completes. -/
theorem engineWritesOutOnly : Obligations.EngineWritesOutOnly := by
  intro s t hinv h a ha
  cases engineTurn_effect h with
  | goesOn _ hchunk =>
    obtain ⟨hp, hlow, hhigh⟩ := hchunk.in_chunk ha
    exact .inr ⟨hp, hinv.keystream_code hp, fun ho => hinv.release_verified ho ⟨_, hp⟩, hlow, hhigh⟩
  | completes c =>
    rcases c.buf with hbuf | hp
    · exact absurd (congrArg (bufGet · a) hbuf) ha
    · exact .inl hp

/-! ### The outputs and the outcome of a completion -/

theorem Completing.running {s u : State} {o : CmdOutcome} (h : Completing s o u) (hinv : Inv s) : s.phase ≠ .idle := by
  cases h with
  | failed r hq => exact (hinv.request_busy hq).1
  | _ => simp [*]

theorem Completing.status {s u : State} {o : CmdOutcome} (h : Completing s o u) : u.status = s.status := by
  cases h <;> rfl

/-- The one outcome bit of a completing turn. -/
theorem Completing.outcomeBits {s u : State} {o : CmdOutcome} (h : Completing s o u) (hinv : Inv s) :
    (complete o u).outcomeBits = (outcomeBit o).extractLsb' 2 5 :=
  complete_outcomeBits o ((State.outcomeBits_congr h.status).trans (hinv.no_outcome (h.running hinv)))

/-- DERIVE, ENCRYPT and DECRYPT make the calls (R202, 42_key_derivation.md R132). -/
theorem Inv.request_code {s : State} {r : BcRequest} (h : Inv s) (hq : s.bcReq = some r) :
    s.opc = 0x01 ∨ s.opc = 0x02 ∨ s.opc = 0x03 := by
  have hf := h.phase_fits
  have hw := h.request_fits
  rw [hq] at hw
  unfold phaseFits at hf
  cases hp : s.phase with simp [wantedRequest, requestOf, hp] at hw <;> rw [hp] at hf <;>
      simp only [phaseOf, Bool.or_eq_true, Bool.and_eq_true, decide_eq_true_eq] at hf
  | derivingKeys | decPass1 | tagging | keystream => tauto

/-- Which command completes in which way, once the phase is one of its own. -/
theorem Completing.code {s u : State} {o : CmdOutcome} (h : Completing s o u) (hinv : Inv s) :
    (s.opc = 0x01 ∧ (o = .ok ∨ o = .invalidInputLength ∨ o = .primitiveFailure)) ∨
      (s.opc = 0x02 ∧ (o = .verified ∨ o = .authenticationFailure ∨ o = .invalidInputLength ∨ o = .primitiveFailure)) ∨
      (s.opc = 0x03 ∧ (o = .ok ∨ o = .primitiveFailure)) ∨ (s.opc = 0x04 ∧ (o = .ok ∨ o = .invalidInputLength)) ∨
      (s.opc = 0x0F ∧ o = .ok) := by
  have hf := hinv.phase_fits
  unfold phaseFits at hf
  cases h with
  | badRegions _ hc => rcases hc with hc | hc | hc <;> simp [hc]
  | noCommand hp hc => rw [hp] at hf; exact absurd (hf.symm.trans hc) (by decide)
  | derived _ hc => simp [hc]
  | hashed hp => rw [hp] at hf; simp [of_decide_eq_true hf]
  | mismatch hp => rw [hp] at hf; simp [of_decide_eq_true hf]
  | released _ hc => simp [hc]
  | encrypted hp hc => simp [(hinv.keystream_code hp).resolve_right hc]
  | cleared hp => rw [hp] at hf; simp [of_decide_eq_true hf]
  | failed r hq => rcases hinv.request_code hq with hc | hc | hc <;> simp [hc]

/-- Settles O50: a turn that goes on keeps BUSY, and each way to complete belongs to one command and sets one bit. -/
theorem completionOutcome : Obligations.CompletionOutcome := by
  intro s t hinv hb h hidle
  cases engineTurn_effect h with
  | goesOn honly _ => exact absurd ((State.busy_congr honly.status).trans hb) (by rw [hidle]; decide)
  | @completes o u c =>
    refine ⟨complete_done o u, rfl, ⟨rfl, rfl, rfl, rfl, rfl, rfl, rfl⟩,
      (complete_errBusy o u).trans (State.errBusy_congr c.status), ?_⟩
    rw [c.outcomeBits hinv]
    rcases c.code hinv with ⟨hc, ho⟩ | ⟨hc, ho⟩ | ⟨hc, ho⟩ | ⟨hc, ho⟩ | ⟨hc, rfl⟩
    · rcases ho with rfl | rfl | rfl <;> simp [hc, outcomeBit]
    · rcases ho with rfl | rfl | rfl | rfl <;> simp [hc, outcomeBit]
    · rcases ho with rfl | rfl <;> simp [hc, outcomeBit]
    · rcases ho with rfl | rfl <;> simp [hc, outcomeBit]
    · simp [hc, outcomeBit]

/-- What a completing turn writes for the host: TAG in ENCRYPT, RESULT in PV_HASH, DKH and DKE in DERIVE, all in CLEAR,
each with outcome OK. -/
theorem Completing.outputs {s u : State} {o : CmdOutcome} (h : Completing s o u) (hinv : Inv s) :
    SameOutputs s u ∨ (o = .ok ∧
      ((s.opc = 0x01 ∧ u = { s with tag := s.tcalc }) ∨ (s.opc = 0x04 ∧ u = { s with result := s.acc }) ∨
        (s.opc = 0x03 ∧ u = deriveOutputs s) ∨ (s.opc = 0x0F ∧ u = clearAll s))) := by
  have hf := hinv.phase_fits
  unfold phaseFits at hf
  cases h with
  | derived _ hc => exact .inr ⟨rfl, .inr (.inr (.inl ⟨hc, rfl⟩))⟩
  | hashed hp => rw [hp] at hf; exact .inr ⟨rfl, .inr (.inl ⟨of_decide_eq_true hf, rfl⟩)⟩
  | encrypted hp hc => exact .inr ⟨rfl, .inl ⟨(hinv.keystream_code hp).resolve_right hc, rfl⟩⟩
  | cleared hp => rw [hp] at hf; exact .inr ⟨rfl, .inr (.inr (.inr ⟨of_decide_eq_true hf, rfl⟩))⟩
  | _ => exact .inl ⟨rfl, rfl, rfl, rfl⟩

/-- Settles O48: a turn that goes on keeps the outputs, and each completion writes its own. -/
theorem engineOutputs : Obligations.EngineOutputs := by
  intro s t hinv h
  have kept (hs : SameOutputs s t) {P Q R : Prop} :
      (t.tag ≠ s.tag → P) ∧ (t.result ≠ s.result → Q) ∧ (t.dkh ≠ s.dkh ∨ t.dke ≠ s.dke → R) := by
    obtain ⟨htag, hresult, hdkh, hdke⟩ := hs
    exact ⟨fun hne => absurd htag hne, fun hne => absurd hresult hne,
      fun hne => hne.elim (absurd hdkh) (absurd hdke)⟩
  cases engineTurn_effect h with
  | goesOn honly _ => exact kept honly.outputs
  | completes c =>
    have hout := c.outcomeBits hinv
    rcases c.outputs hinv with hsame | ⟨rfl, ⟨hc, rfl⟩ | ⟨hc, rfl⟩ | ⟨hc, rfl⟩ | ⟨hc, rfl⟩⟩
    · exact kept hsame
    · exact ⟨fun _ => ⟨rfl, .inl ⟨hc, rfl, hout⟩⟩, fun hne => absurd rfl hne, fun hne => hne.elim (absurd rfl) (absurd rfl)⟩
    · exact ⟨fun hne => absurd rfl hne, fun _ => ⟨rfl, .inl ⟨hc, rfl, hout⟩⟩, fun hne => hne.elim (absurd rfl) (absurd rfl)⟩
    · exact ⟨fun hne => absurd rfl hne, fun hne => absurd rfl hne, fun _ => ⟨rfl, .inl ⟨hc, rfl, rfl, hout⟩⟩⟩
    · exact ⟨fun _ => ⟨rfl, .inr ⟨hc, rfl⟩⟩, fun _ => ⟨rfl, .inr ⟨hc, rfl⟩⟩, fun _ => ⟨rfl, .inr ⟨hc, rfl, rfl⟩⟩⟩

/-! ### The port's answers -/

/-- With a request outstanding the machine is out of reset. -/
theorem Inv.request_rstN {s : State} {r : BcRequest} (h : Inv s) (hq : s.bcReq = some r) : s.rstN = true := by
  by_contra hr
  exact (h.request_busy hq).1 (h.reset_idle (by simpa using hr))

theorem engineTurn_failing {s : State} {r : BcRequest} (hr : s.rstN = true) (hq : s.bcReq = some r)
    (hf : nextFails s = true) : engineTurn s = .next (complete .primitiveFailure (endCall s)) := by
  rw [engineTurn_port hr hq, portAnswer, if_pos hf]

theorem engineTurn_answered {s : State} {r : BcRequest} (hr : s.rstN = true) (hq : s.bcReq = some r)
    (hf : nextFails s = false) :
    engineTurn s = takeAnswer (Config.blockEncrypt r.ksz r.key r.block) (endCall s) := by
  rw [engineTurn_port hr hq, portAnswer, if_neg (by simp [hf])]

/-- ERR_PRIM alone of the outcome bits. -/
theorem primitiveFailure_bits {s : State} (h : (complete .primitiveFailure s).outcomeBits = 8) :
    (complete .primitiveFailure s).errPrim = true ∧ (complete .primitiveFailure s).authOk = false ∧
      (complete .primitiveFailure s).authFail = false := by
  simp only [State.outcomeBits, State.errPrim, State.authOk, State.authFail] at h ⊢
  generalize (complete .primitiveFailure s).status = st at h ⊢
  revert st
  decide

/-- Settles O51: FAIL completes at once; any other answer is taken, which completes nothing and makes no request. -/
theorem portAnswers : Obligations.PortAnswers := by
  intro s r hinv hq
  have hr := hinv.request_rstN hq
  have ⟨hrun, _⟩ := hinv.request_busy hq
  refine ⟨fun hf => ?_, fun hf => ?_⟩
  · obtain ⟨hprim, hok, hfail⟩ := primitiveFailure_bits ((Completing.failed r hq).outcomeBits hinv)
    exact ⟨_, engineTurn_failing hr hq hf, hprim, complete_done _ _, complete_busy _ _, hok, hfail, rfl, rfl, rfl, rfl, rfl,
      rfl⟩
  · obtain ⟨t, ht⟩ := takeAnswer_answers hinv hq (Config.blockEncrypt r.ksz r.key r.block)
    obtain ⟨honly, _, hreq⟩ := takeAnswer_effect ht
    exact ⟨t, (engineTurn_answered hr hq hf).trans ht, ht, hreq,
      (State.busy_congr honly.status).trans (hinv.busy_iff.mpr hrun)⟩

end Sys2Proof.Machine
end

section
/-! The reset values as the host reads them (10_state.md R21, R40), and the control flow of the sequencer as a machine of
its own, which reads no key, nonce, data or tag (70_reset_and_hazards.md R280). -/

namespace Sys2Proof.Machine

/-! ### Reset values -/

theorem readReg_reset {a : BitVec 16} {r : Reg} (h : (a.toNat, r) ∈ regMap) :
    readReg State.reset r = if a = 0x0000 then 0x56495347 else if a = 0x0004 then 0x01070800 else 0 := by
  have hmap : ∀ e ∈ regMap, readReg State.reset e.2 =
      if BitVec.ofNat 16 e.1 = 0x0000 then 0x56495347 else if BitVec.ofNat 16 e.1 = 0x0004 then 0x01070800 else 0 := by
    decide
  simpa using hmap _ h

/-- Settles O54: each mapped register reads its reset value, and the rest is as `State.reset` has it. -/
theorem resetValues : Obligations.ResetValues := by
  refine ⟨fun a ha => ?_, ⟨rfl, rfl, rfl, rfl, rfl, rfl, rfl⟩, rfl, rfl, rfl, rfl, rfl, by decide, rfl, rfl, rfl⟩
  obtain ⟨r, htarget⟩ := targetOf_registerOffset State.reset.params ha
  have hreads := readsAs_idle (by decide) htarget
  rwa [readReg_reset (targetOf_reg_mem htarget)] at hreads

/-! ### The control flow as a machine of its own -/

/-- The control part after a completion. -/
def Control.completed (c : Control) : Control := { c with blk := 0, waiting := false, position := (0, 0) }

/-- The control part at another position. -/
def Control.at (c : Control) (p : Nat × Nat) : Control := { c with position := p }

/-- The first micro-step, for a region check that passes or not. -/
def Control.start (regions : Bool) (c : Control) : Control :=
  if c.opc = 0x01 ∨ c.opc = 0x02 then if regions then c.at (if c.opF then (3, 0) else (2, 0)) else c.completed
  else if c.opc = 0x03 then c.at (2, 0)
  else if c.opc = 0x04 then if regions then c.at (3, 0) else c.completed
  else if c.opc = 0x0F then c.at (11, 0)
  else c.completed

/-- A keystream position with no request outstanding: the next call, or the end of the pass. -/
def Control.keystream (c fin : Control) : Control :=
  if 16 * c.blk.toNat < c.msgLen.toNat then { c with waiting := true } else fin

/-- A micro-step with no request outstanding, at phase `p`, whose data it ignores. -/
def Control.step (p : Phase) (regions tags : Bool) (c : Control) : Control :=
  match p with
  | .idle => c
  | .started => c.start regions
  | .derivingKeys _ _ => { c with waiting := true }
  | .keyed => if c.opc = 0x03 then c.completed else c.at (4, 0)
  | .hashingAad i =>
    if 16 * i < c.aadLen.toNat then c.at (4, i + 1) else if c.opc = 0x02 then c.at (7, 0) else c.at (5, 0)
  | .hashingMsg i =>
    if 16 * i < c.msgLen.toNat then c.at (5, i + 1) else if c.opc = 0x04 then c.at (6, 0) else c.at (8, 0)
  | .hashed => c.completed
  | .decPass1 .init => { c with blk := 0, position := (7, 1) }
  | .decPass1 .block => c.keystream (c.at (8, 0))
  | .decPass1 (.absorb _) => c.at (7, 1)
  | .tagging .len => c.at (8, 1)
  | .tagging (.xor _) => c.at (8, 2)
  | .tagging (.enc _) => { c with waiting := true }
  | .comparing => if tags then c.at (10, 0) else c.completed
  | .keystream .init => { c with blk := 0, position := (10, 1) }
  | .keystream .block => c.keystream c.completed
  | .keystream (.absorb _) => c.at (10, 1)
  | .clearing => c.completed

/-- The taking of an answer at phase `p`, whose data it ignores. -/
def Control.answer (p : Phase) (c : Control) : Control :=
  match p with
  | .derivingKeys i _ => if i + 1 = kdCalls c.optKsz then c.at (3, 0) else c.at (2, i + 1)
  | .decPass1 .block => { c with blk := c.blk + 1, position := (7, 2) }
  | .tagging (.enc _) => if c.opc = 0x02 then c.at (9, 0) else c.at (10, 0)
  | .keystream .block => { c with blk := c.blk + 1 }
  | _ => c

/-- An engine turn out of reset, at phase `p`. -/
def Control.turn (p : Phase) (regions tags fails : Bool) (c : Control) : Control :=
  if c.waiting then if fails then c.completed else Control.answer p { c with waiting := false }
  else c.step p regions tags

/-- A phase of each position, with no data. -/
def Phase.ofPosition : Nat × Nat → Phase
  | (0, _) => .idle
  | (1, _) => .started
  | (2, i) => .derivingKeys i []
  | (3, _) => .keyed
  | (4, i) => .hashingAad i
  | (5, i) => .hashingMsg i
  | (6, _) => .hashed
  | (7, 0) => .decPass1 .init
  | (7, 1) => .decPass1 .block
  | (7, _) => .decPass1 (.absorb 0)
  | (8, 0) => .tagging .len
  | (8, 1) => .tagging (.xor 0)
  | (8, _) => .tagging (.enc 0)
  | (9, _) => .comparing
  | (10, 0) => .keystream .init
  | (10, 1) => .keystream .block
  | (10, _) => .keystream (.absorb 0)
  | _ => .clearing

/-- A turn ignores the data its phase carries. -/
theorem Control.turn_ofPosition (p : Phase) (regions tags fails : Bool) (c : Control) :
    c.turn (.ofPosition p.position) regions tags fails = c.turn p regions tags fails := by
  cases p with
  | decPass1 b => cases b <;> rfl
  | tagging b => cases b <;> rfl
  | keystream b => cases b <;> rfl
  | _ => rfl

theorem Phase.eq_started {p : Phase} (h : p.position = (1, 0)) : p = .started := by
  cases p with
  | started => rfl
  | decPass1 b => cases b <;> simp [Phase.position] at h
  | tagging b => cases b <;> simp [Phase.position] at h
  | keystream b => cases b <;> simp [Phase.position] at h
  | _ => simp [Phase.position] at h

theorem Phase.eq_comparing {p : Phase} (h : p.position = (9, 0)) : p = .comparing := by
  cases p with
  | comparing => rfl
  | decPass1 b => cases b <;> simp [Phase.position] at h
  | tagging b => cases b <;> simp [Phase.position] at h
  | keystream b => cases b <;> simp [Phase.position] at h
  | _ => simp [Phase.position] at h

/-- At its start ENCRYPT or DECRYPT goes on by the region check and F. -/
theorem startAead_control (s : State) :
    controlOf (startAead s) =
      if regionCheckAead s then (controlOf s).at (if s.opF then (3, 0) else (2, 0)) else (controlOf s).completed := by
  unfold startAead
  split_ifs <;> rfl

theorem startHash_control (s : State) :
    controlOf (startHash s) = if regionCheckHash s then (controlOf s).at (3, 0) else (controlOf s).completed := by
  unfold startHash
  split_ifs <;> rfl

theorem startStep_control (s : State) : controlOf (startStep s) = (controlOf s).start (regionsFit s) := by
  have hopc : (controlOf s).opc = s.opc := rfl
  have hopF : (controlOf s).opF = s.opF := rfl
  unfold startStep Control.start
  rw [hopc, hopF]
  by_cases haead : s.opc = 0x01 ∨ s.opc = 0x02
  · have hfit : regionsFit s = regionCheckAead s := by rcases haead with h | h <;> simp [regionsFit, h]
    rw [if_pos haead, hfit, ← startAead_control]
    rcases haead with h | h <;> simp [h]
  · obtain ⟨henc, hdec⟩ := not_or.mp haead
    rw [if_neg haead, if_neg henc, if_neg hdec]
    split_ifs with hder hhash hfit hclear
    · rfl
    · have hfit' : regionsFit s = regionCheckHash s := by simp [regionsFit, hhash]
      rw [startHash_control, ← hfit', if_pos hfit]
    · have hfit' : regionsFit s = regionCheckHash s := by simp [regionsFit, hhash]
      rw [startHash_control, ← hfit', if_neg hfit]
    · rfl
    · rfl

theorem absorbChunk_control {off len i : Nat} {p : Phase} {s t : State} (h : absorbChunk off len i p s = .next t) :
    controlOf t = (controlOf s).at p.position := by
  rcases absorbChunk_cases off len i p s with ⟨_, e⟩ | ⟨_, e⟩ <;> cases e.symm.trans h
  rfl

theorem hashMsgEnd_control (s : State) :
    controlOf (hashMsgEnd s) = if s.opc = 0x04 then (controlOf s).at (6, 0) else (controlOf s).at (8, 0) := by
  unfold hashMsgEnd
  split_ifs <;> rfl

/-- A micro-step moves the control part as `Control.step` does, by the region check at the start and the match of the tags
at the comparison. -/
theorem sequencerStep_control {s t : State} {regions tags : Bool} (h : sequencerStep s = .next t)
    (hregions : s.phase = .started → regions = regionsFit s) (htags : s.phase = .comparing → tags = ctEqual s.tcalc s.rt) :
    controlOf t = (controlOf s).step s.phase regions tags := by
  unfold sequencerStep at h
  cases hp : s.phase with rw [hp] at h
  | idle => cases h; rfl
  | started => cases h; rw [hregions hp]; exact startStep_control s
  | derivingKeys i ys => cases h; rfl
  | keyed =>
    cases h
    show controlOf (keyedStep s) = if s.opc = 0x03 then _ else _
    unfold keyedStep
    split_ifs <;> rfl
  | hashingAad i =>
    show controlOf t = if 16 * i < s.aadLen.toNat then _ else if s.opc = 0x02 then _ else _
    simp only [hashAadStep] at h
    split_ifs at h ⊢ with hmore hdec
    · exact absorbChunk_control h
    · cases h; rfl
    · cases h; rfl
  | hashingMsg i =>
    show controlOf t = if 16 * i < s.msgLen.toNat then _ else if s.opc = 0x04 then _ else _
    simp only [hashMsgStep] at h
    split_ifs at h ⊢ with hmore
    · exact absorbChunk_control h
    · cases h; rw [hashMsgEnd_control, if_pos ‹s.opc = 0x04›]
    · cases h; rw [hashMsgEnd_control, if_neg ‹¬s.opc = 0x04›]
  | hashed => cases h; rfl
  | decPass1 c =>
    cases h
    cases c with
    | init => rfl
    | absorb x => rfl
    | block =>
      show controlOf (if _ then _ else _) = if 16 * s.blk.toNat < s.msgLen.toNat then _ else _
      split_ifs <;> rfl
  | tagging c => cases h; cases c <;> rfl
  | comparing =>
    cases h
    rw [htags hp]
    show controlOf (compareStep s) = if ctEqual s.tcalc s.rt then _ else _
    unfold compareStep
    split_ifs <;> rfl
  | keystream c =>
    cases h
    cases c with
    | init => rfl
    | absorb x => rfl
    | block =>
      show controlOf (if _ then _ else keystreamEnd s) = if 16 * s.blk.toNat < s.msgLen.toNat then _ else _
      unfold keystreamEnd
      split_ifs <;> rfl
  | clearing => cases h; rfl

theorem kdStep_control (i : Nat) (ys : List Half) (y : Block) (s : State) :
    controlOf (kdStep i ys y s) =
      if i + 1 = kdCalls s.optKsz then (controlOf s).at (3, 0) else (controlOf s).at (2, i + 1) := by
  by_cases h : i + 1 = kdCalls s.optKsz <;> simp [controlOf, kdStep, Control.at, h, Phase.position]

theorem tgEnc_control (y : Block) (s : State) :
    controlOf (tgEnc y s) = if s.opc = 0x02 then (controlOf s).at (9, 0) else (controlOf s).at (10, 0) := by
  by_cases h : s.opc = 0x02
  · simp [controlOf, tgEnc, Control.at, h, Phase.position]
  · rw [if_neg h, tgEnc, if_neg h]
    rfl

/-- The taking of an answer moves the control part as `Control.answer` does. -/
theorem takeAnswer_control {y : Block} {s t : State} (h : takeAnswer y s = .next t) :
    controlOf t = (controlOf s).answer s.phase := by
  unfold takeAnswer at h
  cases hp : s.phase with rw [hp] at h
  | derivingKeys i ys =>
    cases h
    exact kdStep_control i ys y s
  | decPass1 c =>
    cases c with
    | block =>
      rcases ctrPass1_cases y s with ⟨_, e⟩ | ⟨_, e⟩ <;> cases e.symm.trans h
      rfl
    | _ => cases h; rfl
  | tagging c =>
    cases c with
    | enc tin =>
      cases h
      exact tgEnc_control y s
    | _ => cases h; rfl
  | keystream c =>
    cases c with
    | block =>
      rcases ctrWrite_cases y s with ⟨_, _, e⟩ | ⟨_, _, e⟩ <;> cases e.symm.trans h
      rfl
    | _ => cases h; rfl
  | _ => cases h; rfl

/-- An engine turn out of reset moves the control part as `Control.turn` does. -/
theorem engineTurn_control {s t : State} {regions tags fails : Bool} (hr : s.rstN = true) (h : engineTurn s = .next t)
    (hregions : s.phase = .started → regions = regionsFit s) (htags : s.phase = .comparing → tags = ctEqual s.tcalc s.rt)
    (hfails : s.bcReq.isSome = true → fails = nextFails s) :
    controlOf t = (controlOf s).turn s.phase regions tags fails := by
  unfold Control.turn
  cases hq : s.bcReq with
  | none =>
    rw [engineTurn_sequencer hr hq] at h
    rw [if_neg (by simp [controlOf, hq])]
    exact sequencerStep_control h hregions htags
  | some r =>
    rw [engineTurn_port hr hq, portAnswer] at h
    rw [if_pos (by simp [controlOf, hq]), hfails (by simp [hq])]
    split_ifs at h ⊢ with hf
    · cases h; rfl
    · exact takeAnswer_control h

/-- Settles O56: the turn of the control part reads the region check, the match and FAIL, and nothing else of the state. -/
theorem dataIndependence : Obligations.DataIndependence := by
  intro s s' t t' hrst hcontrol hfails hregions htags h h'
  have hposition : s.phase.position = s'.phase.position := congrArg Control.position hcontrol
  have hwaiting : s.bcReq.isSome = s'.bcReq.isSome := congrArg Control.waiting hcontrol
  cases hr : s.rstN with
  | false =>
    rw [engineTurn_in_reset hr] at h
    rw [engineTurn_in_reset (hrst ▸ hr)] at h'
    cases h; cases h'; exact hcontrol
  | true =>
    have ht := engineTurn_control hr h (fun _ => rfl) (fun _ => rfl) (fun _ => rfl)
    have ht' : controlOf t' = _ := engineTurn_control (regions := regionsFit s) (tags := ctEqual s.tcalc s.rt)
      (fails := nextFails s) (hrst ▸ hr) h'
      (fun hp => hregions (Phase.eq_started (by rw [hposition, hp]; rfl)))
      (fun hp => Bool.eq_iff_iff.mpr (by
        simpa only [ctEqual_iff] using htags (Phase.eq_comparing (by rw [hposition, hp]; rfl))))
      (fun hw => hfails (hwaiting.trans hw))
    rw [ht, ht', ← hcontrol, ← Control.turn_ofPosition, hposition, Control.turn_ofPosition]

end Sys2Proof.Machine
end

section
/-! The acceptance of the multi-step commands (45_commands.md R190, R191), and the commands that end without a keystream
pass: a failing region check (R194), CLEAR (R210), DERIVE (42_key_derivation.md R140) and PV_HASH (41_polyval.md R120). -/

namespace Sys2Proof.Machine

/-! ### Acceptance -/

theorem status_accepted (st : BitVec 8) : statusBusy (statusAccepted st) = (st &&& 0x80) ||| 0x01 := by
  revert st; decide

/-- Settles O20: each of the eight commands is the submission of its command word. -/
theorem acceptance : Obligations.Acceptance := by
  intro i op f s hmem hidle
  have hexec : exec i s = submitWith (startCommand (commandWord op f)) s := by
    simp only [List.mem_cons, Prod.mk.injEq, List.not_mem_nil, or_false] at hmem
    rcases hmem with ⟨rfl, rfl, rfl⟩ | ⟨rfl, rfl, rfl⟩ | ⟨rfl, rfl, rfl⟩ | ⟨rfl, rfl, rfl⟩ | ⟨rfl, rfl, rfl⟩ |
      ⟨rfl, rfl, rfl⟩ | ⟨rfl, rfl, rfl⟩ | ⟨rfl, rfl, rfl⟩ <;> rfl
  rw [hexec, submit_accepted hidle]
  simp only [acceptedState, respond, startCommand, accept, commandWord_op, commandWord_f, status_accepted]

/-! ### The first micro-step -/

theorem accepted_inProgress (op : BitVec 8) (f : Bool) (s : State) : InProgress op f 0 s (acceptedState op f s) := rfl

theorem run_start {op : BitVec 8} {f : Bool} {s u : State} (hs : Ready s)
    (hstart : startStep (acceptedState op f s) = u) : runSteps 1 (acceptedState op f s) = .next u := by
  obtain ⟨hr, _, hq, ht⟩ := hs
  refine runSteps_one (by exact ht) ?_
  rw [engineTurn_sequencer (by exact hr) (by exact hq), sequencer_started rfl, hstart]

/-! ### A failing region check -/

theorem startStep_aead {t : State} (h : t.opc = 0x01 ∨ t.opc = 0x02) : startStep t = startAead t := by
  unfold startStep
  rcases h with h | h <;> simp [h]

theorem startStep_hash {t : State} (h : t.opc = 0x04) : startStep t = startHash t := by
  simp [startStep, h]

/-- A command whose first micro-step finds its regions invalid ends there. -/
theorem run_invalid {op : BitVec 8} {f : Bool} {s : State} (hs : Ready s) (hop : readsKey op = true)
    (hstart : startStep (acceptedState op f s) = complete .invalidInputLength (acceptedState op f s)) :
    runSteps 1 (acceptedState op f s) = .next (finished op f .invalidInputLength 0 s) := by
  rw [run_start hs hstart, (accepted_inProgress op f s).completed .invalidInputLength (by simp [zeroizesKeys, hop])]
  rfl

/-- Settles O27: the first micro-step is the region check. -/
theorem invalidLength : Obligations.InvalidLength := by
  intro f s hs
  have hidle := hs.2.1
  have haead {op : BitVec 8} (hop : op = 0x01 ∨ op = 0x02) (hc : regionCheckAead s = false) :
      startStep (acceptedState op f s) = complete .invalidInputLength (acceptedState op f s) := by
    rw [startStep_aead (by rwa [accepted_opc]), startAead, if_neg (by exact Bool.eq_false_iff.mp hc)]
  refine ⟨fun hc => ⟨⟨_, submit_accepted hidle, run_invalid hs rfl (haead (.inl rfl) hc)⟩,
    _, submit_accepted hidle, run_invalid hs rfl (haead (.inr rfl) hc)⟩,
    fun hc => ⟨_, submit_accepted hidle, run_invalid hs rfl ?_⟩⟩
  rw [startStep_hash (accepted_opc ..), startHash, if_neg (by exact Bool.eq_false_iff.mp hc)]

/-! ### CLEAR -/

/-- A CLEAR in the phase CLEARING. -/
def clearingState (s : State) : State := { acceptedState 0x0F false s with phase := .clearing }

theorem run_clearing {s : State} (hs : Ready s) : runSteps 1 (acceptedState 0x0F false s) = .next (clearingState s) :=
  run_start hs rfl

/-- BUF with every byte zero. -/
def zeroBuffer : Buffer := { base := .zero, cells := [] }

theorem clearing_completed (s : State) : complete .ok (clearAll (clearingState s)) =
    { finished 0x0F false .ok 0 s with tag := 0, buf := zeroBuffer } := by
  have hst : statusCompleted .ok (clearingState s).status = (s.status &&& 0x80) ||| outcomeBit .ok ||| 0x02 := by
    show statusCompleted .ok (statusBusy (statusAccepted s.status)) = _
    generalize s.status = st
    revert st; decide
  rw [complete, clearAll_status, hst, clearAll_key, clearAll_hkey, ite_self, ite_self]
  rfl

/-- Settles O26: the first micro-step enters CLEARING, the second zeroizes and completes. -/
theorem clearRun : Obligations.ClearRun := by
  intro s hs
  have ⟨hr, hidle, hq, ht⟩ := hs
  have hbusy : (clearingState s).busy = true := startCommand_busy _ _
  have hend : runSteps 1 (clearingState s) = .next (complete .ok (clearAll (clearingState s))) :=
    runSteps_one ht (engineTurn_sequencer hr hq)
  refine ⟨_, _, zeroBuffer, submit_accepted hidle, run_clearing hs, rfl, hbusy, ?_, fun a => rfl⟩
  rw [← clearing_completed]
  exact runSteps_trans (run_clearing hs) hend

/-! ### DERIVE -/

/-- A command at its first derivation call (42_key_derivation.md R132). -/
def derivingState (op : BitVec 8) (s : State) : State := { acceptedState op false s with phase := .derivingKeys 0 [] }

/-- The derivation calls before call `k`, none of them failing. -/
theorem run_deriving {op : BitVec 8} {s : State} (hs : Ready s)
    (hstart : startStep (acceptedState op false s) = derivingState op s) {k : Nat} (hk : k < kdCalls s.ksz)
    (hf : NoFail s k) : runSteps (1 + 2 * k) (acceptedState op false s) = .next (derivedTo (derivingState op s) k) := by
  have ⟨hr, _, hq, ht⟩ := hs
  exact runSteps_trans (run_start hs hstart) (run_derive_to k (s := derivingState op s) hr hq ht hk hf)

/-- A derivation call fails. -/
theorem run_derivation_fails {op : BitVec 8} {s : State} (hs : Ready s) (hop : readsKey op = true)
    (hstart : startStep (acceptedState op false s) = derivingState op s) {k : Nat} (hk : k < kdCalls s.ksz)
    (hf : NoFail s k) (hfail : drawAt s k = true) :
    runSteps (1 + 2 * k + 2) (acceptedState op false s) = .next (finished op false .primitiveFailure (k + 1) s) := by
  have hin : InProgress op false k s (derivedTo (derivingState op s) k) := rfl
  exact runSteps_trans (run_deriving hs hstart hk hf)
    (hin.run_failing_call hs hop ⟨rfl, rfl, rfl, rfl⟩ hs.2.2.1 (sequencer_deriving rfl) hfail)

theorem start_derive (s : State) : startStep (acceptedState 0x03 false s) = derivingState 0x03 s := rfl

/-- All derivation calls of a DERIVE, none failing, and its completion with the subkeys. -/
theorem run_derive_ok {s : State} (hs : Ready s) (hf : NoFail s (kdCalls s.ksz)) :
    runSteps (deriveSteps s.ksz) (acceptedState 0x03 false s) =
      .next (complete .ok (deriveOutputs (derivedAll (derivingState 0x03 s)))) := by
  have ⟨hr, _, hq, ht⟩ := hs
  have hderived := runSteps_trans (run_start hs (start_derive s))
    (run_derive (s := derivingState 0x03 s) hr hq ht rfl hf)
  exact runSteps_trans hderived (runSteps_one ht (engineTurn_sequencer hr hq))

/-- Settles O24: the calls and the completion, or the calls before the one that fails. -/
theorem deriveRun : Obligations.DeriveRun := by
  intro s hs
  have hidle := hs.2.1
  refine ⟨fun hf => ⟨_, submit_accepted hidle, ?_⟩, fun k hk hf hfail => ⟨_, submit_accepted hidle, ?_⟩⟩
  · have hin : InProgress 0x03 false (kdCalls s.ksz) s (deriveOutputs (derivedAll (derivingState 0x03 s))) := rfl
    rw [run_derive_ok hs hf, hin.completed .ok rfl]
    rfl
  · exact run_derivation_fails hs rfl (start_derive s) hk hf hfail

/-! ### PV_HASH -/

/-- A PV_HASH with its data absorbed, but for the length block. -/
def hashAbsorbed (l : Bool) (s : State) : State :=
  { acceptedState 0x04 l s with
    hsub := s.hkey
    acc := polyvalFrom s.hkey (polyvalFrom s.hkey 0 (pad16 (aadBytes s))) (pad16 (msgBytes s))
    phase := .hashingMsg (chunkCount s.msgLen.toNat) }

theorem run_hash_absorbed {l : Bool} {s : State} (hs : Ready s) (hc : regionCheckHash s = true) :
    runSteps (2 + (chunkCount s.aadLen.toNat + 1) + chunkCount s.msgLen.toNat) (acceptedState 0x04 l s) =
      .next (hashAbsorbed l s) := by
  have ⟨hr, _, hq, ht⟩ := hs
  have hopc := accepted_opc 0x04 l s
  have hopc3 : (acceptedState 0x04 l s).opc ≠ 0x03 := by rw [hopc]; decide
  have hopc2 : (kdLoadHash (acceptedState 0x04 l s)).opc ≠ 0x02 := by rw [kdLoadHash_opc, hopc]; decide
  have ⟨haad, hmsg⟩ := (regionChecks s).2.mp hc
  have hstart : startStep (acceptedState 0x04 l s) = { kdLoadHash (acceptedState 0x04 l s) with phase := .keyed } := by
    rw [startStep_hash hopc, startHash, if_pos (by exact hc)]
  have hkeyed := runSteps_trans (run_start hs hstart) (runSteps_one ht (step_keyed hr hq rfl hopc3))
  have hashed := runSteps_trans hkeyed
    (run_hashAad (chunkCount s.aadLen.toNat) (i := 0) hr hq ht rfl haad (Nat.zero_add _))
  have hnext := runSteps_trans hashed (runSteps_one ht (step_hashAad_end hr hq rfl (Nat.zero_add _)))
  have hend := runSteps_trans hnext
    (run_hashMsg (chunkCount s.msgLen.toNat) (i := 0) hr hq ht (if_neg hopc2) hmsg (Nat.zero_add _))
  unfold hashAbsorbed aadBytes msgBytes
  rw [← absorbed_all, ← absorbed_all, ← Nat.add_assoc, hend]
  simp only [Nat.zero_add, if_neg hopc2]
  rfl

/-- A PV_HASH with all its data absorbed: RESULT comes next. -/
def hashDone (l : Bool) (s : State) : State :=
  { acceptedState 0x04 l s with
    hsub := s.hkey
    acc := hashResult l s
    phase := .hashed }

theorem hashMsgEnd_absorbed (l : Bool) (s : State) : hashMsgEnd (hashAbsorbed l s) = hashDone l s := by
  have hopc : (hashAbsorbed l s).opc = 0x04 := accepted_opc 0x04 l s
  have hopF : (hashAbsorbed l s).opF = l := accepted_opF 0x04 l s
  rw [hashMsgEnd, if_pos hopc, hopF, hashDone, hashResult]
  cases l with
  | false => simp only [polyval, polyvalFrom, List.foldl_append]; rfl
  | true => simp only [polyval, polyvalFrom, List.foldl_append]; rfl

/-- Settles O25: the set-up, the two regions, and the result. -/
theorem pvHashRun : Obligations.PvHashRun := by
  intro l s hs hc
  have ⟨hr, hidle, hq, ht⟩ := hs
  have hin : InProgress 0x04 l 0 s { hashDone l s with result := hashResult l s } := rfl
  have hlast : engineTurn (hashAbsorbed l s) = .next (hashDone l s) := by
    rw [step_hashMsg_end (t := hashAbsorbed l s) hr hq rfl rfl, hashMsgEnd_absorbed]
  have hdone : engineTurn (hashDone l s) = .next (complete .ok { hashDone l s with result := hashResult l s }) :=
    engineTurn_sequencer hr hq
  refine ⟨_, submit_accepted hidle, ?_⟩
  rw [hin.completed .ok rfl] at hdone
  have hhashed := runSteps_trans (run_hash_absorbed hs hc) (runSteps_one (s := hashAbsorbed l s) ht hlast)
  exact runSteps_trans hhashed (runSteps_one (s := hashDone l s) ht hdone)

end Sys2Proof.Machine
end

section
/-! Whole runs of ENCRYPT (45_commands.md R200, R201) and DECRYPT (R204, R207, R208) when no block-cipher call fails. -/

namespace Sys2Proof.Machine

/-! ### The keystream pass of a command in progress -/

/-- A command at its first keystream block goes through the whole pass, and the last micro-step ends it. -/
theorem InProgress.run_keystream {op : BitVec 8} {f : Bool} {n : Nat} {s u : State} (h : InProgress op f n s u)
    (hs : Ready s) (hc : regionCheckAead s = true) (hq : u.bcReq = none) (hp : u.phase = .keystream .block)
    (hb : u.blk = 0) (hf : NoFail s (n + chunkCount s.msgLen.toNat)) :
    ∃ m, runSteps (2 * chunkCount s.msgLen.toNat + 1) u =
        .next (keystreamEnd (passTo u (chunkCount s.msgLen.toNat) m)) ∧
      Written u s.msgLen.toNat m := by
  have ⟨hrst, _, _, hturns⟩ := hs
  obtain ⟨_, hmsg, hout, hplace⟩ := aead_bounds hc
  obtain ⟨hpar, hr, ht, ⟨_, _, _, hmo, hml, hoo, _⟩, _, _, _, _, hans, hcalls⟩ := h.inputs
  rw [← hpar, ← hmo, ← hml] at hmsg
  rw [← hpar, ← hoo, ← hml] at hout
  rw [← hmo, ← hoo, ← hml] at hplace
  rw [← hml] at hf ⊢
  obtain ⟨m, hpass, hw⟩ := run_pass (chunkCount u.msgLen.toNat) (hr.trans hrst) hq (ht.trans hturns) hp hb hmsg hout
    hplace le_rfl (hf.after hans hcalls)
  rw [Nat.min_eq_right (by unfold chunkCount; omega)] at hw
  have hend : engineTurn (passTo u (chunkCount u.msgLen.toNat) m) =
      .next (keystreamEnd (passTo u (chunkCount u.msgLen.toNat) m)) :=
    step_pass_end (hr.trans hrst) hq rfl rfl rfl
  exact ⟨m, runSteps_trans hpass (runSteps_one (ht.trans hturns) hend), hw⟩

/-! ### ENCRYPT -/

theorem InProgress.with_tag {op : BitVec 8} {f : Bool} {n : Nat} {s u : State} (h : InProgress op f n s u) (t : Block) :
    InProgress op f n s { u with tag := t } := by
  have hu : u = _ := h
  rw [InProgress]
  conv_lhs => rw [hu]

/-- The completion of an ENCRYPT after its keystream pass: TAG takes the computed tag (R201). -/
theorem InProgress.encrypt_end {f : Bool} {n : Nat} {s u : State} (h : InProgress 0x01 f n s u) (hno : NoOutput s u) :
    keystreamEnd u = { finished 0x01 f .ok n s with tag := u.tcalc, buf := u.buf } := by
  obtain ⟨_, _, _, _, hop, _, _, _, _, _⟩ := h.inputs
  obtain ⟨_, hres, hdkh, hdke⟩ := hno
  rw [keystreamEnd, if_neg (by rw [hop]; decide), (h.with_tag u.tcalc).completed .ok rfl]
  simp only [hres, hdkh, hdke]
  rfl

/-- Settles O21: the set-up, the hash and the tag, the keystream pass, and the completion. -/
theorem encryptRun : Obligations.EncryptRun := by
  intro f s hs hc hf
  have ⟨hr, hidle, hq, ht⟩ := hs
  have hready := run_enc_pass (t := acceptedState 0x01 f s) hr hq ht rfl (accepted_opc ..) (accepted_opF ..) hc
    (hf.mono (Nat.le_add_right _ _))
  obtain ⟨hp, hb, hreq, hbuf, hcb, hesub⟩ := encPass_ready f (acceptedState 0x01 f s)
  have hin := encPass_inProgress f s
  obtain ⟨m, hpass, hw⟩ := hin.run_keystream hs hc (hreq.trans hq) hp hb hf
  rw [(passTo_inProgress hin _ m).encrypt_end (encPass_noOutput f s)] at hpass
  have hout := hin.outHolds_of_written hbuf (hcb.trans (congrArg _ (tagOf_encHashed_accepted f s))) hesub le_rfl hw
  have hsteps : encryptSteps f s.ksz s.aadLen.toNat s.msgLen.toNat =
      setupSteps f s.ksz + (chunkCount s.aadLen.toNat + 1) + (chunkCount s.msgLen.toNat + 1) + 4 + 1 +
        (2 * chunkCount s.msgLen.toNat + 1) := by
    unfold encryptSteps
    omega
  refine ⟨_, m, submit_accepted hidle, ?_, hout⟩
  rw [hsteps, ← tagOf_encHashed_accepted]
  exact runSteps_trans hready hpass

/-! ### DECRYPT -/

/-- `Dec` of an accepted DECRYPT's inputs is the comparison the machine makes (R204, R212). -/
theorem decResult_eq (f : Bool) (s : State) : decResult f s =
    if ctEqual (tagOf (decHashed f (acceptedState 0x02 f s))) s.tag then
      some (ctrApply s.params.ctrMsb s.ksz s.tag (cmdSubkeys f s).2 (msgBytes s))
    else none := by
  rw [tagOf_decHashed]
  rfl

theorem decPass_noOutput (f : Bool) (s : State) : NoOutput s (decPass f (acceptedState 0x02 f s)) := by
  obtain ⟨htag, _, hres, hdkh, hdke, _⟩ := decPass_outputs f (acceptedState 0x02 f s)
  exact ⟨htag, hres, hdkh, hdke⟩

theorem decTagged_noOutput (f : Bool) (s : State) : NoOutput s (decTagged f (acceptedState 0x02 f s)) := by
  obtain ⟨htag, _, hres, hdkh, hdke, _⟩ := decTagged_outputs f (acceptedState 0x02 f s)
  exact ⟨htag, hres, hdkh, hdke⟩

/-- A completion that hands out nothing but BUF. -/
theorem InProgress.completed_noOutput {op : BitVec 8} {f : Bool} {n : Nat} {s u : State} (h : InProgress op f n s u)
    (o : CmdOutcome) (hz : zeroizesKeys o op = true) (hno : NoOutput s u) :
    complete o u = { finished op f o n s with buf := u.buf } := by
  obtain ⟨htag, hres, hdkh, hdke⟩ := hno
  rw [h.completed o hz]
  simp only [htag, hres, hdkh, hdke]
  rfl

/-- The completion of a DECRYPT after its keystream pass (R207). -/
theorem InProgress.decrypt_end {f : Bool} {n : Nat} {s u : State} (h : InProgress 0x02 f n s u) (hno : NoOutput s u) :
    keystreamEnd u = { finished 0x02 f .verified n s with buf := u.buf } := by
  obtain ⟨_, _, _, _, hop, _, _, _, _, _⟩ := h.inputs
  rw [keystreamEnd, if_pos hop, h.completed_noOutput .verified rfl hno]

/-- A DECRYPT whose tag matches, up to the first keystream block of pass 2. -/
theorem run_dec_pass {f : Bool} {s : State} (hs : Ready s) (hc : regionCheckAead s = true)
    (hmatch : ctEqual (tagOf (decHashed f (acceptedState 0x02 f s))) s.tag = true)
    (hf : NoFail s (keyCalls f s.ksz + chunkCount s.msgLen.toNat + 1)) :
    runSteps (setupSteps f s.ksz + (chunkCount s.aadLen.toNat + 1) + (3 * chunkCount s.msgLen.toNat + 2) + 4 + 2)
      (acceptedState 0x02 f s) = .next (decPass f (acceptedState 0x02 f s)) := by
  obtain ⟨hr, _, hq, ht⟩ := hs
  exact runSteps_trans
    (run_dec_tagged (t := acceptedState 0x02 f s) hr hq ht rfl (accepted_opc ..) (accepted_opF ..) hc hf)
    (step_verified hr hq ht (accepted_opc ..) hmatch)

/-- Settles O22: pass 1 and the tag, a comparison that matches, and pass 2. -/
theorem decryptVerified : Obligations.DecryptVerified := by
  intro f s p hs hc hdec hf
  have ⟨_, hidle, hq, _⟩ := hs
  rw [decResult_eq] at hdec
  split_ifs at hdec with hmatch
  obtain rfl := Option.some.inj hdec
  rw [decryptCalls, if_pos rfl] at hf ⊢
  obtain ⟨_, hbuf, _, _, _, hesub, hp, hb, hcb, hreq⟩ := decPass_outputs f (acceptedState 0x02 f s)
  have hin := decPass_inProgress f s
  obtain ⟨m, hpass, hw⟩ := hin.run_keystream hs hc (hreq.trans hq) hp hb hf
  rw [(passTo_inProgress hin _ m).decrypt_end (decPass_noOutput f s)] at hpass
  have hsteps : decryptSteps f s.ksz true s.aadLen.toNat s.msgLen.toNat =
      setupSteps f s.ksz + (chunkCount s.aadLen.toNat + 1) + (3 * chunkCount s.msgLen.toNat + 2) + 4 + 2 +
        (2 * chunkCount s.msgLen.toNat + 1) := by
    rw [decryptSteps, if_pos rfl]
    omega
  refine ⟨_, m, submit_accepted hidle, ?_, hin.outHolds_of_written hbuf hcb hesub le_rfl hw⟩
  rw [hsteps]
  exact runSteps_trans (run_dec_pass hs hc hmatch (hf.mono (Nat.le_add_right _ _))) hpass

/-- Settles O23: pass 1 and the tag, and a comparison that does not match. -/
theorem decryptRejected : Obligations.DecryptRejected := by
  intro f s hs hc hdec hf
  have ⟨hr, hidle, hq, ht⟩ := hs
  rw [decResult_eq] at hdec
  split_ifs at hdec with hmatch
  have htagged := run_dec_tagged (t := acceptedState 0x02 f s) hr hq ht rfl (accepted_opc ..) (accepted_opF ..) hc hf
  have hend := step_rejected (t := acceptedState 0x02 f s) hr hq ht (Bool.eq_false_iff.mpr hmatch)
  rw [(decTagged_inProgress f s).completed_noOutput .authenticationFailure rfl (decTagged_noOutput f s),
    (decTagged_outputs f _).2.1] at hend
  rw [decryptSteps, decryptCalls, if_neg Bool.false_ne_true, if_neg Bool.false_ne_true]
  have hrun := runSteps_trans htagged hend
  exact ⟨_, submit_accepted hidle, hrun⟩

end Sys2Proof.Machine
end

section
/-! The failing calls of a DECRYPT (45_commands.md R213): a derivation call, a call of pass 1, the tag call, or a call of
pass 2. -/

namespace Sys2Proof.Machine

theorem start_dec_deriving {s : State} (hc : regionCheckAead s = true) :
    startStep (acceptedState 0x02 false s) = derivingState 0x02 s := by
  rw [startStep_aead (.inr (accepted_opc ..)), startAead, if_pos (by exact hc), if_neg (by simp)]
  rfl

/-! ### Pass 1 and the tag -/

theorem pass1To_inProgress (f : Bool) (s : State) (i : Nat) :
    InProgress 0x02 f (keyCalls f s.ksz + i) s (pass1To (decReady f (acceptedState 0x02 f s)) 0 i) := by
  simp only [InProgress, pass1To, decReady, keyedState, List.drop_drop, Nat.add_assoc]
  rfl

theorem pass1To_noOutput (f : Bool) (s : State) (i : Nat) :
    NoOutput s (pass1To (decReady f (acceptedState 0x02 f s)) 0 i) := ⟨rfl, rfl, rfl, rfl⟩

/-- Call `i` of pass 1 fails. -/
theorem run_dec_pass1_fails {f : Bool} {s : State} (hs : Ready s) (hc : regionCheckAead s = true) {i : Nat}
    (hi : 16 * i < s.msgLen.toNat) (hf : NoFail s (keyCalls f s.ksz + i))
    (hfail : drawAt s (keyCalls f s.ksz + i) = true) :
    ∃ n, runSteps n (acceptedState 0x02 f s) =
      .next { finished 0x02 f .primitiveFailure (keyCalls f s.ksz + i + 1) s with buf := s.buf } := by
  have ⟨hr, _, hq, ht⟩ := hs
  have hready := run_dec_ready (t := acceptedState 0x02 f s) hr hq ht rfl (accepted_opc ..) (accepted_opF ..) hc
    (hf.mono (Nat.le_add_right _ i))
  have hpass := run_pass1 i (s := decReady f (acceptedState 0x02 f s)) (i := 0) hr hq ht rfl rfl (aead_bounds hc).2.1
    (by show 0 + i ≤ chunkCount s.msgLen.toNat; unfold chunkCount; omega) (hf.after rfl rfl)
  have hend := (pass1To_inProgress f s i).run_failing_call hs rfl (pass1To_noOutput f s i) hq
    (sequencer_pass1 rfl (congrArg (BitVec.ofNat 32) (Nat.zero_add i)) hi) hfail
  exact ⟨_, runSteps_trans (runSteps_trans hready hpass) hend⟩

theorem decHashed_inProgress (f : Bool) (s : State) :
    InProgress 0x02 f (keyCalls f s.ksz + chunkCount s.msgLen.toNat) s
      (taggedState (decHashed f (acceptedState 0x02 f s))) := by
  simp only [InProgress, taggedState, decHashed, pass1To, decReady, keyedState, List.drop_drop, Nat.add_assoc]
  rfl

/-- A DECRYPT at its tag call has written nothing yet, and no request is outstanding. -/
theorem decHashed_kept (f : Bool) (t : State) :
    (taggedState (decHashed f t)).tag = t.tag ∧ (taggedState (decHashed f t)).result = t.result ∧
      (taggedState (decHashed f t)).dkh = t.dkh ∧ (taggedState (decHashed f t)).dke = t.dke ∧
      (taggedState (decHashed f t)).buf = t.buf ∧ (taggedState (decHashed f t)).bcReq = t.bcReq := by
  simp only [taggedState, decHashed, pass1To, decReady, keyedState, and_self]

/-- The tag call fails. -/
theorem run_dec_tag_fails {f : Bool} {s : State} (hs : Ready s) (hc : regionCheckAead s = true)
    (hf : NoFail s (keyCalls f s.ksz + chunkCount s.msgLen.toNat))
    (hfail : drawAt s (keyCalls f s.ksz + chunkCount s.msgLen.toNat) = true) :
    ∃ n, runSteps n (acceptedState 0x02 f s) = .next
      { finished 0x02 f .primitiveFailure (keyCalls f s.ksz + chunkCount s.msgLen.toNat + 1) s with buf := s.buf } := by
  have ⟨hr, _, hq, ht⟩ := hs
  have htagged := runSteps_trans
    (run_dec_hashed (t := acceptedState 0x02 f s) hr hq ht rfl (accepted_opc ..) (accepted_opF ..) hc hf)
    (run_tag_input hr hq ht rfl)
  obtain ⟨htag, hres, hdkh, hdke, hbuf, hreq⟩ := decHashed_kept f (acceptedState 0x02 f s)
  have hend := (decHashed_inProgress f s).run_failing_call hs rfl ⟨htag, hres, hdkh, hdke⟩ (hreq.trans hq)
    (sequencer_tag _) hfail
  rw [hbuf] at hend
  exact ⟨_, runSteps_trans htagged hend⟩

/-! ### Pass 2 -/

/-- Call `i` of pass 2 fails, in a DECRYPT whose tag matches. -/
theorem run_dec_keystream_fails {f : Bool} {s : State} (hs : Ready s) (hc : regionCheckAead s = true)
    (hdec : (decResult f s).isSome = true) {i : Nat} (hi : 16 * i < s.msgLen.toNat)
    (hf : NoFail s (keyCalls f s.ksz + chunkCount s.msgLen.toNat + 1 + i))
    (hfail : drawAt s (keyCalls f s.ksz + chunkCount s.msgLen.toNat + 1 + i) = true) :
    ∃ n m, runSteps n (acceptedState 0x02 f s) = .next
        { finished 0x02 f .primitiveFailure (keyCalls f s.ksz + chunkCount s.msgLen.toNat + 1 + i + 1) s with buf := m } ∧
      OutHolds s m ((decResult f s).getD []) (16 * i) := by
  rw [decResult_eq] at hdec ⊢
  split_ifs at hdec ⊢ with hmatch
  · obtain ⟨_, hbuf, _, _, _, hesub, hp, hb, hcb, hreq⟩ := decPass_outputs f (acceptedState 0x02 f s)
    have hin := decPass_inProgress f s
    obtain ⟨m, hend, hw⟩ := hin.run_keystream_fails hs rfl hc (decPass_noOutput f s) (hreq.trans hs.2.2.1) hp hb hi hf
      hfail
    exact ⟨_, m, runSteps_trans (run_dec_pass hs hc hmatch (hf.mono (Nat.le_add_right _ i))) hend,
      hin.outHolds_of_written hbuf hcb hesub (Nat.le_of_lt hi) hw⟩
  · cases hdec

theorem outHolds_none (s : State) (bs : List Byte) : OutHolds s s.buf bs 0 :=
  ⟨fun k hk => absurd hk k.not_lt_zero, fun _ _ => rfl⟩

/-- Settles O30, by the kind of the failing call. -/
theorem decryptFails : Obligations.DecryptFails := by
  intro f s k hs hc hk hf hfail
  suffices h : ∃ n m, runSteps n (acceptedState 0x02 f s) =
      .next { finished 0x02 f .primitiveFailure (k + 1) s with buf := m } ∧
      OutHolds s m ((decResult f s).getD []) (16 * (k - (keyCalls f s.ksz + chunkCount s.msgLen.toNat + 1))) by
    obtain ⟨n, m, hrun, hout⟩ := h
    exact ⟨_, n, m, submit_accepted hs.2.1, hrun, hout⟩
  rcases Nat.lt_trichotomy k (keyCalls f s.ksz + chunkCount s.msgLen.toNat) with hlt | rfl | hgt
  · rw [Nat.sub_eq_zero_of_le (by omega)]
    rcases Nat.lt_or_ge k (keyCalls f s.ksz) with hkey | hpass
    · cases f with
      | true => exact absurd hkey k.not_lt_zero
      | false =>
        exact ⟨_, s.buf, run_derivation_fails hs rfl (start_dec_deriving hc) hkey hf hfail, outHolds_none s _⟩
    · obtain ⟨i, rfl⟩ := Nat.exists_eq_add_of_le hpass
      obtain ⟨n, hrun⟩ := run_dec_pass1_fails hs hc (i := i) (by unfold chunkCount at hlt; omega) hf hfail
      exact ⟨n, s.buf, hrun, outHolds_none s _⟩
  · rw [Nat.sub_eq_zero_of_le (by omega)]
    obtain ⟨n, hrun⟩ := run_dec_tag_fails hs hc hf hfail
    exact ⟨n, s.buf, hrun, outHolds_none s _⟩
  · obtain ⟨i, rfl⟩ := Nat.exists_eq_add_of_le hgt
    unfold decryptCalls at hk
    split_ifs at hk with hdec
    · rw [Nat.add_sub_cancel_left]
      exact run_dec_keystream_fails hs hc hdec (by unfold chunkCount at hk; omega) hf hfail
    · omega

end Sys2Proof.Machine
end

section
/-! The two-key variant under the derived subkeys is the one-key variant (42_key_derivation.md R136). -/

namespace Sys2Proof.Machine

/-! ### The subkeys of the two variants -/

/-- The encryption subkey of a 16-byte key has 16 bytes, so it is the key in use (R133, 40_host_bus.md R97). -/
theorem keyInUse_deriveKeys (ksz nprof : Bool) (mk : Key) (n : Block) :
    keyInUse ksz (deriveKeys ksz nprof mk n).2 = (deriveKeys ksz nprof mk n).2 := by
  cases ksz with
  | true => rfl
  | false =>
    have hcut (b : Block) : (b.setWidth 256).setWidth 128 = b := by
      apply BitVec.eq_of_toNat_eq
      have := b.isLt
      simp only [BitVec.toNat_setWidth]
      omega
    exact congrArg (BitVec.setWidth 256) (hcut _)

/-- The state with HKEY and KEY replaced by the subkeys derived from KEY. -/
def withDerived (s : State) : State :=
  { s with
    hkey := (deriveKeys s.ksz s.nprof s.key s.nonce).1
    key := (deriveKeys s.ksz s.nprof s.key s.nonce).2 }

theorem cmdSubkeys_withDerived (s : State) : cmdSubkeys true (withDerived s) = cmdSubkeys false s :=
  Prod.ext rfl (keyInUse_deriveKeys s.ksz s.nprof s.key s.nonce)

theorem encResult_withDerived (s : State) : encResult true (withDerived s) = encResult false s := by
  rw [encResult, cmdSubkeys_withDerived]
  rfl

theorem decResult_withDerived (s : State) : decResult true (withDerived s) = decResult false s := by
  rw [decResult, cmdSubkeys_withDerived]
  rfl

/-! ### The calls of the two variants -/

theorem encryptCalls_le (f ksz : Bool) (l : Nat) : encryptCalls f ksz l ≤ decryptCalls f ksz true l := by
  simp only [encryptCalls, decryptCalls, if_true]
  omega

theorem decryptCalls_le (f ksz verified : Bool) (l : Nat) :
    decryptCalls f ksz verified l ≤ decryptCalls false ksz true l := by
  cases f <;> cases verified <;> simp [decryptCalls, keyCalls]

theorem NoFail.withDerived {s : State} {m n : Nat} (h : NoFail s n) (hm : m ≤ n) : NoFail (withDerived s) m :=
  h.mono hm

/-! ### What the two runs leave -/

/-- BUSY after a completion. -/
theorem statusFinished_busy (o : CmdOutcome) (st : BitVec 8) :
    ((st &&& 0x80) ||| outcomeBit o ||| 0x02).getLsbD 0 = false := by
  cases o <;> (revert st; decide)

/-- AUTH_OK after a completion. -/
theorem statusFinished_authOk (o : CmdOutcome) (st : BitVec 8) :
    ((st &&& 0x80) ||| outcomeBit o ||| 0x02).getLsbD 2 = decide (o = .verified) := by
  cases o <;> (revert st; decide)

/-- The bytes of OUT and the frame leave no byte of BUF open. -/
theorem OutHolds.agree {s : State} {m m' : Buffer} {bs : List Byte} {n : Nat} (h : OutHolds s m bs n)
    (h' : OutHolds s m' bs n) (a : Nat) : bufGet m' a = bufGet m a := by
  obtain ⟨hout, hframe⟩ := h
  obtain ⟨hout', hframe'⟩ := h'
  by_cases ha : a < s.outOff.toNat ∨ s.outOff.toNat + n ≤ a
  · rw [hframe' a ha, hframe a ha]
  · obtain ⟨k, rfl⟩ := Nat.exists_eq_add_of_le (show s.outOff.toNat ≤ a by omega)
    rw [hout' k (by omega), hout k (by omega)]

/-- Settles O31: both variants compute the same `Enc` and the same `Dec`. -/
theorem variantsAgree : Obligations.VariantsAgree := by
  rintro s _ hs rfl hc hf
  have hs' : Ready (withDerived s) := hs
  have hc' : regionCheckAead (withDerived s) = true := hc
  refine ⟨?_, ?_⟩
  · obtain ⟨t, m, hexec, hrun, hout⟩ := encryptRun false s hs hc (hf.mono (encryptCalls_le ..))
    obtain ⟨t', m', hexec', hrun', hout'⟩ := encryptRun true (withDerived s) hs' hc' 
      (hf.withDerived ((encryptCalls_le ..).trans (decryptCalls_le ..)))
    rw [encResult_withDerived] at hrun' hout'
    exact ⟨t, t', _, _, _, _, hexec, hexec', hrun, hrun', statusFinished_busy _ _, statusFinished_busy _ _, rfl, rfl,
      hout.agree hout'⟩
  · cases hdec : decResult false s with
    | some p =>
      obtain ⟨t, m, hexec, hrun, hout⟩ := decryptVerified false s p hs hc hdec hf
      obtain ⟨t', m', hexec', hrun', hout'⟩ := decryptVerified true (withDerived s) p hs' hc'
        ((decResult_withDerived s).trans hdec) (hf.withDerived (decryptCalls_le ..))
      exact ⟨t, t', _, _, _, _, hexec, hexec', hrun, hrun', statusFinished_busy _ _, statusFinished_busy _ _,
        statusFinished_authOk _ _, rfl, rfl, hout.agree hout'⟩
    | none =>
      obtain ⟨t, hexec, hrun⟩ := decryptRejected false s hs hc hdec (hf.mono (decryptCalls_le ..))
      obtain ⟨t', hexec', hrun'⟩ := decryptRejected true (withDerived s) hs' hc'
        ((decResult_withDerived s).trans hdec) (hf.withDerived (decryptCalls_le ..))
      exact ⟨t, t', _, _, _, _, hexec, hexec', hrun, hrun', statusFinished_busy _ _, statusFinished_busy _ _,
        statusFinished_authOk _ _, rfl, rfl, fun _ => rfl⟩

end Sys2Proof.Machine
end
